-- ==== Sys2Proof/Word.lean ====
section
/-! DEFINITION. The word types of the PFE (spec/00_scope.md R9): a field, register or operand is an unsigned value of a
stated width, and its arithmetic is modulo 2 to that width. -/

namespace Sys2Proof

/-- A 32-bit register, operand or wire field (R9, R36, R80). -/
abbrev Word := BitVec 32

/-- One byte of the wire, of a buffer, or of RSTAT (R36, R60, R94). -/
abbrev Byte := BitVec 8

/-- A host-physical address: HP_ADDR_BITS = 64 (R7, R60). -/
abbrev Word64 := BitVec 64

end Sys2Proof
end

