-- ==== Sys2Proof/Config.lean ====
section
/-! DEFINITION. The implementation parameters of spec/00_scope.md R7. A parameter the spec leaves OPEN is a field of
`OpenParams`; one whose value is the source's literal, BYTE_ORDER, and the two modes with a named default are fields of
`Params`, each with the spec's value as its default. Every state carries one `Params`, so a statement over all states is a
statement over every assignment, and no step writes it (notes/assumptions/1.md, 7.md). What R7 calls fixed or derived is a
definition. -/

namespace Sys2Proof

/-- The two window pools P of R11 and R170. -/
inductive Pool where
  | hp
  | sas
  deriving DecidableEq, Repr, Inhabited

/-- The memory-type tag: MEM = 0 ("plain memory"), REG = 1 ("register") (R12, R31). -/
inductive Tag where
  | mem
  | reg
  deriving DecidableEq, Repr, Inhabited

/-- RX_SEQ_MODE (R7, R149): how an accepted packet sets RX_EXPECT. -/
inductive RxSeqMode where
  | adopt
  | increment
  deriving DecidableEq, Repr, Inhabited

/-- RELEASE_ALIGN (R7, R176): NONE is `anywhere` (any pointer inside a slot's range), BASE is `base` (offset 0 only). -/
inductive ReleaseAlign where
  | anywhere
  | base
  deriving DecidableEq, Repr, Inhabited

/-- BYTE_ORDER (R7, R61). -/
inductive ByteOrder where
  | little
  | big
  deriving DecidableEq, Repr, Inhabited

namespace Config

/-- HDR_SIZE: seven 32-bit fields; fixed (R7, R80). -/
abbrev hdrSize : Nat := 28
/-- FTR_SIZE: two 32-bit fields; fixed (R7, R80). -/
abbrev ftrSize : Nat := 8

end Config

/-- One window register: HP_WIN_LO[i], HP_WIN_HI[i] (R32) or SAS_WIN[i] (R33). -/
inductive WinReg where
  | hpLo (i : Nat)
  | hpHi (i : Nat)
  | sas (i : Nat)
  deriving DecidableEq, Repr

/-- The OPEN parameters of R7 that a PFE rule reads. -/
structure OpenParams where
  /-- MAGIC_H2D_SOM: start magic of inbound packets (R83). -/
  magicH2dSom : Word
  /-- MAGIC_H2D_EOM: end magic of inbound packets (R83). -/
  magicH2dEom : Word
  /-- MAGIC_D2H_SOM: start magic of outbound packets (R83). -/
  magicD2hSom : Word
  /-- MAGIC_D2H_EOM: end magic of outbound packets (R83). -/
  magicD2hEom : Word
  /-- REQ_ID_MIN (R84). -/
  reqIdMin : Word
  /-- REQ_ID_MAX (R84). -/
  reqIdMax : Word
  /-- N_SUBDEV (R7, R114). -/
  nSubdev : Nat
  /-- LOCAL_BASE_HP (R68). -/
  localBaseHp : Word
  /-- LOCAL_BASE_SAS (R68). -/
  localBaseSas : Word
  deriving DecidableEq, Repr, Inhabited

/-- The parameters of a machine (R7). -/
structure Params extends OpenParams where
  /-- BUF_SIZE (R30). -/
  bufSize : Nat := 4096
  /-- N_HP (R170). -/
  nHp : Nat := 15
  /-- N_SAS (R170). -/
  nSas : Nat := 32
  /-- The exponent of W_HP, which is a power of two (R7, R170). -/
  wHpLog2 : Nat := 26
  /-- The exponent of W_SAS, which is a power of two (R7, R170). -/
  wSasLog2 : Nat := 20
  /-- BYTE_ORDER (R61; spec/93_implementation_defined.md I9). -/
  byteOrder : ByteOrder := .little
  /-- RX_SEQ_MODE, by default ADOPT (R149). -/
  rxSeqMode : RxSeqMode := .adopt
  /-- RELEASE_ALIGN, by default NONE (R176). -/
  releaseAlign : ReleaseAlign := .anywhere
  deriving DecidableEq, Repr, Inhabited

namespace Params

/-- MAX_PAYLOAD = BUF_SIZE - HDR_SIZE - FTR_SIZE (R7). -/
def maxPayload (p : Params) : Nat := p.bufSize - Config.hdrSize - Config.ftrSize

/-- TXBUF_SIZE = MAX_PAYLOAD (R7, decided by the spec in D14). -/
def txbufSize (p : Params) : Nat := p.maxPayload

/-- W_HP: window size and alignment of the HP pool, 64 MiB by default (R7, R170). -/
def wHp (p : Params) : Nat := 2 ^ p.wHpLog2

/-- W_SAS: window size and alignment of the SAS pool, 1 MiB by default (R7, R170). -/
def wSas (p : Params) : Nat := 2 ^ p.wSasLog2

/-- R7's constraints on the parameters, with R40's assumption that each pool has at most 32 slots. -/
abbrev wf (p : Params) : Prop :=
  p.magicD2hSom ≠ p.magicH2dSom ∧ p.magicD2hEom ≠ p.magicH2dEom ∧
  p.reqIdMin ≤ p.reqIdMax ∧ 1 ≤ p.nSubdev ∧
  Config.hdrSize + Config.ftrSize ≤ p.bufSize ∧ (1 ≤ p.nHp ∧ p.nHp ≤ 32) ∧ (1 ≤ p.nSas ∧ p.nSas ≤ 32) ∧
  p.localBaseHp.toNat % p.wHp = 0 ∧ p.localBaseHp.toNat + p.nHp * p.wHp ≤ 2 ^ 32 ∧
  p.localBaseSas.toNat % p.wSas = 0 ∧ p.localBaseSas.toNat + p.nSas * p.wSas ≤ 2 ^ 32 ∧
  (p.localBaseHp.toNat + p.nHp * p.wHp ≤ p.localBaseSas.toNat ∨
    p.localBaseSas.toNat + p.nSas * p.wSas ≤ p.localBaseHp.toNat)

end Params

/-- An assignment of the OPEN parameters that meets R7's constraints under the defaults of the others; it only makes
`Config.openParams` total (notes/assumptions/1.md). -/
def OpenParams.fallback : OpenParams where
  magicH2dSom := 0
  magicH2dEom := 0
  magicD2hSom := 1
  magicD2hEom := 1
  reqIdMin := 0
  reqIdMax := 0
  nSubdev := 1
  localBaseHp := 0
  localBaseSas := 0x3C000000

namespace Config

/-- Some assignment of the OPEN parameters: no body, so nothing in Lean can know which (R7, status OPEN). -/
opaque anyOpen : OpenParams

/-- The OPEN parameters State.reset carries: an unknown assignment that meets R7's constraints. -/
def openParams : OpenParams :=
  if ({ toOpenParams := anyOpen } : Params).wf then anyOpen else OpenParams.fallback

/-- The parameters State.reset carries: every default of R7, and the OPEN ones unknown. -/
def params : Params := { toOpenParams := openParams }

/-- WINREG_ADDR (R7, R233): the platform address of each window register, OPEN; no PFE rule reads it. The spec gives the
address no width: a natural number is the model's DESIGN CHOICE (notes/assumptions/8.md). -/
opaque winregAddr : WinReg → Nat

/-- HP_TAG_HW (R7, R32): the platform's own encoding of a tag, OPEN; the spec's register image uses the tag itself. The
spec gives the encoding no width: a natural number is the model's DESIGN CHOICE (notes/assumptions/8.md). -/
opaque hpTagHw : Tag → Nat

end Config

end Sys2Proof
end

