-- ==== Sys2Proof/Syntax.lean ====
section
/-! DEFINITION. The instructions of the PFE: one constructor per row of spec/opcode_table.json (spec/30_encoding.md R91,
R94), and the CSR names of spec/10_state.md R40. Operands that travel in ARG0..ARG3 (R92) are state, not syntax: a
constructor holds only what the instruction's own word holds. -/

namespace Sys2Proof

/-- The twelve commands of R91 and the RX port's beat of R94. -/
inductive Instr where
  /-- WACQ.HP, format CT: the tag is CMD[8] (R179). -/
  | wacqHp (tag : Tag)
  /-- WACQ.SAS (R180). -/
  | wacqSas
  /-- WREL.HP (R181). -/
  | wrelHp
  /-- WREL.SAS (R182). -/
  | wrelSas
  /-- TXBUILD (R118). -/
  | txbuild
  /-- TXWR8 (R121). -/
  | txwr8
  /-- TXWR32 (R122). -/
  | txwr32
  /-- RXACK (R152). -/
  | rxack
  /-- RXRD8 (R153). -/
  | rxrd8
  /-- RXRD32 (R154). -/
  | rxrd32
  /-- CSRRD, format CC: the CSR number is CMD[23:12] (R200). -/
  | csrrd (n : BitVec 12)
  /-- CSRWR, format CC: the CSR number is CMD[23:12] (R201). -/
  | csrwr (n : BitVec 12)
  /-- RX_BYTE: the RX port delivers one byte (R142). -/
  | rxByte (b : Byte)
  deriving DecidableEq, Repr

/-- The CSRs of R40, by name. -/
inductive Csr where
  | ctrl
  | status
  | rxRemain
  | rxPlen
  | rxExpect
  | txSent
  | beaconCnt
  | hpSlotBaseLo (i : Nat)
  | hpSlotBaseHi (i : Nat)
  | hpSlotTag (i : Nat)
  | hpSlotRef (i : Nat)
  | hpWinLo (i : Nat)
  | hpWinHi (i : Nat)
  | sasSlotBase (i : Nat)
  | sasSlotRef (i : Nat)
  | sasWin (i : Nat)
  deriving DecidableEq, Repr

/-- The row of spec/opcode_table.json a constructor stands for. -/
def Instr.mnemonic : Instr → String
  | .wacqHp _ => "WACQ.HP"
  | .wacqSas => "WACQ.SAS"
  | .wrelHp => "WREL.HP"
  | .wrelSas => "WREL.SAS"
  | .txbuild => "TXBUILD"
  | .txwr8 => "TXWR8"
  | .txwr32 => "TXWR32"
  | .rxack => "RXACK"
  | .rxrd8 => "RXRD8"
  | .rxrd32 => "RXRD32"
  | .csrrd _ => "CSRRD"
  | .csrwr _ => "CSRWR"
  | .rxByte _ => "RX_BYTE"

end Sys2Proof
end

