-- ==== Sys2Proof/Decode.lean ====
section
/-! DEFINITION. Decoding of the two input ports (spec/30_encoding.md R86 to R94), the encoder written from the same
formats, the opcode table of R91, and the CSR map of spec/10_state.md R40. The decoder is total: a word that no row
matches is rejected by name. -/

namespace Sys2Proof

/-- What an input port carries: a 32-bit command word (R86) or one RX byte (R94). -/
inductive PortWord where
  | command (w : Word)
  | rx (b : Byte)
  deriving DecidableEq, Repr

/-- Why a command word is illegal (R93). -/
inductive DecodeError where
  /-- OP is 0x00 or 0x0D to 0xFF. -/
  | reservedOpcode
  /-- RSV (bits 31:24) is not 0. -/
  | nonzeroRsv
  /-- F (bits 11:8) is not 0, outside bit 8 of format CT. -/
  | nonzeroF
  /-- CSRN (bits 23:12) is not 0, outside format CC. -/
  | nonzeroCsrn
  deriving DecidableEq, Repr

/-! ## The fields of the command word (R87) -/

/-- OP, bits 7:0. -/
def cmdOp (w : Word) : BitVec 8 := w.extractLsb' 0 8
/-- F, bits 11:8. -/
def cmdF (w : Word) : BitVec 4 := w.extractLsb' 8 4
/-- Bits 11:9, the bits of F that format CT fixes at 0 (R89). -/
def cmdFHigh (w : Word) : BitVec 3 := w.extractLsb' 9 3
/-- TAG, bit 8 in format CT (R89). -/
def cmdTag (w : Word) : Tag := if w.getLsbD 8 then .reg else .mem
/-- CSRN, bits 23:12. -/
def cmdCsrn (w : Word) : BitVec 12 := w.extractLsb' 12 12
/-- RSV, bits 31:24. -/
def cmdRsv (w : Word) : BitVec 8 := w.extractLsb' 24 8

/-- Format C (R88): F and CSRN are 0. -/
def decodeC (w : Word) (i : Instr) : Except DecodeError Instr :=
  if cmdF w ≠ 0 then .error .nonzeroF
  else if cmdCsrn w ≠ 0 then .error .nonzeroCsrn
  else .ok i

/-- Format CT (R89): bits 11:9 and CSRN are 0. -/
def decodeCT (w : Word) (mk : Tag → Instr) : Except DecodeError Instr :=
  if cmdFHigh w ≠ 0 then .error .nonzeroF
  else if cmdCsrn w ≠ 0 then .error .nonzeroCsrn
  else .ok (mk (cmdTag w))

/-- Format CC (R90): F is 0. -/
def decodeCC (w : Word) (mk : BitVec 12 → Instr) : Except DecodeError Instr :=
  if cmdF w ≠ 0 then .error .nonzeroF
  else .ok (mk (cmdCsrn w))

/-- The opcode map of R91. In every format RSV is 0. -/
def decodeCommand (w : Word) : Except DecodeError Instr :=
  if cmdRsv w ≠ 0 then .error .nonzeroRsv
  else match (cmdOp w).toNat with
    | 0x01 => decodeCT w .wacqHp
    | 0x02 => decodeC w .wacqSas
    | 0x03 => decodeC w .wrelHp
    | 0x04 => decodeC w .wrelSas
    | 0x05 => decodeC w .txbuild
    | 0x06 => decodeC w .txwr8
    | 0x07 => decodeC w .txwr32
    | 0x08 => decodeC w .rxack
    | 0x09 => decodeC w .rxrd8
    | 0x0A => decodeC w .rxrd32
    | 0x0B => decodeCC w .csrrd
    | 0x0C => decodeCC w .csrwr
    | _ => .error .reservedOpcode

/-- Both ports: every RX byte is legal (R94). -/
def decode : PortWord → Except DecodeError Instr
  | .command w => decodeCommand w
  | .rx b => .ok (.rxByte b)

/-! ## The encoder -/

/-- MEM = 0, REG = 1 (R89). -/
def Tag.bit : Tag → BitVec 1
  | .mem => 0
  | .reg => 1

/-- Format C (R88). -/
def encodeC (op : BitVec 8) : Word := 0#8 ++ 0#12 ++ 0#4 ++ op
/-- Format CT (R89). -/
def encodeCT (t : Tag) (op : BitVec 8) : Word := 0#8 ++ 0#12 ++ 0#3 ++ t.bit ++ op
/-- Format CC (R90). -/
def encodeCC (n : BitVec 12) (op : BitVec 8) : Word := 0#8 ++ n ++ 0#4 ++ op

/-- The word of an instruction, from the formats of R88 to R90 and the opcodes of R91. -/
def encode : Instr → PortWord
  | .wacqHp t => .command (encodeCT t 0x01)
  | .wacqSas => .command (encodeC 0x02)
  | .wrelHp => .command (encodeC 0x03)
  | .wrelSas => .command (encodeC 0x04)
  | .txbuild => .command (encodeC 0x05)
  | .txwr8 => .command (encodeC 0x06)
  | .txwr32 => .command (encodeC 0x07)
  | .rxack => .command (encodeC 0x08)
  | .rxrd8 => .command (encodeC 0x09)
  | .rxrd32 => .command (encodeC 0x0A)
  | .csrrd n => .command (encodeCC n 0x0B)
  | .csrwr n => .command (encodeCC n 0x0C)
  | .rxByte b => .rx b

/-! ## The opcode table of R91, as the spec prints it -/

/-- One row of R91: a word is the row's instruction when `(CMD & mask) = pattern`. -/
structure OpRow where
  mnemonic : String
  pattern : Word
  mask : Word
  deriving DecidableEq, Repr

/-- The match test of R91. -/
abbrev OpRow.hits (r : OpRow) (w : Word) : Prop := w &&& r.mask = r.pattern

/-- R91's twelve rows. -/
def opcodeTable : List OpRow :=
  [⟨"WACQ.HP", 0x00000001, 0xFFFFFEFF⟩, ⟨"WACQ.SAS", 0x00000002, 0xFFFFFFFF⟩,
   ⟨"WREL.HP", 0x00000003, 0xFFFFFFFF⟩, ⟨"WREL.SAS", 0x00000004, 0xFFFFFFFF⟩,
   ⟨"TXBUILD", 0x00000005, 0xFFFFFFFF⟩, ⟨"TXWR8", 0x00000006, 0xFFFFFFFF⟩,
   ⟨"TXWR32", 0x00000007, 0xFFFFFFFF⟩, ⟨"RXACK", 0x00000008, 0xFFFFFFFF⟩,
   ⟨"RXRD8", 0x00000009, 0xFFFFFFFF⟩, ⟨"RXRD32", 0x0000000A, 0xFFFFFFFF⟩,
   ⟨"CSRRD", 0x0000000B, 0xFF000FFF⟩, ⟨"CSRWR", 0x0000000C, 0xFF000FFF⟩]

/-! ## The CSR map of R40 -/

/-- A bank of `k` consecutive CSR numbers that starts at `lo`. -/
def csrBank (n lo k : Nat) (mk : Nat → Csr) : Option Csr :=
  if lo ≤ n ∧ n < lo + k then some (mk (n - lo)) else none

/-- The CSR a number names, in a machine with parameters `p`; `none` is a reserved number (R49). -/
def csrOfNumber (p : Params) (n : BitVec 12) : Option Csr :=
  match n.toNat with
  | 0x000 => some .ctrl
  | 0x001 => some .status
  | 0x002 => some .rxRemain
  | 0x003 => some .rxPlen
  | 0x004 => some .rxExpect
  | 0x005 => some .txSent
  | 0x006 => some .beaconCnt
  | k =>
    (csrBank k 0x100 p.nHp .hpSlotBaseLo).or <| (csrBank k 0x120 p.nHp .hpSlotBaseHi).or <|
    (csrBank k 0x140 p.nHp .hpSlotTag).or <| (csrBank k 0x160 p.nHp .hpSlotRef).or <|
    (csrBank k 0x180 p.nHp .hpWinLo).or <| (csrBank k 0x1A0 p.nHp .hpWinHi).or <|
    (csrBank k 0x200 p.nSas .sasSlotBase).or <| (csrBank k 0x220 p.nSas .sasSlotRef).or <|
    (csrBank k 0x240 p.nSas .sasWin)

/-- The number of a CSR (R40). -/
def Csr.number : Csr → Nat
  | .ctrl => 0x000
  | .status => 0x001
  | .rxRemain => 0x002
  | .rxPlen => 0x003
  | .rxExpect => 0x004
  | .txSent => 0x005
  | .beaconCnt => 0x006
  | .hpSlotBaseLo i => 0x100 + i
  | .hpSlotBaseHi i => 0x120 + i
  | .hpSlotTag i => 0x140 + i
  | .hpSlotRef i => 0x160 + i
  | .hpWinLo i => 0x180 + i
  | .hpWinHi i => 0x1A0 + i
  | .sasSlotBase i => 0x200 + i
  | .sasSlotRef i => 0x220 + i
  | .sasWin i => 0x240 + i

/-! ## The host's reading of a table row -/

/-- The instruction the decoder reads from a row's bits. A row of at most 8 bits is the RX port's beat (`RXBEAT`, R94);
every other row is a 32-bit command word. A number with bits beyond the port's width is no word of the port. -/
def decodeTableWord (nbits w : Nat) : Option Instr :=
  if nbits ≤ 8 then
    if w < 2 ^ 8 then (decode (.rx (BitVec.ofNat 8 w))).toOption else none
  else
    if w < 2 ^ 32 then (decode (.command (BitVec.ofNat 32 w))).toOption else none

end Sys2Proof
end

