-- ==== Sys2Proof/Machine/State.lean ====
section
/-! DEFINITION. The state of the PFE (spec/10_state.md R20), as plain data, its reset value (R50), and the reasons a step
can stop. Beside R20's elements it holds what the four agents of spec/00_scope.md R6 bring: the bytes the RX producer
offers, the order in which the agents move, and two observations (R59, R186). -/

namespace Sys2Proof.Machine

/-! ## Parts of the state -/

/-- RX_STATE (R26). -/
inductive RxState where
  | header
  | payload
  | footer
  deriving DecidableEq, Repr

/-- The status codes of R220, by name. -/
inductive Status where
  | ok
  | illegal
  | halted
  | poolExhausted
  | badPointer
  | notAcquired
  | refOverflow
  | range
  | noPacket
  | readOnly
  deriving DecidableEq, Repr

/-- `slot_HP[i]` (R31). -/
structure HpSlot where
  base : Word64
  tag : Tag
  ref : Word
  deriving DecidableEq, Repr

/-- `slot_SAS[i]` (R31). -/
structure SasSlot where
  base : Word
  ref : Word
  deriving DecidableEq, Repr

/-- `hpwin[i]`: the registers HP_WIN_LO[i] and HP_WIN_HI[i] (R32). -/
structure HpWin where
  lo : Word
  hi : Word
  deriving DecidableEq, Repr

/-- A free HP slot: SENTINEL_HP, tag MEM, no reference (R31). -/
def HpSlot.free : HpSlot := ⟨0xFFFFFFFFFFFFFFFF, .mem, 0⟩

/-- A free SAS slot: SENTINEL_SAS, no reference (R31). -/
def SasSlot.free : SasSlot := ⟨0xFFFFFFFF, 0⟩

/-- `cleared` of the HP pool (R32). -/
def HpWin.cleared : HpWin := ⟨0, 0⟩

/-- A buffer: the bytes that differ from the reset byte, by rising offset (R30, R60; `Memory.wf` in Machine/Ops.lean). -/
abbrev Memory := List Host.Cell

/-- What a byte that nothing has written reads as: every buffer byte is 0 after reset (R30, R50). -/
def Memory.unlisted : Byte := 0

/-! ## The agents' moves (R6) -/

/-- One transaction of the command port (R86), with the millisecond time the environment supplies to the step (R58). -/
structure Command where
  cmd : Word
  arg0 : Word
  arg1 : Word
  arg2 : Word
  arg3 : Word
  nowMs : Word
  deriving DecidableEq, Repr

/-- An access the controller makes through a window pointer, outside the PFE (R186, R257, R258): `len` bytes at local
address `ptr`, which the controller takes for external address `target` of the pool's space. -/
structure Access where
  pool : Pool
  ptr : Word
  len : Nat
  target : Word64
  deriving DecidableEq, Repr

/-- The external access a programmed window turns a local one into (R186); a SAS access has tag MEM (R170). -/
structure ExtAccess where
  pool : Pool
  tag : Tag
  addr : Word64
  len : Nat
  deriving DecidableEq, Repr

/-- Which agent moves next, and what it brings (R6, R66, R228). -/
inductive Turn where
  /-- The RX producer offers the head of `rxLine` to the RX port (R140). -/
  | rx
  /-- The controller issues a command (R86). -/
  | command (c : Command)
  /-- The controller accesses memory through a window pointer; no step of the PFE itself (R186, R257). -/
  | windowAccess (a : Access)
  /-- The TX consumer takes the next byte of `txout` (R59). -/
  | txTake
  /-- The environment reports a transport failure (R229). -/
  | transportFault
  /-- The environment resets the PFE (R250). -/
  | reset
  deriving DecidableEq, Repr

/-! ## The state -/

/-- The state of R20, the parameters it runs under (R7), and the agents' side (R6, R58, R59). -/
structure State where
  /-- The parameters of this machine (R7); no step writes them. -/
  params : Params
  /-- CONNECTED (R21). -/
  connected : Bool
  /-- TX_SENT (R22). -/
  txSent : Word
  /-- RX_EXPECT (R23). -/
  rxExpect : Word
  /-- BEACON_CNT (R24). -/
  beaconCnt : Word
  /-- HALTED (R25). -/
  halted : Bool
  /-- RX_STATE (R26). -/
  rxState : RxState
  /-- RX_REMAIN (R27). -/
  rxRemain : Word
  /-- RX_PLEN (R28). -/
  rxPlen : Word
  /-- PKT_READY (R29). -/
  pktReady : Bool
  /-- `rxbuf`, offsets 0 to BUF_SIZE - 1 (R30). -/
  rxbuf : Memory
  /-- `txbuf`, offsets 0 to TXBUF_SIZE - 1 (R30). -/
  txbuf : Memory
  /-- `slot_HP`: N_HP slots, slot 0 first (R31). -/
  hpSlots : List HpSlot
  /-- `slot_SAS`: N_SAS slots, slot 0 first (R31). -/
  sasSlots : List SasSlot
  /-- `hpwin`: N_HP register sets (R32). -/
  hpWin : List HpWin
  /-- `saswin`: N_SAS registers (R33). -/
  sasWin : List Word
  /-- CMD (R36). -/
  cmd : Word
  /-- ARG0 (R36). -/
  arg0 : Word
  /-- ARG1 (R36). -/
  arg1 : Word
  /-- ARG2 (R36). -/
  arg2 : Word
  /-- ARG3 (R36). -/
  arg3 : Word
  /-- RESULT (R36). -/
  result : Word
  /-- RSTAT (R36, R220). -/
  rstat : Byte
  /-- `txout`, the TX output stream, oldest byte first (R59). -/
  txout : List Byte
  /-- How many bytes of `txout` the TX consumer has taken (R59; the model's own field, notes/assumptions/4.md). -/
  txTaken : Nat
  /-- now_ms as the environment supplied it with the latest command (R58). -/
  nowMs : Word
  /-- The bytes the transport holds for the RX port, next byte first (R140; notes/assumptions/2.md). -/
  rxLine : List Byte
  /-- The moves still to come, next one first (R6, R228; notes/assumptions/2.md). -/
  schedule : List Turn
  /-- The external accesses the controller's window accesses became, oldest first (R186; notes/assumptions/5.md). -/
  extOut : List ExtAccess
  deriving DecidableEq, Repr

/-- The reset state of R50. The agents' side is empty before the first step (notes/assumptions/2.md, 3.md, 4.md, 5.md). -/
def State.reset : State where
  params := Config.params
  connected := false
  txSent := 0
  rxExpect := 1
  beaconCnt := 0
  halted := false
  rxState := .header
  rxRemain := 28
  rxPlen := 0
  pktReady := false
  rxbuf := []
  txbuf := []
  hpSlots := List.replicate Config.params.nHp HpSlot.free
  sasSlots := List.replicate Config.params.nSas SasSlot.free
  hpWin := List.replicate Config.params.nHp HpWin.cleared
  sasWin := List.replicate Config.params.nSas 0
  cmd := 0
  arg0 := 0
  arg1 := 0
  arg2 := 0
  arg3 := 0
  result := 0
  rstat := 0
  txout := []
  txTaken := 0
  nowMs := 0
  rxLine := []
  schedule := []
  extOut := []

/-! ## Why a step stops -/

/-- The controller faults of R257 and R258. Only a `Turn.windowAccess` raises them; no instruction does. Safe: the run
stops, where the platform would do something the spec does not give (spec/93_implementation_defined.md I23 to I25). -/
inductive Fault where
  /-- The pointer lies in no slot of the pool it names (R258: an access beyond the pool's range). Safe. -/
  | outsidePool
  /-- The slot's window register is cleared (R186, R257). Safe. -/
  | clearedWindow
  /-- The access runs past the end of its slot's range (R258). Safe. -/
  | windowCrossing
  /-- The window is programmed to another base than the controller means to reach (R257). Safe. -/
  | reprogrammedWindow
  deriving DecidableEq, Repr

/-- Why a step has no meaning. -/
inductive Refusal where
  /-- An instruction without a meaning, by its mnemonic. Raised by no arm: every instruction has its meaning. Safe. -/
  | notModelled (mnemonic : String)
  deriving DecidableEq, Repr

end Sys2Proof.Machine
end

