-- ==== Sys2Proof/Machine/Ops.lean ====
section
/-! DEFINITION. The named operations over buffers, the command port and the slot tables (spec/00_scope.md R10,
spec/20_memory.md R60 to R64), and the one operation that ends a command (`State.finish`). The PFE has no trap entry and no
trap return (spec/60_exceptions.md R221, R226, R227): a command's error is its status code. -/

namespace Sys2Proof

/-! ## Bytes of a word (R10, R61, R62) -/

/-- The 32-bit value whose bytes, at rising offsets, are `b0` to `b3`: `LE32` in the little-endian order of R61. -/
def word32 (e : ByteOrder) (b0 b1 b2 b3 : Byte) : Word :=
  match e with
  | .little => b3 ++ b2 ++ b1 ++ b0
  | .big => b0 ++ b1 ++ b2 ++ b3

/-- `bytesLE32(v)` (R10) in the little-endian order of R61: the bytes of `v` at rising offsets. -/
def bytes32 (e : ByteOrder) (v : Word) : List Byte :=
  match e with
  | .little => [v.extractLsb' 0 8, v.extractLsb' 8 8, v.extractLsb' 16 8, v.extractLsb' 24 8]
  | .big => [v.extractLsb' 24 8, v.extractLsb' 16 8, v.extractLsb' 8 8, v.extractLsb' 0 8]

namespace Machine

/-! ## Buffers -/

/-- The canonical form of a buffer of `size` bytes: offsets strictly rise, lie inside the buffer, and no entry holds what
an unlisted offset reads as. -/
abbrev Memory.wf (size : Nat) (m : Memory) : Prop :=
  m.Pairwise (fun c d => c.1 < d.1) ∧ ∀ c ∈ m, c.1 < size ∧ c.2 ≠ Memory.unlisted

/-- Byte `a` of a buffer. -/
def Memory.read : Memory → Nat → Byte
  | [], _ => Memory.unlisted
  | (b, x) :: rest, a => if b = a then x else Memory.read rest a

/-- Write byte `v` at `a`, keeping the canonical form. -/
def Memory.write : Memory → Nat → Byte → Memory
  | [], a, v => if v = Memory.unlisted then [] else [(a, v)]
  | (b, x) :: rest, a, v =>
    if b < a then (b, x) :: Memory.write rest a v
    else if b = a then (if v = Memory.unlisted then rest else (a, v) :: rest)
    else (if v = Memory.unlisted then (b, x) :: rest else (a, v) :: (b, x) :: rest)

/-- The `n` bytes from offset `o`, in order. -/
def Memory.bytes (m : Memory) : Nat → Nat → List Byte
  | _, 0 => []
  | o, n + 1 => m.read o :: Memory.bytes m (o + 1) n

/-- Write a byte sequence from offset `o` up. -/
def Memory.writeBytes (m : Memory) : Nat → List Byte → Memory
  | _, [] => m
  | o, b :: bs => Memory.writeBytes (m.write o b) (o + 1) bs

/-- `LE32(buf, o)` (R10): `MemRead` of four bytes. -/
def Memory.read32 (m : Memory) (e : ByteOrder) (o : Nat) : Word :=
  word32 e (m.read o) (m.read (o + 1)) (m.read (o + 2)) (m.read (o + 3))

/-- `MemWrite` of four bytes (R10, R122). -/
def Memory.write32 (m : Memory) (e : ByteOrder) (o : Nat) (v : Word) : Memory := m.writeBytes o (bytes32 e v)

/-- The 32-bit value at offset `o` of rxbuf, in the machine's byte order (R61, R81). -/
def State.rxField (s : State) (o : Nat) : Word := s.rxbuf.read32 s.params.byteOrder o

/-- The four bytes of a value, in the machine's byte order (R61). -/
def State.bytesOf (s : State) (v : Word) : List Byte := bytes32 s.params.byteOrder v

/-! ## The status codes and the end of a command (R10, R220) -/

/-- RSTAT's encoding of a status (R220). -/
def Status.code : Status → Byte
  | .ok => 0x00
  | .illegal => 0x01
  | .halted => 0x02
  | .poolExhausted => 0x03
  | .badPointer => 0x04
  | .notAcquired => 0x05
  | .refOverflow => 0x06
  | .range => 0x07
  | .noPacket => 0x08
  | .readOnly => 0x09

/-- `finish(c, v)` (R10): every command writes RSTAT and RESULT, once. -/
def State.finish (s : State) (c : Status) (v : Word) : State := { s with rstat := c.code, result := v }

/-- `emit(x)` (R10): append to the TX output stream. -/
def State.emit (s : State) (x : List Byte) : State := { s with txout := s.txout ++ x }

/-- The controller presents a command (R86): CMD, ARG0 to ARG3 and the step's now_ms (R58). -/
def State.present (s : State) (c : Command) : State :=
  { s with cmd := c.cmd, arg0 := c.arg0, arg1 := c.arg1, arg2 := c.arg2, arg3 := c.arg3, nowMs := c.nowMs }

/-! ## Slots and window registers -/

/-- `slot_HP[i]`, i < N_HP (R31). -/
def State.hpSlot (s : State) (i : Nat) : HpSlot := s.hpSlots.getD i HpSlot.free

/-- `slot_SAS[i]`, i < N_SAS (R31). -/
def State.sasSlot (s : State) (i : Nat) : SasSlot := s.sasSlots.getD i SasSlot.free

/-- `hpwin[i]`, i < N_HP (R32). -/
def State.hpReg (s : State) (i : Nat) : HpWin := s.hpWin.getD i HpWin.cleared

/-- `saswin[i]`, i < N_SAS (R33). -/
def State.sasReg (s : State) (i : Nat) : Word := s.sasWin.getD i 0

/-- Write `slot_HP[i]`. -/
def State.setHpSlot (s : State) (i : Nat) (x : HpSlot) : State := { s with hpSlots := s.hpSlots.set i x }

/-- Write `slot_SAS[i]`. -/
def State.setSasSlot (s : State) (i : Nat) (x : SasSlot) : State := { s with sasSlots := s.sasSlots.set i x }

/-- Write one window register (R32, R33). -/
def State.writeWin (s : State) (r : WinReg) (v : Word) : State :=
  match r with
  | .hpLo i => { s with hpWin := s.hpWin.set i { s.hpReg i with lo := v } }
  | .hpHi i => { s with hpWin := s.hpWin.set i { s.hpReg i with hi := v } }
  | .sas i => { s with sasWin := s.sasWin.set i v }

/-- Write window registers in the order given (R178). -/
def State.writeWins (s : State) : List (WinReg × Word) → State
  | [] => s
  | (r, v) :: ws => (s.writeWin r v).writeWins ws

/-! ## Environment events -/

/-- TRANSPORT_FAULT (R229): HALTED is set and nothing else changes. -/
def State.transportFault (s : State) : State := { s with halted := true }

/-- RESET (R250 to R252): every element of R50 takes its reset value. What lies outside the PFE stays: the parameters, the
TX stream, the bytes offered to the RX port, and the agents' own side. -/
def State.applyReset (s : State) : State :=
  { State.reset with
    params := s.params
    hpSlots := List.replicate s.params.nHp HpSlot.free
    sasSlots := List.replicate s.params.nSas SasSlot.free
    hpWin := List.replicate s.params.nHp HpWin.cleared
    sasWin := List.replicate s.params.nSas 0
    txout := s.txout
    txTaken := s.txTaken
    nowMs := s.nowMs
    rxLine := s.rxLine
    schedule := s.schedule
    extOut := s.extOut }

/-- The TX consumer takes the next byte of the stream, if there is one (R59). -/
def State.takeTx (s : State) : State :=
  if s.txTaken < s.txout.length then { s with txTaken := s.txTaken + 1 } else s

end Machine

end Sys2Proof
end

