-- ==== Sys2Proof/Machine/Flags.lean ====
section
/-! DEFINITION. The status flags CONNECTED, HALTED and PKT_READY (spec/10_state.md R38): how the CSRs show them (R41, R42)
and what they gate (spec/41_receive.md R140, spec/60_exceptions.md R222, R230). There are no arithmetic condition codes. -/

namespace Sys2Proof.Machine

/-- A flag as a register bit. -/
def flagWord (b : Bool) : Word := if b then 1 else 0

/-- RX_STATE in STATUS (R26). -/
def RxState.code : RxState → Word
  | .header => 0
  | .payload => 1
  | .footer => 2

/-- CTRL: bit 0 is CONNECTED, the rest reads 0 (R41). -/
def State.ctrlWord (s : State) : Word := flagWord s.connected

/-- STATUS: bits 1:0 RX_STATE, bit 2 PKT_READY, bit 3 HALTED, the rest reads 0 (R42). -/
def State.statusWord (s : State) : Word :=
  s.rxState.code ||| (flagWord s.pktReady <<< 2) ||| (flagWord s.halted <<< 3)

/-- The RX port takes a byte only while HALTED = 0 and PKT_READY = 0 (R140). -/
def State.rxEnabled (s : State) : Bool := !s.halted && !s.pktReady

/-- The halt check of a command that is not read-only (R222, R230). -/
def State.unlessHalted (s : State) (act : State → State) : State :=
  if s.halted then s.finish .halted 0 else act s

end Sys2Proof.Machine
end

