-- ==== Sys2Proof/Machine/Operands.lean ====
section
/-! DEFINITION. Operand assembly (spec/30_encoding.md R92): every operand is an unsigned value of ARG0 to ARG3; none is
sign-extended, scaled or shifted. -/

namespace Sys2Proof.Machine

/-- WACQ.HP: addr[63:0] = ARG1 and ARG0 concatenated, ARG1 high (R92). -/
def State.hpAddr (s : State) : Word64 := s.arg1 ++ s.arg0

/-- WACQ.SAS: addr[31:0] = ARG0 (R92). -/
def State.sasAddr (s : State) : Word := s.arg0

/-- WREL.HP and WREL.SAS: ptr[31:0] = ARG0 (R92). -/
def State.ptr (s : State) : Word := s.arg0

/-- TXWR8, TXWR32, RXRD8, RXRD32: offset = ARG0, wide enough that an offset sum never wraps (R92, R121). -/
def State.offset (s : State) : Nat := s.arg0.toNat

/-- TXWR8: data = ARG1[7:0] (R92). -/
def State.data8 (s : State) : Byte := s.arg1.extractLsb' 0 8

/-- TXWR32: data = ARG1 (R92). -/
def State.data32 (s : State) : Word := s.arg1

/-- TXBUILD: status = ARG0, copied as 32 bits (R92). -/
def State.txStatus (s : State) : Word := s.arg0

/-- TXBUILD: subDeviceId = ARG1 (R92). -/
def State.txSubDevice (s : State) : Word := s.arg1

/-- TXBUILD: requestId = ARG2 (R92). -/
def State.txRequestId (s : State) : Word := s.arg2

/-- TXBUILD: payloadLen = ARG3 (R92). -/
def State.txPayloadLen (s : State) : Word := s.arg3

/-- CSRWR: value = ARG0 (R92). -/
def State.csrValue (s : State) : Word := s.arg0

end Sys2Proof.Machine
end

