-- ==== Sys2Proof/Machine/Codec.lean ====
section
/-! DEFINITION. The PDU codec (spec/40_codec.md): the checksum (R110 to R112), header and footer validation (R114 to R117),
and the transmit commands TXBUILD (R118 to R120), TXWR8 (R121) and TXWR32 (R122). -/

namespace Sys2Proof.Machine

/-! ## Checksum -/

/-- `ByteSum` (R110): the sum of the bytes, modulo 2^32. -/
def byteSum (bs : List Byte) : Word := BitVec.ofNat 32 (bs.map BitVec.toNat).sum

/-- `Checksum` of header ++ payload bytes (R111): the negated byte sum, modulo 2^32. -/
def checksum (bs : List Byte) : Word := -(byteSum bs)

/-! ## Validation of the packet in rxbuf -/

/-- c1 of R114: the start magic is the inbound one (R83). -/
def State.magicOk (s : State) : Bool := s.rxField 0 == s.params.magicH2dSom

/-- c2 of R114: the payload length fits the buffer. -/
def State.plenOk (s : State) : Bool := decide ((s.rxField 20).toNat ≤ s.params.maxPayload)

/-- c3 of R114: the request identifier lies in the inbound range (R84). -/
def State.requestOk (s : State) : Bool :=
  decide (s.params.reqIdMin ≤ s.rxField 8) && decide (s.rxField 8 ≤ s.params.reqIdMax)

/-- c4 of R114: the sequence number is the expected one, checked only while CONNECTED = 1 (R115). -/
def State.seqOk (s : State) : Bool := !s.connected || s.rxField 4 == s.rxExpect

/-- c5 of R114: the sub-device is a known one. -/
def State.subDeviceOk (s : State) : Bool := decide ((s.rxField 12).toNat < s.params.nSubdev)

/-- `ValidateHeader(rxbuf[0..27])` (R114); `status` and `timestampMs` are not checked (R116). -/
def State.headerValid (s : State) : Bool :=
  s.magicOk && s.plenOk && s.requestOk && s.seqOk && s.subDeviceOk

/-- The header and payload bytes as received: rxbuf[0..27+RX_PLEN] (R145). -/
def State.rxBody (s : State) : List Byte := s.rxbuf.bytes 0 (Config.hdrSize + s.rxPlen.toNat)

/-- The stored checksum, at footer offset 0 (R82, R117). -/
def State.rxChecksum (s : State) : Word := s.rxField (Config.hdrSize + s.rxPlen.toNat)

/-- The stored end magic, at footer offset 4 (R82, R117). -/
def State.rxEndMagic (s : State) : Word := s.rxField (Config.hdrSize + s.rxPlen.toNat + 4)

/-- `ValidateFooter` over the whole packet in rxbuf (R117): the sum rule of R112 and the end magic. -/
def State.footerValid (s : State) : Bool :=
  byteSum s.rxBody + s.rxChecksum == 0 && s.rxEndMagic == s.params.magicH2dEom

/-! ## Transmit framer -/

/-- The outbound header (R118, R120), stamped with sequence number `seq` and this step's now_ms. -/
def State.outHeader (s : State) (seq : Word) : List Byte :=
  s.bytesOf s.params.magicD2hSom ++ s.bytesOf seq ++ s.bytesOf s.txRequestId ++ s.bytesOf s.txSubDevice ++
  s.bytesOf s.txStatus ++ s.bytesOf s.txPayloadLen ++ s.bytesOf s.nowMs

/-- The outbound payload: txbuf[0..ARG3-1], as it stands at this step (R118, R74, R262). -/
def State.outPayload (s : State) : List Byte := s.txbuf.bytes 0 s.txPayloadLen.toNat

/-- The outbound footer of a packet with header and payload bytes `body` (R118, R120). -/
def State.outFooter (s : State) (body : List Byte) : List Byte :=
  s.bytesOf (checksum body) ++ s.bytesOf s.params.magicD2hEom

/-- TXBUILD's pseudocode (R118): increment TX_SENT, then stamp the new value (R119). -/
def State.buildPacket (s : State) : State :=
  if s.params.maxPayload < s.txPayloadLen.toNat then s.finish .range 0
  else
    let seq := s.txSent + 1
    let h := s.outHeader seq
    let p := s.outPayload
    let f := s.outFooter (h ++ p)
    ({ s with txSent := seq }.emit h |>.emit p |>.emit f).finish .ok seq

/-- TXWR8's pseudocode (R121). -/
def State.txWrite8 (s : State) : State :=
  if s.params.txbufSize < s.offset + 1 then s.finish .range 0
  else { s with txbuf := s.txbuf.write s.offset s.data8 }.finish .ok 0

/-- TXWR32's pseudocode (R122); an access past the end writes nothing. -/
def State.txWrite32 (s : State) : State :=
  if s.params.txbufSize < s.offset + 4 then s.finish .range 0
  else { s with txbuf := s.txbuf.write32 s.params.byteOrder s.offset s.data32 }.finish .ok 0

/-! ## The meanings -/

/-- TXBUILD (R118). -/
def execTxbuild (s : State) : Host.Outcome State Fault Refusal := .next (s.unlessHalted State.buildPacket)

/-- TXWR8 (R121). -/
def execTxwr8 (s : State) : Host.Outcome State Fault Refusal := .next (s.unlessHalted State.txWrite8)

/-- TXWR32 (R122). -/
def execTxwr32 (s : State) : Host.Outcome State Fault Refusal := .next (s.unlessHalted State.txWrite32)

end Sys2Proof.Machine
end

