-- ==== Sys2Proof/Machine/Control.lean ====
section
/-! DEFINITION. Control and status register access (spec/43_control.md): CSRRD (R200) and CSRWR (R201 to R203) over the CSR
map of spec/10_state.md R40. -/

namespace Sys2Proof.Machine

/-- `csr(n)`: the value R41 to R48 give for a CSR. -/
def State.csrRead (s : State) : Csr → Word
  | .ctrl => s.ctrlWord
  | .status => s.statusWord
  | .rxRemain => s.rxRemain
  | .rxPlen => s.rxPlen
  | .rxExpect => s.rxExpect
  | .txSent => s.txSent
  | .beaconCnt => s.beaconCnt
  | .hpSlotBaseLo i => (s.hpSlot i).base.extractLsb' 0 32
  | .hpSlotBaseHi i => (s.hpSlot i).base.extractLsb' 32 32
  | .hpSlotTag i => (s.hpSlot i).tag.bit.setWidth 32
  | .hpSlotRef i => (s.hpSlot i).ref
  | .hpWinLo i => (s.hpReg i).lo
  | .hpWinHi i => (s.hpReg i).hi
  | .sasSlotBase i => (s.sasSlot i).base
  | .sasSlotRef i => (s.sasSlot i).ref
  | .sasWin i => s.sasReg i

/-- The effect of a CSR write with value `v` (R202); `none` is a read-only CSR (R203). -/
def State.csrWrite (s : State) (c : Csr) (v : Word) : Option State :=
  match c with
  | .ctrl => some { s with connected := v.getLsbD 0 }
  | .rxExpect => some { s with rxExpect := v }
  | .txSent => some { s with txSent := v }
  | .beaconCnt => some { s with beaconCnt := v }
  | .status | .rxRemain | .rxPlen | .hpSlotBaseLo _ | .hpSlotBaseHi _ | .hpSlotTag _ | .hpSlotRef _ | .hpWinLo _
  | .hpWinHi _ | .sasSlotBase _ | .sasSlotRef _ | .sasWin _ => none

/-- CSRWR's pseudocode (R201) after the reserved-number and halt checks of R222. -/
def State.writeCsr (c : Csr) (s : State) : State :=
  match s.csrWrite c s.csrValue with
  | some t => t.finish .ok 0
  | none => s.finish .readOnly 0

/-! ## The meanings -/

/-- CSRRD (R200), read-only: allowed while HALTED = 1 (R230). A reserved number is ILLEGAL (R49). -/
def execCsrrd (n : BitVec 12) (s : State) : Host.Outcome State Fault Refusal :=
  .next (match csrOfNumber s.params n with
    | none => s.finish .illegal 0
    | some c => s.finish .ok (s.csrRead c))

/-- CSRWR (R201). A reserved number is ILLEGAL, and that check comes before the halt check (R222). -/
def execCsrwr (n : BitVec 12) (s : State) : Host.Outcome State Fault Refusal :=
  .next (match csrOfNumber s.params n with
    | none => s.finish .illegal 0
    | some c => s.unlessHalted (State.writeCsr c))

end Sys2Proof.Machine
end

