-- ==== Sys2Proof/Machine/Receive.lean ====
section
/-! DEFINITION. The receive state machine (spec/41_receive.md): the RX port's byte (R140 to R149) and the controller's
commands on the receive path, RXACK (R152), RXRD8 (R153) and RXRD32 (R154). -/

namespace Sys2Proof.Machine

/-- `pos` (R141): where the next byte lies in rxbuf. -/
def State.rxPos (s : State) : Nat :=
  match s.rxState with
  | .header => Config.hdrSize - s.rxRemain.toNat
  | .payload => Config.hdrSize + s.rxPlen.toNat - s.rxRemain.toNat
  | .footer => Config.hdrSize + s.rxPlen.toNat + Config.ftrSize - s.rxRemain.toNat

/-- The machine expects a whole header next (R150). -/
def State.awaitHeader (s : State) : State :=
  { s with rxState := .header, rxRemain := BitVec.ofNat 32 Config.hdrSize }

/-- The machine expects a whole footer next (R143, R144). -/
def State.awaitFooter (s : State) : State :=
  { s with rxState := .footer, rxRemain := BitVec.ofNat 32 Config.ftrSize }

/-- The machine expects a payload of RX_PLEN bytes next (R143). -/
def State.awaitPayload (s : State) : State := { s with rxState := .payload, rxRemain := s.rxPlen }

/-- `Drop()` (R146): resynchronise by whole header frames (R147), and change nothing else. -/
def State.dropPacket (s : State) : State := s.awaitHeader

/-- `UpdateExpect()` (R149). -/
def State.updateExpect (s : State) : State :=
  match s.params.rxSeqMode with
  | .adopt => { s with rxExpect := s.rxField 4 + 1 }
  | .increment => { s with rxExpect := s.rxExpect + 1 }

/-- `CompleteHeader()` (R143). -/
def State.completeHeader (s : State) : State :=
  if s.headerValid then
    let s := { s with rxPlen := s.rxField 20 }
    if s.rxPlen = 0 then s.awaitFooter else s.awaitPayload
  else s.dropPacket

/-- `CompletePayload()` (R144). -/
def State.completePayload (s : State) : State := s.awaitFooter

/-- `CompleteFooter()` (R145): a valid packet is yielded (R148); either way the machine goes back to HEADER. -/
def State.completeFooter (s : State) : State :=
  if s.footerValid then { s.updateExpect with pktReady := true }.awaitHeader else s.dropPacket

/-- The completion of the current state (R142). -/
def State.completeState (s : State) : State :=
  match s.rxState with
  | .header => s.completeHeader
  | .payload => s.completePayload
  | .footer => s.completeFooter

/-- The byte is stored and counted (R142, first two lines). -/
def State.storeRxByte (s : State) (b : Byte) : State :=
  { s with rxbuf := s.rxbuf.write s.rxPos b, rxRemain := s.rxRemain - 1 }

/-- RX_BYTE's pseudocode (R142), once the port takes the byte. -/
def State.takeRxByte (s : State) (b : Byte) : State :=
  let s := s.storeRxByte b
  if s.rxRemain = 0 then s.completeState else s

/-- RXACK's pseudocode (R152). -/
def State.ackPacket (s : State) : State :=
  if s.pktReady then { s with pktReady := false }.finish .ok 0 else s.finish .noPacket 0

/-- RXRD8's pseudocode (R153). -/
def State.rxRead8 (s : State) : State :=
  if s.params.bufSize < s.offset + 1 then s.finish .range 0
  else s.finish .ok ((s.rxbuf.read s.offset).setWidth 32)

/-- RXRD32's pseudocode (R154). -/
def State.rxRead32 (s : State) : State :=
  if s.params.bufSize < s.offset + 4 then s.finish .range 0
  else s.finish .ok (s.rxField s.offset)

/-! ## The meanings -/

/-- RX_BYTE (R142). A disabled port takes no byte: nothing changes (R140). -/
def execRxByte (b : Byte) (s : State) : Host.Outcome State Fault Refusal :=
  .next (if s.rxEnabled then s.takeRxByte b else s)

/-- RXACK (R152). -/
def execRxack (s : State) : Host.Outcome State Fault Refusal := .next (s.unlessHalted State.ackPacket)

/-- RXRD8 (R153), read-only: allowed while HALTED = 1 (R230). -/
def execRxrd8 (s : State) : Host.Outcome State Fault Refusal := .next s.rxRead8

/-- RXRD32 (R154), read-only: allowed while HALTED = 1 (R230). -/
def execRxrd32 (s : State) : Host.Outcome State Fault Refusal := .next s.rxRead32

end Sys2Proof.Machine
end

