-- ==== Sys2Proof/Machine/Window.lean ====
section
/-! DEFINITION. The window pool manager and its window registers (spec/42_window.md): the register images (spec/10_state.md
R32, R33), Acquire (R171 to R175, R177), Release (R176), their four commands (R179 to R182), and the translation a
programmed window gives the controller's accesses (R186, spec/70_reset_and_hazards.md R257, R258). -/

namespace Sys2Proof.Machine

/-! ## Addresses (R11, R171) -/

/-- `align_P(a)` for window size `w`: a - (a mod w). -/
def alignTo {k : Nat} (w : Nat) (a : BitVec k) : BitVec k := BitVec.ofNat k (a.toNat - a.toNat % w)

/-- `off_P(a)` for window size `w`: a mod w. -/
def offIn {k : Nat} (w : Nat) (a : BitVec k) : Nat := a.toNat % w

/-- `Ptr(P, i, off) = LB_P + i * W_P + off`, a 32-bit local address (R175). -/
def localPtr (lb : Word) (w i off : Nat) : Word := BitVec.ofNat 32 (lb.toNat + i * w + off)

/-! ## Register images (R32, R33) and programming (R178) -/

/-- The HP_WIN_LO image of base `b` and tag `t`: BASE[31:26], 24 zero bits, TAG, EN = 1 (R32). -/
def hpLoImage (b : Word64) (t : Tag) : Word := b.extractLsb' 26 6 ++ 0#24 ++ t.bit ++ 1#1

/-- The HP_WIN_HI image of base `b`: BASE[63:32] (R32). -/
def hpHiImage (b : Word64) : Word := b.extractLsb' 32 32

/-- `programmed_HP(b, t)` (R32). -/
def programmedHp (b : Word64) (t : Tag) : HpWin := ⟨hpLoImage b t, hpHiImage b⟩

/-- `programmed_SAS(b)`: BASE[31:20], 19 zero bits, EN = 1 (R33). -/
def programmedSas (b : Word) : Word := b.extractLsb' 20 12 ++ 0#19 ++ 1#1

/-- The register writes of `Program(HP, i, b, t)`, in R178's order: HI first, so EN is never set over half a base. -/
def programHpWrites (i : Nat) (b : Word64) (t : Tag) : List (WinReg × Word) :=
  [(.hpHi i, hpHiImage b), (.hpLo i, hpLoImage b t)]

/-- The register writes of `Clear(HP, i)`, in R178's order: LO, and with it EN, first. -/
def clearHpWrites (i : Nat) : List (WinReg × Word) := [(.hpLo i, 0), (.hpHi i, 0)]

/-- The register write of `Program(SAS, i, b)` (R178). -/
def programSasWrites (i : Nat) (b : Word) : List (WinReg × Word) := [(.sas i, programmedSas b)]

/-- The register write of `Clear(SAS, i)` (R178). -/
def clearSasWrites (i : Nat) : List (WinReg × Word) := [(.sas i, 0)]

/-- The same writes as the platform's bus sees them, at the OPEN addresses WINREG_ADDR (R233). -/
def busWrites (ws : List (WinReg × Word)) : List (Nat × Word) := ws.map fun x => (Config.winregAddr x.1, x.2)

/-! ## Acquire (R171) -/

/-- The reference count a slot cannot pass: 2^32 - 1 (R177). -/
def maxRef : Word := 0xFFFFFFFF

/-- A live HP slot that holds base `b` and tag `t` (R172). -/
def HpSlot.holds (x : HpSlot) (b : Word64) (t : Tag) : Bool := x.ref != 0 && x.base == b && x.tag == t

/-- A live SAS slot that holds base `b` (R172; the tag of a SAS slot is MEM in every comparison, R170). -/
def SasSlot.holds (x : SasSlot) (b : Word) : Bool := x.ref != 0 && x.base == b

/-- What the two scans of R171 settle on. -/
inductive Choice where
  /-- A live slot matches: reuse it (R172). -/
  | reuse (i : Nat)
  /-- None matches and this is the lowest free slot: allocate it (R173). -/
  | allocate (i : Nat)
  /-- None matches and none is free (R174). -/
  | exhausted
  deriving DecidableEq, Repr

/-- The scans of R171 over slots 0 to n - 1, in ascending order: first a match, then the lowest free slot. -/
def scanPool (n : Nat) (holds free : Nat → Bool) : Choice :=
  match (List.range n).find? holds with
  | some i => .reuse i
  | none =>
    match (List.range n).find? free with
    | some i => .allocate i
    | none => .exhausted

/-- What `Acquire(HP, a, t)` does once its scans have settled on a choice (R172 to R175, R177). -/
def State.takeHp (s : State) (a : Word64) (t : Tag) : Choice → State
  | .reuse i =>
    if (s.hpSlot i).ref = maxRef then s.finish .refOverflow 0
    else
      (s.setHpSlot i { s.hpSlot i with ref := (s.hpSlot i).ref + 1 }).finish .ok
        (localPtr s.params.localBaseHp s.params.wHp i (offIn s.params.wHp a))
  | .allocate i =>
    ((s.writeWins (programHpWrites i (alignTo s.params.wHp a) t)).setHpSlot i ⟨alignTo s.params.wHp a, t, 1⟩).finish .ok
      (localPtr s.params.localBaseHp s.params.wHp i (offIn s.params.wHp a))
  | .exhausted => s.finish .poolExhausted 0

/-- `Acquire(HP, a, t)` (R171). -/
def State.acquireHp (s : State) (a : Word64) (t : Tag) : State :=
  s.takeHp a t (scanPool s.params.nHp (fun i => (s.hpSlot i).holds (alignTo s.params.wHp a) t)
    (fun i => (s.hpSlot i).ref == 0))

/-- What `Acquire(SAS, a, MEM)` does once its scans have settled on a choice (R172 to R175, R177). -/
def State.takeSas (s : State) (a : Word) : Choice → State
  | .reuse i =>
    if (s.sasSlot i).ref = maxRef then s.finish .refOverflow 0
    else
      (s.setSasSlot i { s.sasSlot i with ref := (s.sasSlot i).ref + 1 }).finish .ok
        (localPtr s.params.localBaseSas s.params.wSas i (offIn s.params.wSas a))
  | .allocate i =>
    ((s.writeWins (programSasWrites i (alignTo s.params.wSas a))).setSasSlot i ⟨alignTo s.params.wSas a, 1⟩).finish .ok
      (localPtr s.params.localBaseSas s.params.wSas i (offIn s.params.wSas a))
  | .exhausted => s.finish .poolExhausted 0

/-- `Acquire(SAS, a, MEM)` (R171). -/
def State.acquireSas (s : State) (a : Word) : State :=
  s.takeSas a (scanPool s.params.nSas (fun i => (s.sasSlot i).holds (alignTo s.params.wSas a))
    (fun i => (s.sasSlot i).ref == 0))

/-! ## Release (R176) -/

/-- The slot whose local range `[LB + i * w, LB + (i + 1) * w)` holds pointer `p` (R68, R176); `none` is out of range. -/
def slotOfPtr (lb : Word) (w n : Nat) (p : Word) : Option Nat :=
  if lb.toNat ≤ p.toNat ∧ (p.toNat - lb.toNat) / w < n then some ((p.toNat - lb.toNat) / w) else none

/-- The pointer's offset inside its slot: `rel` of R176. -/
def offsetInSlot (lb : Word) (w : Nat) (p : Word) : Nat := (p.toNat - lb.toNat) % w

/-- The pointer checks of R176; `none` is BAD_POINTER. -/
def releaseSlot (mode : ReleaseAlign) (lb : Word) (w n : Nat) (p : Word) : Option Nat :=
  match mode with
  | .anywhere => slotOfPtr lb w n p
  | .base => if offsetInSlot lb w p = 0 then slotOfPtr lb w n p else none

/-- `Release(HP, p)` (R176). -/
def State.releaseHp (s : State) (p : Word) : State :=
  match releaseSlot s.params.releaseAlign s.params.localBaseHp s.params.wHp s.params.nHp p with
  | none => s.finish .badPointer 0
  | some i =>
    if (s.hpSlot i).ref = 0 then s.finish .notAcquired 0
    else if (s.hpSlot i).ref = 1 then ((s.writeWins (clearHpWrites i)).setHpSlot i HpSlot.free).finish .ok 0
    else (s.setHpSlot i { s.hpSlot i with ref := (s.hpSlot i).ref - 1 }).finish .ok 0

/-- `Release(SAS, p)` (R176). -/
def State.releaseSas (s : State) (p : Word) : State :=
  match releaseSlot s.params.releaseAlign s.params.localBaseSas s.params.wSas s.params.nSas p with
  | none => s.finish .badPointer 0
  | some i =>
    if (s.sasSlot i).ref = 0 then s.finish .notAcquired 0
    else if (s.sasSlot i).ref = 1 then ((s.writeWins (clearSasWrites i)).setSasSlot i SasSlot.free).finish .ok 0
    else (s.setSasSlot i { s.sasSlot i with ref := (s.sasSlot i).ref - 1 }).finish .ok 0

/-- WACQ.SAS's pseudocode (R180): an address beyond 32 bits is RANGE, not truncated. -/
def State.acquireSasChecked (s : State) : State :=
  if s.arg1 ≠ 0 then s.finish .range 0 else s.acquireSas s.sasAddr

/-! ## Translation (R186) -/

/-- EN of a window register: bit 0 (R32, R33). -/
def winEnabled (lo : Word) : Bool := lo.getLsbD 0

/-- The base a HP window register set holds: BASE[63:32] and BASE[31:26], the rest 0 (R32). -/
def HpWin.base (w : HpWin) : Word64 := w.hi ++ w.lo.extractLsb' 26 6 ++ 0#26

/-- The tag a HP window register set holds: bit 1 of LO (R32). -/
def HpWin.tag (w : HpWin) : Tag := if w.lo.getLsbD 1 then .reg else .mem

/-- The base a SAS window register holds: BASE[31:20], the rest 0 (R33). -/
def sasWinBase (w : Word) : Word := w.extractLsb' 20 12 ++ 0#20

/-- What the platform maps a slot's local range onto: the tag and base of its window registers; `none` while they are
cleared (R186). A SAS base is an address of the 32-bit secondary space, here widened to 64 bits. -/
def State.mappedHp (s : State) (i : Nat) : Option (Tag × Word64) :=
  if winEnabled (s.hpReg i).lo then some ((s.hpReg i).tag, (s.hpReg i).base) else none

/-- The SAS counterpart of `mappedHp`; its tag is MEM (R170). -/
def State.mappedSas (s : State) (i : Nat) : Option (Tag × Word64) :=
  if winEnabled (s.sasReg i) then some (.mem, (sasWinBase (s.sasReg i)).setWidth 64) else none

/-- The checks of R257 and R258 on an access whose pointer lies `x` bytes into a slot of window size `w`, mapped as
`view`: a local address `LB + i * W + x` reaches `base + x` (R186). -/
def checkAccess (a : Access) (w x : Nat) (view : Option (Tag × Word64)) : Except Fault ExtAccess :=
  match view with
  | none => .error .clearedWindow
  | some (t, b) =>
    if w < x + a.len then .error .windowCrossing
    else if b + BitVec.ofNat 64 x ≠ a.target then .error .reprogrammedWindow
    else .ok ⟨a.pool, t, b + BitVec.ofNat 64 x, a.len⟩

/-- Where the platform takes the controller's access (R186), or the controller fault it is (R257, R258). -/
def State.translate (s : State) (a : Access) : Except Fault ExtAccess :=
  match a.pool with
  | .hp =>
    match slotOfPtr s.params.localBaseHp s.params.wHp s.params.nHp a.ptr with
    | none => .error .outsidePool
    | some i => checkAccess a s.params.wHp (offsetInSlot s.params.localBaseHp s.params.wHp a.ptr) (s.mappedHp i)
  | .sas =>
    match slotOfPtr s.params.localBaseSas s.params.wSas s.params.nSas a.ptr with
    | none => .error .outsidePool
    | some i => checkAccess a s.params.wSas (offsetInSlot s.params.localBaseSas s.params.wSas a.ptr) (s.mappedSas i)

/-- The controller accesses memory through a window pointer: the PFE's state stays, the external access is observed, and a
controller fault stops the run (R186, R257, R258). -/
def State.windowAccess (s : State) (a : Access) : Host.Outcome State Fault Refusal :=
  match s.translate a with
  | .error f => .fault f
  | .ok x => .next { s with extOut := s.extOut ++ [x] }

/-! ## The meanings -/

/-- WACQ.HP (R179). -/
def execWacqHp (tag : Tag) (s : State) : Host.Outcome State Fault Refusal :=
  .next (s.unlessHalted fun s => s.acquireHp s.hpAddr tag)

/-- WACQ.SAS (R180). -/
def execWacqSas (s : State) : Host.Outcome State Fault Refusal := .next (s.unlessHalted State.acquireSasChecked)

/-- WREL.HP (R181). -/
def execWrelHp (s : State) : Host.Outcome State Fault Refusal :=
  .next (s.unlessHalted fun s => s.releaseHp s.ptr)

/-- WREL.SAS (R182). -/
def execWrelSas (s : State) : Host.Outcome State Fault Refusal :=
  .next (s.unlessHalted fun s => s.releaseSas s.ptr)

end Sys2Proof.Machine
end

