-- ==== Sys2Proof/Machine/Dispatch.lean ====
section
/-! DEFINITION. One arm per instruction; each calls its own meaning. -/

namespace Sys2Proof.Machine

/-- What an instruction does to the state. -/
def exec (i : Instr) (s : State) : Host.Outcome State Fault Refusal :=
  match i with
  | .wacqHp tag => Sys2Proof.Machine.execWacqHp tag s
  | .wacqSas => Sys2Proof.Machine.execWacqSas s
  | .wrelHp => Sys2Proof.Machine.execWrelHp s
  | .wrelSas => Sys2Proof.Machine.execWrelSas s
  | .txbuild => Sys2Proof.Machine.execTxbuild s
  | .txwr8 => Sys2Proof.Machine.execTxwr8 s
  | .txwr32 => Sys2Proof.Machine.execTxwr32 s
  | .rxack => Sys2Proof.Machine.execRxack s
  | .rxrd8 => Sys2Proof.Machine.execRxrd8 s
  | .rxrd32 => Sys2Proof.Machine.execRxrd32 s
  | .csrrd n => Sys2Proof.Machine.execCsrrd n s
  | .csrwr n => Sys2Proof.Machine.execCsrwr n s
  | .rxByte b => Sys2Proof.Machine.execRxByte b s

end Sys2Proof.Machine
end

