-- ==== Sys2Proof/Machine/Turns.lean ====
section
/-! DEFINITION. What one move of an agent does (spec/00_scope.md R6, spec/20_memory.md R66): the two input ports hand their
word to the decoder and the instruction to `exec`; the environment's events have no word (spec/30_encoding.md R95). -/

namespace Sys2Proof.Machine

/-- A command (R86): the port latches it, the decoder reads CMD, and an illegal word finishes with ILLEGAL (R93, R222). -/
def State.runCommand (s : State) (c : Command) : Host.Outcome State Fault Refusal :=
  match decode (.command c.cmd) with
  | .ok i => exec i (s.present c)
  | .error _ => .next ((s.present c).finish .illegal 0)

/-- The RX producer offers its next byte (R140): every byte decodes to RX_BYTE (R94). A disabled port takes nothing and the
byte stays with the transport. -/
def State.offerRx (s : State) : Host.Outcome State Fault Refusal :=
  match s.rxLine with
  | [] => .next s
  | b :: rest =>
    if s.rxEnabled then exec (.rxByte b) { s with rxLine := rest } else .next s

/-- One move. -/
def State.runTurn (s : State) : Turn → Host.Outcome State Fault Refusal
  | .rx => s.offerRx
  | .command c => s.runCommand c
  | .windowAccess a => s.windowAccess a
  | .txTake => .next s.takeTx
  | .transportFault => .next s.transportFault
  | .reset => .next s.applyReset

/-- Place a command word, with the operands and time the ports already carry, as the next move. -/
def State.withCommandNext (s : State) (w : Word) : State :=
  { s with schedule := .command ⟨w, s.arg0, s.arg1, s.arg2, s.arg3, s.nowMs⟩ :: s.schedule }

/-- Place a byte at the head of the RX line and the RX producer's move next. -/
def State.withRxNext (s : State) (b : Byte) : State :=
  { s with rxLine := b :: s.rxLine, schedule := .rx :: s.schedule }

end Sys2Proof.Machine
end

