-- ==== Sys2Proof/Machine/Step.lean ====
section
/-! DEFINITION. One step (spec/20_memory.md R66, spec/60_exceptions.md R228): the next move of the schedule, whole. With no
move to come the machine idles. -/

namespace Sys2Proof.Machine

/-- The machine's step: it takes the next move off the schedule and runs it. -/
def step (s : State) : Host.Outcome State Fault Refusal :=
  match s.schedule with
  | [] => .next s
  | t :: rest => { s with schedule := rest }.runTurn t

/-- The PFE fetches nothing (R72): its next instruction is what its next move brings. A row of at most 8 bits is the RX
port's byte; every other row is a command word (notes/assumptions/2.md). -/
def State.withFetchWord (s : State) (nbits w : Nat) : State :=
  if nbits ≤ 8 then s.withRxNext (BitVec.ofNat 8 w) else s.withCommandNext (BitVec.ofNat 32 w)

end Sys2Proof.Machine
end

