-- ==== Sys2Proof/Machine/Assembly.lean ====
section
/-! DEFINITION. The spec's notation for what reaches the two ports and the environment: the lines of spec/30_encoding.md R96,
the pseudo-instructions of R97 and the connect-response payload of R98. No step reads it; it turns a listing into the moves
and the bytes on offer that a run starts from (notes/assumptions/2.md). -/

namespace Sys2Proof.Machine

/-- A line of R96's table. A CSR is given by its number (R40). -/
inductive AsmLine where
  | wacqHp (tag : Tag) (addr : Word64)
  | wacqSas (addr : Word)
  | wrelHp (ptr : Word)
  | wrelSas (ptr : Word)
  | txbuild (status subDevice requestId len : Word)
  | txwr8 (offset value : Word)
  | txwr32 (offset value : Word)
  | rxack
  | rxrd8 (offset : Word)
  | rxrd32 (offset : Word)
  | csrrd (n : BitVec 12)
  | csrwr (n : BitVec 12) (value : Word)
  /-- RX port events, one byte each, in order. -/
  | rx (bytes : List Byte)
  /-- Sets the now_ms draw of the lines that follow. -/
  | now (ms : Word)
  | fault
  | reset
  deriving DecidableEq, Repr

/-- The command word and the ARG values of a line, 0 where R96 lists none; `none` is a line that is no command. -/
def AsmLine.command (ms : Word) : AsmLine → Option Command
  | .wacqHp .mem a => some ⟨0x00000001, a.extractLsb' 0 32, a.extractLsb' 32 32, 0, 0, ms⟩
  | .wacqHp .reg a => some ⟨0x00000101, a.extractLsb' 0 32, a.extractLsb' 32 32, 0, 0, ms⟩
  | .wacqSas a => some ⟨0x00000002, a, 0, 0, 0, ms⟩
  | .wrelHp p => some ⟨0x00000003, p, 0, 0, 0, ms⟩
  | .wrelSas p => some ⟨0x00000004, p, 0, 0, 0, ms⟩
  | .txbuild s d r l => some ⟨0x00000005, s, d, r, l, ms⟩
  | .txwr8 o v => some ⟨0x00000006, o, v, 0, 0, ms⟩
  | .txwr32 o v => some ⟨0x00000007, o, v, 0, 0, ms⟩
  | .rxack => some ⟨0x00000008, 0, 0, 0, 0, ms⟩
  | .rxrd8 o => some ⟨0x00000009, o, 0, 0, 0, ms⟩
  | .rxrd32 o => some ⟨0x0000000A, o, 0, 0, 0, ms⟩
  | .csrrd n => some ⟨0x0000000B ||| (n.setWidth 32 <<< 12), 0, 0, 0, 0, ms⟩
  | .csrwr n v => some ⟨0x0000000C ||| (n.setWidth 32 <<< 12), v, 0, 0, 0, ms⟩
  | .rx _ | .now _ | .fault | .reset => none

/-- The moves of a line, and the bytes it puts on the RX line. -/
def AsmLine.moves (ms : Word) : AsmLine → List Turn × List Byte
  | .rx bs => (List.replicate bs.length .rx, bs)
  | .now _ => ([], [])
  | .fault => ([.transportFault], [])
  | .reset => ([.reset], [])
  | l => (((l.command ms).map Turn.command).toList, [])

/-- The time draw after a line. -/
def AsmLine.nowAfter (ms : Word) : AsmLine → Word
  | .now t => t
  | _ => ms

/-- A listing: its moves in order, and the bytes its `rx` lines offer. -/
def assemble (ms : Word) : List AsmLine → List Turn × List Byte
  | [] => ([], [])
  | l :: ls =>
    let here := l.moves ms
    let later := assemble (l.nowAfter ms) ls
    (here.1 ++ later.1, here.2 ++ later.2)

/-- A machine that is about to run a listing; before the first `now` the draw is 0 (spec/95_test_vectors.md). -/
def State.withListing (s : State) (ls : List AsmLine) : State :=
  { s with schedule := (assemble 0 ls).1, rxLine := (assemble 0 ls).2 }

/-! ## Pseudo-instructions (R97) -/

/-- `setconn` = `csrwr CTRL, 1`. -/
def setconn : List AsmLine := [.csrwr 0x000 1]

/-- `clrconn` = `csrwr CTRL, 0`. -/
def clrconn : List AsmLine := [.csrwr 0x000 0]

/-- `txseqclr` = `csrwr TX_SENT, 0`. -/
def txseqclr : List AsmLine := [.csrwr 0x005 0]

/-- `txpay O, b0, b1, ...`: one `txwr8` per byte. -/
def txpay (o : Word) : List Byte → List AsmLine
  | [] => []
  | b :: bs => .txwr8 o (b.setWidth 32) :: txpay (o + 1) bs

/-- The bytes of the inbound packet of `rxpkt S, R, D, ST, T, [p...]`. -/
def inboundPacket (p : Params) (seq req sub status ts : Word) (payload : List Byte) : List Byte :=
  let field := bytes32 p.byteOrder
  let body := field p.magicH2dSom ++ field seq ++ field req ++ field sub ++ field status ++
    field (BitVec.ofNat 32 payload.length) ++ field ts ++ payload
  body ++ field (checksum body) ++ field p.magicH2dEom

/-- `rxpkt S, R, D, ST, T, [p...]`. -/
def rxpkt (p : Params) (seq req sub status ts : Word) (payload : List Byte) : List AsmLine :=
  [.rx (inboundPacket p seq req sub status ts payload)]

/-! ## The connect response (R98) -/

/-- The controller's writes of the connect-response payload: five 32-bit fields from txbuf offset 0. -/
def connectResponse (maxPacket scratchSize scratchAddr sockets subDevices : Word) : List AsmLine :=
  [.txwr32 0 maxPacket, .txwr32 4 scratchSize, .txwr32 8 scratchAddr, .txwr32 12 sockets, .txwr32 16 subDevices]

end Sys2Proof.Machine
end

