-- ==== Sys2Proof/WellFormed.lean ====
section
/-! DEFINITION. Which instructions are well-formed. The types of spec/30_encoding.md's fields leave one check: a CSR number
must name a CSR of spec/10_state.md R40 (a reserved number decodes in format CC and is ILLEGAL when it is executed: R49,
R93). -/

namespace Sys2Proof

/-- The number is one of R40's table, in a machine with parameters `p` (its banks have N_HP and N_SAS numbers). -/
def csrNumberNamed (p : Params) (n : BitVec 12) : Bool := (csrOfNumber p n).isSome

/-- A well-formed instruction: its CSR number, if it has one, is not reserved (R49). -/
def Instr.wf (p : Params) : Instr → Bool
  | .csrrd n => csrNumberNamed p n
  | .csrwr n => csrNumberNamed p n
  | .wacqHp _ | .wacqSas | .wrelHp | .wrelSas | .txbuild | .txwr8 | .txwr32 | .rxack | .rxrd8 | .rxrd32
  | .rxByte _ => true

end Sys2Proof
end

