-- ==== Sys2Proof/Safety.lean ====
section
/-! DEFINITION. The terms the claims are stated in: the spec's invariants, the reset state's values, the packet checks
written as arithmetic on offsets, and what a safe step is. -/

namespace Sys2Proof

/-! ## Kinds of instructions and CSR numbers -/

/-- The commands that stay allowed while HALTED = 1 (R230). -/
def Instr.readOnly : Instr → Bool
  | .rxrd8 | .rxrd32 | .csrrd _ => true
  | .wacqHp _ | .wacqSas | .wrelHp | .wrelSas | .txbuild | .txwr8 | .txwr32 | .rxack | .csrwr _ | .rxByte _ => false

/-- The commands of the command port: every instruction but the RX port's beat (R86, R94). -/
def Instr.isCommand : Instr → Bool
  | .rxByte _ => false
  | .wacqHp _ | .wacqSas | .wrelHp | .wrelSas | .txbuild | .txwr8 | .txwr32 | .rxack | .rxrd8 | .rxrd32
  | .csrrd _ | .csrwr _ => true

/-- A CSR number of R40's table, as its ranges, in a machine with parameters `p`. -/
def csrListed (p : Params) (n : Nat) : Prop :=
  n ≤ 0x006 ∨ (0x100 ≤ n ∧ n < 0x100 + p.nHp) ∨ (0x120 ≤ n ∧ n < 0x120 + p.nHp) ∨
  (0x140 ≤ n ∧ n < 0x140 + p.nHp) ∨ (0x160 ≤ n ∧ n < 0x160 + p.nHp) ∨ (0x180 ≤ n ∧ n < 0x180 + p.nHp) ∨
  (0x1A0 ≤ n ∧ n < 0x1A0 + p.nHp) ∨ (0x200 ≤ n ∧ n < 0x200 + p.nSas) ∨ (0x220 ≤ n ∧ n < 0x220 + p.nSas) ∨
  (0x240 ≤ n ∧ n < 0x240 + p.nSas)

namespace Machine

/-! ## Invariants -/

/-- The byte count that completes the current receive state (R27). -/
def State.rxTarget (s : State) : Nat :=
  match s.rxState with
  | .header => 28
  | .payload => s.rxPlen.toNat
  | .footer => 8

/-- The receive machine between steps: R27 (1 ≤ RX_REMAIN ≤ the target), R28 (RX_PLEN ≤ MAX_PAYLOAD), and a packet is held
only in HEADER with a whole header to come (R145). -/
structure RxInv (s : State) : Prop where
  low : 1 ≤ s.rxRemain.toNat
  high : s.rxRemain.toNat ≤ s.rxTarget
  plen : s.rxPlen.toNat ≤ s.params.maxPayload
  held : s.pktReady = true → s.rxState = .header ∧ s.rxRemain = 28

/-- Both buffers are in canonical form (R30: BUF_SIZE and TXBUF_SIZE bytes). -/
structure BufferInv (s : State) : Prop where
  rx : Memory.wf s.params.bufSize s.rxbuf
  tx : Memory.wf s.params.txbufSize s.txbuf

/-- R34: a live slot holds an aligned base and its registers are programmed with it; a free slot holds the sentinel and
tag MEM and its registers are cleared. Each pool has as many slots and registers as its parameter says (R31 to R33). -/
structure WindowInv (s : State) : Prop where
  hpCount : s.hpSlots.length = s.params.nHp ∧ s.hpWin.length = s.params.nHp
  sasCount : s.sasSlots.length = s.params.nSas ∧ s.sasWin.length = s.params.nSas
  hpLive : ∀ i < s.params.nHp, (s.hpSlot i).ref ≠ 0 →
    (s.hpSlot i).base.toNat % s.params.wHp = 0 ∧ s.hpReg i = programmedHp (s.hpSlot i).base (s.hpSlot i).tag
  hpFree : ∀ i < s.params.nHp, (s.hpSlot i).ref = 0 →
    (s.hpSlot i).base = 0xFFFFFFFFFFFFFFFF ∧ (s.hpSlot i).tag = .mem ∧ s.hpReg i = ⟨0, 0⟩
  sasLive : ∀ i < s.params.nSas, (s.sasSlot i).ref ≠ 0 →
    (s.sasSlot i).base.toNat % s.params.wSas = 0 ∧ s.sasReg i = programmedSas (s.sasSlot i).base
  sasFree : ∀ i < s.params.nSas, (s.sasSlot i).ref = 0 → (s.sasSlot i).base = 0xFFFFFFFF ∧ s.sasReg i = 0

/-- R35: at most one live HP slot holds a given base and tag, and at most one live SAS slot a given base. -/
structure UniqueInv (s : State) : Prop where
  hp : ∀ i < s.params.nHp, ∀ j < s.params.nHp, (s.hpSlot i).ref ≠ 0 → (s.hpSlot j).ref ≠ 0 →
    (s.hpSlot i).base = (s.hpSlot j).base → (s.hpSlot i).tag = (s.hpSlot j).tag → i = j
  sas : ∀ i < s.params.nSas, ∀ j < s.params.nSas, (s.sasSlot i).ref ≠ 0 → (s.sasSlot j).ref ≠ 0 →
    (s.sasSlot i).base = (s.sasSlot j).base → i = j

/-- The five header checks of R114, on the 28 header bytes in rxbuf; c4 is skipped while CONNECTED = 0 (R115). -/
structure HeaderChecks (s : State) : Prop where
  magic : s.rxField 0 = s.params.magicH2dSom
  plen : (s.rxField 20).toNat ≤ s.params.maxPayload
  request : s.params.reqIdMin.toNat ≤ (s.rxField 8).toNat ∧ (s.rxField 8).toNat ≤ s.params.reqIdMax.toNat
  seq : s.connected = true → s.rxField 4 = s.rxExpect
  subDevice : (s.rxField 12).toNat < s.params.nSubdev

/-- The two footer checks of R117, for a packet of RX_PLEN payload bytes in rxbuf; the sum rule is R112's. -/
structure FooterChecks (s : State) : Prop where
  sum : ((((s.rxbuf.bytes 0 (28 + s.rxPlen.toNat)).map BitVec.toNat).sum +
    (s.rxField (28 + s.rxPlen.toNat)).toNat) % 2 ^ 32) = 0
  endMagic : s.rxField (32 + s.rxPlen.toNat) = s.params.magicH2dEom

/-- What stays true of an accepted header while its packet is received and held: the checks of R114 that do not read the
connection state, with RX_PLEN latched from it (R28, R143). -/
structure HeaderAdmitted (s : State) : Prop where
  magic : s.rxField 0 = s.params.magicH2dSom
  plen : s.rxField 20 = s.rxPlen
  request : s.params.reqIdMin.toNat ≤ (s.rxField 8).toNat ∧ (s.rxField 8).toNat ≤ s.params.reqIdMax.toNat
  subDevice : (s.rxField 12).toNat < s.params.nSubdev

/-- Past HEADER the header in rxbuf is an accepted one, and a held packet (R148) passes its footer checks too. -/
structure HeldInv (s : State) : Prop where
  started : s.rxState ≠ .header → HeaderAdmitted s
  held : s.pktReady = true → HeaderAdmitted s ∧ FooterChecks s

/-- Every invariant of the model; `params` are R7's constraints, `rstat` is R220's last row, and the TX consumer never takes
more than was emitted (R59). -/
structure Inv (s : State) : Prop where
  params : s.params.wf
  rx : RxInv s
  buffers : BufferInv s
  windows : WindowInv s
  unique : UniqueInv s
  packet : HeldInv s
  rstat : s.rstat.toNat ≤ 9
  tx : s.txTaken ≤ s.txout.length

/-! ## Reset -/

/-- Every element of R50 has its reset value. -/
structure AtReset (s : State) : Prop where
  connected : s.connected = false
  txSent : s.txSent = 0
  rxExpect : s.rxExpect = 1
  beaconCnt : s.beaconCnt = 0
  halted : s.halted = false
  rxState : s.rxState = .header
  rxRemain : s.rxRemain.toNat = 28
  rxPlen : s.rxPlen = 0
  pktReady : s.pktReady = false
  rxbuf : ∀ a, s.rxbuf.read a = 0
  txbuf : ∀ a, s.txbuf.read a = 0
  hpSlots : s.hpSlots.length = s.params.nHp ∧ ∀ x ∈ s.hpSlots, x = ⟨0xFFFFFFFFFFFFFFFF, .mem, 0⟩
  sasSlots : s.sasSlots.length = s.params.nSas ∧ ∀ x ∈ s.sasSlots, x = ⟨0xFFFFFFFF, 0⟩
  hpWin : s.hpWin.length = s.params.nHp ∧ ∀ x ∈ s.hpWin, x = ⟨0, 0⟩
  sasWin : s.sasWin.length = s.params.nSas ∧ ∀ x ∈ s.sasWin, x = 0
  ports : s.cmd = 0 ∧ s.arg0 = 0 ∧ s.arg1 = 0 ∧ s.arg2 = 0 ∧ s.arg3 = 0 ∧ s.result = 0 ∧ s.rstat = 0

/-! ## Packets as byte sequences -/

/-- The weight of byte `k` of a 32-bit field, byte 0 at the lowest offset, in a byte order (R61, R62). -/
def byteWeight : ByteOrder → Nat → Nat
  | .little, k => 2 ^ (8 * k)
  | .big, k => 2 ^ (8 * (3 - k))

/-- The 32-bit field at offset `o` of a packet (R81, R82), in the byte order `e` (R61). -/
def packetField (e : ByteOrder) (pkt : List Byte) (o : Nat) : Word :=
  match e with
  | .little => pkt.getD (o + 3) 0 ++ pkt.getD (o + 2) 0 ++ pkt.getD (o + 1) 0 ++ pkt.getD o 0
  | .big => pkt.getD o 0 ++ pkt.getD (o + 1) 0 ++ pkt.getD (o + 2) 0 ++ pkt.getD (o + 3) 0

/-- The payload length a packet's header gives (R81, R85). -/
def packetPlen (e : ByteOrder) (pkt : List Byte) : Nat := (packetField e pkt 20).toNat

/-- A packet of the wire format of R80 to R82 under parameters `p`, with the magic pair `som`, `eom` and a valid checksum
(R112). -/
structure WellFramed (p : Params) (som eom : Word) (pkt : List Byte) : Prop where
  length : pkt.length = 36 + packetPlen p.byteOrder pkt
  fits : packetPlen p.byteOrder pkt ≤ p.maxPayload
  startMagic : packetField p.byteOrder pkt 0 = som
  sum : (((pkt.take (28 + packetPlen p.byteOrder pkt)).map BitVec.toNat).sum +
    (packetField p.byteOrder pkt (28 + packetPlen p.byteOrder pkt)).toNat) % 2 ^ 32 = 0
  endMagic : packetField p.byteOrder pkt (32 + packetPlen p.byteOrder pkt) = eom

/-- The header of a packet passes a receiver's checks c3, c4 and c5 of R114. -/
structure Admissible (s : State) (pkt : List Byte) : Prop where
  request : s.params.reqIdMin.toNat ≤ (packetField s.params.byteOrder pkt 8).toNat ∧
    (packetField s.params.byteOrder pkt 8).toNat ≤ s.params.reqIdMax.toNat
  seq : s.connected = true → packetField s.params.byteOrder pkt 4 = s.rxExpect
  subDevice : (packetField s.params.byteOrder pkt 12).toNat < s.params.nSubdev

/-- RX_EXPECT after a packet with sequence number `seq` is accepted (R149). -/
def expectAfter (s : State) (seq : Word) : Word :=
  match s.params.rxSeqMode with
  | .adopt => seq + 1
  | .increment => s.rxExpect + 1

/-- The receiver is between packets and its port takes bytes (R140, R150). -/
structure Listening (s : State) : Prop where
  state : s.rxState = .header
  remain : s.rxRemain = 28
  running : s.halted = false
  free : s.pktReady = false

/-! ## Windows -/

/-- Slot `i` of the HP pool is live and holds base `b` (as a number) and tag `t` (R172). -/
def State.holdsHp (s : State) (b : Nat) (t : Tag) (i : Nat) : Prop :=
  (s.hpSlot i).ref ≠ 0 ∧ (s.hpSlot i).base.toNat = b ∧ (s.hpSlot i).tag = t

/-- Slot `i` of the SAS pool is live and holds base `b` (as a number) (R172). -/
def State.holdsSas (s : State) (b : Nat) (i : Nat) : Prop :=
  (s.sasSlot i).ref ≠ 0 ∧ (s.sasSlot i).base.toNat = b

/-! ## Safe steps -/

/-- A step that ends in a next state: no controller fault (R257, R258) and no instruction without a meaning. -/
def SafeStep (s : State) : Prop := ∃ t, step s = .next t

end Machine

end Sys2Proof
end

