-- ==== Sys2Proof/Certificates/Slice0/Obligations.lean ====
section
/-! DEFINITION. The statements about the PFE, from the numbered rules of spec/. Each docstring names its rule. -/

open Sys2Proof Sys2Proof.Machine

/-! ## Encodings -/

/-- R88 to R91, R94: every instruction, with every operand its word holds, decodes from its own encoding. -/
def Obligations.DecodeOfEncodeIsIdentity : Prop := ∀ i : Instr, decode (encode i) = .ok i

/-- R88 to R91, R93: each word has one meaning, so an instruction's encoding is the word it was decoded from. -/
def Obligations.EncodeOfDecodeIsIdentity : Prop :=
  ∀ (p : PortWord) (i : Instr), decode p = .ok i → encode i = p

/-- R91: a command word decodes to the row it matches, at most one row matches a word, and a word no row matches is
ILLEGAL. That such a command still latches CMD, ARG0 to ARG3 and the time draw (`State.present`) is the model's reading
(notes/assumptions/14.md; the draw with every command is 3.md). -/
def Obligations.DecoderAgreesWithOpcodeTable : Prop :=
  (∀ (w : Word) (r : OpRow), r ∈ opcodeTable →
    (w &&& r.mask = r.pattern ↔ ∃ i, decode (.command w) = .ok i ∧ i.mnemonic = r.mnemonic)) ∧
  (∀ (w : Word) (r q : OpRow), r ∈ opcodeTable → q ∈ opcodeTable →
    w &&& r.mask = r.pattern → w &&& q.mask = q.pattern → r = q) ∧
  (∀ (s : State) (c : Command), (∀ r ∈ opcodeTable, ¬ c.cmd &&& r.mask = r.pattern) →
    s.runCommand c = .next { s.present c with rstat := 0x01, result := 0 })

/-- R93: a reserved opcode, a non-zero RSV, a non-zero F outside bit 8 of format CT, a non-zero CSRN outside format CC, and
a reserved CSR number finish with ILLEGAL and RESULT 0. That CMD, ARG0 to ARG3 and the time draw take the command's values
beside them is the model's reading of R86 and R93 (notes/assumptions/14.md; the draw with every command is 3.md). -/
def Obligations.IllegalWordsFinishIllegal : Prop :=
  ∀ (s : State) (c : Command) (rest : List Turn), s.schedule = .command c :: rest →
    (c.cmd.toNat % 2 ^ 8 = 0 ∨ 0x0D ≤ c.cmd.toNat % 2 ^ 8 ∨ c.cmd.toNat / 2 ^ 24 ≠ 0 ∨
      (c.cmd.toNat % 2 ^ 8 = 0x01 ∧ c.cmd.toNat / 2 ^ 9 % 2 ^ 3 ≠ 0) ∨
      (c.cmd.toNat % 2 ^ 8 ≠ 0x01 ∧ c.cmd.toNat / 2 ^ 8 % 2 ^ 4 ≠ 0) ∨
      (c.cmd.toNat % 2 ^ 8 ≠ 0x0B ∧ c.cmd.toNat % 2 ^ 8 ≠ 0x0C ∧ c.cmd.toNat / 2 ^ 12 % 2 ^ 12 ≠ 0) ∨
      ((c.cmd.toNat % 2 ^ 8 = 0x0B ∨ c.cmd.toNat % 2 ^ 8 = 0x0C) ∧ ¬ csrListed s.params (c.cmd.toNat / 2 ^ 12 % 2 ^ 12))) →
    step s = .next { s with
      schedule := rest, cmd := c.cmd, arg0 := c.arg0, arg1 := c.arg1, arg2 := c.arg2, arg3 := c.arg3, nowMs := c.nowMs,
      rstat := 0x01, result := 0 }

/-- R91, R96: words written out from the formats decode to the instruction they stand for, one or more per family. -/
def Obligations.SpelledOutWordsDecode : Prop :=
  decode (.command 0x00000001) = .ok (.wacqHp .mem) ∧ decode (.command 0x00000101) = .ok (.wacqHp .reg) ∧
  decode (.command 0x00000004) = .ok .wrelSas ∧ decode (.command 0x00000005) = .ok .txbuild ∧
  decode (.command 0x0000000A) = .ok .rxrd32 ∧ decode (.command 0x0000200B) = .ok (.csrrd 0x002) ∧
  decode (.command 0x0025F00B) = .ok (.csrrd 0x25F) ∧ decode (.command 0x0000500C) = .ok (.csrwr 0x005) ∧
  decode (.rx 0x53) = .ok (.rxByte 0x53)

/-! ## Steps, reset, halt -/

/-- R66, R86, R140: a step whose move is a command runs the decoded instruction on the latched operands; one whose move is
the RX port's runs RX_BYTE on the offered byte, while the port is enabled. That every command latches CMD and ARG0 to ARG3,
whatever code it ends with, is the model's reading (notes/assumptions/14.md), and that every command draws a time is its
choice (3.md). With nothing offered, or nothing to come, the step changes nothing else: the model's own idle step (2.md). -/
def Obligations.StepRunsTheDecodedInstruction : Prop :=
  (∀ (s : State) (c : Command) (rest : List Turn) (i : Instr), s.schedule = .command c :: rest →
    decode (.command c.cmd) = .ok i →
    step s = exec i { s with
      schedule := rest, cmd := c.cmd, arg0 := c.arg0, arg1 := c.arg1, arg2 := c.arg2, arg3 := c.arg3,
      nowMs := c.nowMs }) ∧
  (∀ (s : State) (b : Byte) (line : List Byte) (rest : List Turn), s.schedule = .rx :: rest → s.rxLine = b :: line →
    s.halted = false → s.pktReady = false →
    step s = exec (.rxByte b) { s with schedule := rest, rxLine := line }) ∧
  (∀ (s : State) (rest : List Turn), s.schedule = .rx :: rest → s.rxLine = [] →
    step s = .next { s with schedule := rest }) ∧
  (∀ s : State, s.schedule = [] → step s = .next s)

/-- R140: while HALTED = 1 or PKT_READY = 1 the port takes no byte, and the byte stays with the transport. That the RX
producer's move is used up, and that RX_BYTE at a disabled port leaves the state, is the model's own form of "no step"
(notes/assumptions/2.md, 10.md). -/
def Obligations.DisabledPortTakesNoByte : Prop :=
  ∀ s : State, s.halted = true ∨ s.pktReady = true →
    (∀ b, exec (.rxByte b) s = .next s) ∧
    (∀ rest, s.schedule = .rx :: rest → step s = .next { s with schedule := rest })

/-- R50, R250 to R252: RESET gives every element of R50 its reset value in one step, from any state; State.reset is such a
state. That the parameters, the stream, the byte line, the schedule, the draw and the observations stay is the model's
reading of what lies outside the PFE (notes/assumptions/11.md). -/
def Obligations.ResetEstablishesResetValues : Prop :=
  AtReset State.reset ∧
  ∀ (s : State) (rest : List Turn), s.schedule = .reset :: rest →
    ∃ t, step s = .next t ∧ AtReset t ∧ t.params = s.params ∧ t.txout = s.txout ∧ t.txTaken = s.txTaken ∧
      t.rxLine = s.rxLine ∧ t.schedule = rest ∧ t.nowMs = s.nowMs ∧ t.extOut = s.extOut

/-- R229: TRANSPORT_FAULT sets HALTED, in any state, and nothing else changes. -/
def Obligations.TransportFaultOnlySetsHalted : Prop :=
  ∀ (s : State) (rest : List Turn), s.schedule = .transportFault :: rest →
    step s = .next { s with schedule := rest, halted := true }

/-- R230: while HALTED = 1 the RX port takes no byte, every command but the read-only ones finishes with HALTED and changes
nothing else (the windows included), and the read-only ones do what they do when HALTED = 0. A reserved CSR number is
ILLEGAL before it is HALTED (R222), and STATUS shows HALTED itself (R42); these two are stated elsewhere. That `exec` of
RX_BYTE at a halted port answers the state as it is, where R140 gives no such step, is the model's choice
(notes/assumptions/10.md). -/
def Obligations.HaltedMachineRefusesCommands : Prop :=
  ∀ s : State, s.halted = true →
    (∀ b, exec (.rxByte b) s = .next s) ∧
    (∀ i : Instr, i.isCommand = true → i.readOnly = false → i.wf s.params = true →
      exec i s = .next { s with rstat := 0x02, result := 0 }) ∧
    (∀ (i : Instr) (t : State), i.readOnly = true → i ≠ .csrrd 0x001 →
      exec i { s with halted := false } = .next t → exec i s = .next { t with halted := true })

/-- R25, R38, R227: only TRANSPORT_FAULT sets HALTED and only RESET clears it. -/
def Obligations.OnlyFaultAndResetWriteHalted : Prop :=
  ∀ (s t : State) (m : Turn), s.runTurn m = .next t →
    (s.halted = false → t.halted = true → m = .transportFault) ∧
    (s.halted = true → t.halted = false → m = .reset)

/-- R21 to R29, R36, R73, R75, R151: which instruction may change which element; every other element stays. -/
def Obligations.ElementsChangeOnlyByTheirWriters : Prop :=
  ∀ (i : Instr) (s t : State), exec i s = .next t →
    (t.connected ≠ s.connected → i = .csrwr 0x000) ∧
    (t.rxExpect ≠ s.rxExpect → i = .csrwr 0x004 ∨ ∃ b, i = .rxByte b) ∧
    (t.txSent ≠ s.txSent → i = .csrwr 0x005 ∨ i = .txbuild) ∧
    (t.beaconCnt ≠ s.beaconCnt → i = .csrwr 0x006) ∧
    (t.pktReady ≠ s.pktReady → i = .rxack ∨ ∃ b, i = .rxByte b) ∧
    (t.rxState ≠ s.rxState ∨ t.rxRemain ≠ s.rxRemain ∨ t.rxPlen ≠ s.rxPlen ∨ t.rxbuf ≠ s.rxbuf →
      ∃ b, i = .rxByte b) ∧
    (t.txbuf ≠ s.txbuf → i = .txwr8 ∨ i = .txwr32) ∧
    (t.txout ≠ s.txout → i = .txbuild) ∧
    (t.hpSlots ≠ s.hpSlots ∨ t.hpWin ≠ s.hpWin → (∃ g, i = .wacqHp g) ∨ i = .wrelHp) ∧
    (t.sasSlots ≠ s.sasSlots ∨ t.sasWin ≠ s.sasWin → i = .wacqSas ∨ i = .wrelSas) ∧
    (t.result ≠ s.result ∨ t.rstat ≠ s.rstat → i.isCommand = true) ∧
    t.halted = s.halted ∧ t.params = s.params ∧ t.cmd = s.cmd ∧ t.arg0 = s.arg0 ∧ t.arg1 = s.arg1 ∧ t.arg2 = s.arg2 ∧
    t.arg3 = s.arg3 ∧ t.nowMs = s.nowMs ∧ t.txTaken = s.txTaken ∧ t.rxLine = s.rxLine ∧ t.schedule = s.schedule ∧
    t.extOut = s.extOut

/-- R220 (last paragraph), R67: a command that finishes with any code other than OK changes no state except RESULT, which
becomes 0, and RSTAT. -/
def Obligations.NonOkCommandChangesNothing : Prop :=
  ∀ (i : Instr) (s t : State), i.isCommand = true → exec i s = .next t → t.rstat ≠ 0x00 →
    t = { s with rstat := t.rstat, result := 0 }

/-- R220, the column "raised by": each command finishes with one of its own codes; a well-formed one never with ILLEGAL. -/
def Obligations.CommandsRaiseOnlyTheirCodes : Prop :=
  ∀ (i : Instr) (s t : State), exec i s = .next t →
    ((∃ g, i = .wacqHp g) → t.rstat.toNat ∈ [0, 2, 3, 6]) ∧
    (i = .wacqSas → t.rstat.toNat ∈ [0, 2, 3, 6, 7]) ∧
    (i = .wrelHp ∨ i = .wrelSas → t.rstat.toNat ∈ [0, 2, 4, 5]) ∧
    (i = .txbuild ∨ i = .txwr8 ∨ i = .txwr32 → t.rstat.toNat ∈ [0, 2, 7]) ∧
    (i = .rxack → t.rstat.toNat ∈ [0, 2, 8]) ∧
    (i = .rxrd8 ∨ i = .rxrd32 → t.rstat.toNat ∈ [0, 7]) ∧
    ((∃ n, i = .csrrd n) → t.rstat.toNat ∈ [0, 1]) ∧
    ((∃ n, i = .csrwr n) → t.rstat.toNat ∈ [0, 1, 2, 9]) ∧
    (i.isCommand = true → i.wf s.params = true → t.rstat ≠ 0x01)

/-- R67: CSRRD, RXRD8, RXRD32 and every command that finishes with a code other than OK change only RESULT and RSTAT, and
repeating one gives the same result. -/
def Obligations.ReadsAndErrorsAreIdempotent : Prop :=
  ∀ (i : Instr) (s t : State), i.isCommand = true → exec i s = .next t → i.readOnly = true ∨ t.rstat ≠ 0x00 →
    t = { s with rstat := t.rstat, result := t.result } ∧ exec i t = .next t

/-- R221, R257, R258: every instruction answers some next state, whatever code it finishes with; the only steps that stop
are controller faults of a window access (the model's own move, notes/assumptions/5.md). RX_BYTE at a disabled port, where
R140 gives no step, is among the instructions by the model's choice (notes/assumptions/10.md). -/
def Obligations.OnlyWindowAccessesFault : Prop :=
  (∀ (i : Instr) (s : State), ∃ t, exec i s = .next t) ∧
  (∀ (s : State) (f : Fault), step s = .fault f → ∃ a rest, s.schedule = .windowAccess a :: rest) ∧
  (∀ (s : State) (r : Refusal), step s ≠ .refused r)

/-- R20 (parameters are fixed for the life of the machine), R59 (the TX stream only grows), R220 (no code beyond 0x09). How
many bytes the TX consumer has taken is the model's own field (notes/assumptions/4.md). -/
def Obligations.StepKeepsParametersAndExtendsTxStream : Prop :=
  ∀ s t : State, step s = .next t →
    t.params = s.params ∧ (∃ out, t.txout = s.txout ++ out) ∧
    (s.rstat.toNat ≤ 9 → t.rstat.toNat ≤ 9) ∧
    (s.txTaken ≤ s.txout.length → s.txTaken ≤ t.txTaken ∧ t.txTaken ≤ t.txout.length)

/-- The reset state meets every invariant (R27, R28, R30, R34, R35). Three clauses rest on the model's own choices: R7's
constraints on the parameters State.reset carries (notes/assumptions/1.md), the count of taken TX bytes that starts at 0
(4.md), and the canonical form of the buffers (6.md). -/
def Obligations.ResetMeetsTheInvariants : Prop := Inv State.reset

/-! ## Transmit -/

/-- R118 to R120: TXBUILD increments TX_SENT, stamps the new value, and appends one whole packet to the TX stream: the
outbound magic pair, the operands' fields, this step's now_ms, the payload bytes of txbuf and a checksum that makes the sum
rule of R112 hold. Nothing else changes. A longer payload is RANGE. -/
def Obligations.TxbuildEmitsOnePacket : Prop :=
  ∀ (s : State) (e : ByteOrder), e = s.params.byteOrder → s.halted = false →
    (s.arg3.toNat ≤ s.params.maxPayload →
      ∃ pkt : List Byte,
        exec .txbuild s = .next { s with
          txSent := s.txSent + 1, txout := s.txout ++ pkt, rstat := 0x00, result := s.txSent + 1 } ∧
        WellFramed s.params s.params.magicD2hSom s.params.magicD2hEom pkt ∧
        packetField e pkt 4 = s.txSent + 1 ∧ packetField e pkt 8 = s.arg2 ∧ packetField e pkt 12 = s.arg1 ∧
        packetField e pkt 16 = s.arg0 ∧ packetField e pkt 20 = s.arg3 ∧ packetField e pkt 24 = s.nowMs ∧
        (∀ k < s.arg3.toNat, pkt.getD (28 + k) 0 = s.txbuf.read k)) ∧
    (s.params.maxPayload < s.arg3.toNat → exec .txbuild s = .next { s with rstat := 0x07, result := 0 })

/-- R121, R122: TXWR8 and TXWR32 store their bytes at offset ARG0 of txbuf, at any alignment, in BYTE_ORDER; every other
byte reads as before, and nothing else changes. An offset whose access passes the end is RANGE and writes nothing. -/
def Obligations.TxWritesStoreTheirBytes : Prop :=
  ∀ s : State, BufferInv s → s.halted = false →
    (s.arg0.toNat + 1 ≤ s.params.txbufSize →
      ∃ m, exec .txwr8 s = .next { s with txbuf := m, rstat := 0x00, result := 0 } ∧ Memory.wf s.params.txbufSize m ∧
        (m.read s.arg0.toNat).toNat = s.arg1.toNat % 2 ^ 8 ∧
        ∀ a, a ≠ s.arg0.toNat → m.read a = s.txbuf.read a) ∧
    (s.params.txbufSize < s.arg0.toNat + 1 → exec .txwr8 s = .next { s with rstat := 0x07, result := 0 }) ∧
    (s.arg0.toNat + 4 ≤ s.params.txbufSize →
      ∃ m, exec .txwr32 s = .next { s with txbuf := m, rstat := 0x00, result := 0 } ∧ Memory.wf s.params.txbufSize m ∧
        (∀ k < 4, (m.read (s.arg0.toNat + k)).toNat = s.arg1.toNat / byteWeight s.params.byteOrder k % 2 ^ 8) ∧
        ∀ a, a < s.arg0.toNat ∨ s.arg0.toNat + 4 ≤ a → m.read a = s.txbuf.read a) ∧
    (s.params.txbufSize < s.arg0.toNat + 4 → exec .txwr32 s = .next { s with rstat := 0x07, result := 0 })

/-! ## Receive -/

/-- R152: RXACK clears PKT_READY while a packet is held, and is NO_PACKET otherwise; nothing else changes. -/
def Obligations.RxackReleasesTheHeldPacket : Prop :=
  ∀ s : State, s.halted = false →
    (s.pktReady = true → exec .rxack s = .next { s with pktReady := false, rstat := 0x00, result := 0 }) ∧
    (s.pktReady = false → exec .rxack s = .next { s with rstat := 0x08, result := 0 })

/-- R153, R154, R62: RXRD8 and RXRD32 return the bytes at offset ARG0 of rxbuf, at any alignment, in BYTE_ORDER, halted or
not; nothing else changes. An offset whose access passes the end is RANGE. -/
def Obligations.RxReadsReturnTheBuffersBytes : Prop :=
  ∀ (s : State) (w : Nat → Nat), w = byteWeight s.params.byteOrder →
    (s.arg0.toNat + 1 ≤ s.params.bufSize →
      ∃ v : Word, exec .rxrd8 s = .next { s with rstat := 0x00, result := v } ∧
        v.toNat = (s.rxbuf.read s.arg0.toNat).toNat) ∧
    (s.params.bufSize < s.arg0.toNat + 1 → exec .rxrd8 s = .next { s with rstat := 0x07, result := 0 }) ∧
    (s.arg0.toNat + 4 ≤ s.params.bufSize →
      ∃ v : Word, exec .rxrd32 s = .next { s with rstat := 0x00, result := v } ∧
        v.toNat = w 0 * (s.rxbuf.read s.arg0.toNat).toNat + w 1 * (s.rxbuf.read (s.arg0.toNat + 1)).toNat +
          w 2 * (s.rxbuf.read (s.arg0.toNat + 2)).toNat + w 3 * (s.rxbuf.read (s.arg0.toNat + 3)).toNat) ∧
    (s.params.bufSize < s.arg0.toNat + 4 → exec .rxrd32 s = .next { s with rstat := 0x07, result := 0 })

/-- R141: where the next byte lies, by state, and that it lies inside rxbuf. -/
def Obligations.RxPositionsFollowTheWireLayout : Prop :=
  ∀ s : State, s.params.wf → RxInv s →
    (s.rxState = .header → s.rxPos = 28 - s.rxRemain.toNat ∧ s.rxPos ≤ 27) ∧
    (s.rxState = .payload →
      s.rxPos = 28 + s.rxPlen.toNat - s.rxRemain.toNat ∧ 28 ≤ s.rxPos ∧ s.rxPos ≤ 27 + s.rxPlen.toNat) ∧
    (s.rxState = .footer →
      s.rxPos = 28 + s.rxPlen.toNat + 8 - s.rxRemain.toNat ∧ 28 + s.rxPlen.toNat ≤ s.rxPos ∧
        s.rxPos ≤ 35 + s.rxPlen.toNat) ∧
    s.rxPos < s.params.bufSize

/-- R142, R75: RX_BYTE stores its byte at `pos`, leaves every other byte of rxbuf, and changes only the receive machine's
elements, RX_EXPECT and PKT_READY beside it. -/
def Obligations.RxByteStoresOneByte : Prop :=
  ∀ (s : State) (b : Byte), RxInv s → BufferInv s → s.halted = false → s.pktReady = false →
    ∃ t, exec (.rxByte b) s = .next t ∧
      t = { s with
        rxbuf := t.rxbuf, rxState := t.rxState, rxRemain := t.rxRemain, rxPlen := t.rxPlen, rxExpect := t.rxExpect,
        pktReady := t.pktReady } ∧
      t.rxbuf.read s.rxPos = b ∧ (∀ a, a ≠ s.rxPos → t.rxbuf.read a = s.rxbuf.read a)

/-- R155, and with it R143 to R146 and R149: the nine transitions of the receive machine. `m` is rxbuf with the byte
stored, and `f` its 32-bit fields. -/
def Obligations.RxByteTakesTheTransitionOfItsState : Prop :=
  ∀ (s : State) (b : Byte) (m : Memory) (f : Nat → Word), RxInv s → s.halted = false → s.pktReady = false →
    m = s.rxbuf.write s.rxPos b → f = m.read32 s.params.byteOrder →
    (1 < s.rxRemain.toNat → exec (.rxByte b) s = .next { s with rxbuf := m, rxRemain := s.rxRemain - 1 }) ∧
    (s.rxRemain.toNat = 1 → s.rxState = .header → HeaderChecks { s with rxbuf := m } → 0 < (f 20).toNat →
      exec (.rxByte b) s = .next { s with
        rxbuf := m, rxState := .payload, rxRemain := f 20, rxPlen := f 20 }) ∧
    (s.rxRemain.toNat = 1 → s.rxState = .header → HeaderChecks { s with rxbuf := m } → (f 20).toNat = 0 →
      exec (.rxByte b) s = .next { s with rxbuf := m, rxState := .footer, rxRemain := 8, rxPlen := 0 }) ∧
    (s.rxRemain.toNat = 1 → s.rxState = .header → ¬ HeaderChecks { s with rxbuf := m } →
      exec (.rxByte b) s = .next { s with rxbuf := m, rxRemain := 28 }) ∧
    (s.rxRemain.toNat = 1 → s.rxState = .payload →
      exec (.rxByte b) s = .next { s with rxbuf := m, rxState := .footer, rxRemain := 8 }) ∧
    (s.rxRemain.toNat = 1 → s.rxState = .footer → FooterChecks { s with rxbuf := m } →
      exec (.rxByte b) s = .next { s with
        rxbuf := m, rxState := .header, rxRemain := 28, rxExpect := expectAfter s (f 4), pktReady := true }) ∧
    (s.rxRemain.toNat = 1 → s.rxState = .footer → ¬ FooterChecks { s with rxbuf := m } →
      exec (.rxByte b) s = .next { s with rxbuf := m, rxState := .header, rxRemain := 28 })

/-- R142 to R145, R148, R149: a listening receiver that is offered the bytes of one well-framed admissible packet, one a
step, yields it: the packet lies in rxbuf exactly as sent, RX_EXPECT has moved, PKT_READY is set, and nothing else has
changed. -/
def Obligations.WholePacketIsReceived : Prop :=
  ∀ (s : State) (pkt line : List Byte) (rest : List Turn), s.params.wf → BufferInv s → Listening s →
    WellFramed s.params s.params.magicH2dSom s.params.magicH2dEom pkt → Admissible s pkt →
    s.rxLine = pkt ++ line → s.schedule = List.replicate pkt.length .rx ++ rest →
    ∃ m : Memory,
      Sys2Proof.core.run pkt.length s = .next { s with
        rxbuf := m, rxPlen := packetField s.params.byteOrder pkt 20,
        rxExpect := expectAfter s (packetField s.params.byteOrder pkt 4), pktReady := true, rxLine := line,
        schedule := rest } ∧
      (∀ k < pkt.length, m.read k = pkt.getD k 0) ∧ (∀ k, pkt.length ≤ k → m.read k = s.rxbuf.read k)

/-- R97 (rxpkt): the packet the notation writes has the inbound magic pair, the fields given, its payload's length, its
payload and a checksum that meets R112's sum rule. -/
def Obligations.RxpktWritesAWellFramedPacket : Prop :=
  ∀ (p : Params) (seq req sub status ts : Word) (payload : List Byte), payload.length ≤ p.maxPayload →
    p.bufSize ≤ 2 ^ 32 →
    let pkt := inboundPacket p seq req sub status ts payload
    let f := packetField p.byteOrder pkt
    WellFramed p p.magicH2dSom p.magicH2dEom pkt ∧ packetPlen p.byteOrder pkt = payload.length ∧
      f 4 = seq ∧ f 8 = req ∧ f 12 = sub ∧ f 16 = status ∧
      f 24 = ts ∧ ∀ k < payload.length, pkt.getD (28 + k) 0 = payload.getD k 0

/-- R96: the command words and ARG values of the notation are those of the instructions it names. -/
def Obligations.AssembledCommandsDecode : Prop :=
  ∀ (ms a v s d r l : Word) (g : Tag) (w : Word64) (n : BitVec 12),
    (∃ c, (AsmLine.wacqHp g w).command ms = some c ∧ decode (.command c.cmd) = .ok (.wacqHp g) ∧
      c.arg1.toNat * 2 ^ 32 + c.arg0.toNat = w.toNat) ∧
    (∃ c, (AsmLine.wacqSas a).command ms = some c ∧ decode (.command c.cmd) = .ok .wacqSas ∧ c.arg0 = a ∧ c.arg1 = 0) ∧
    (∃ c, (AsmLine.wrelHp a).command ms = some c ∧ decode (.command c.cmd) = .ok .wrelHp ∧ c.arg0 = a) ∧
    (∃ c, (AsmLine.wrelSas a).command ms = some c ∧ decode (.command c.cmd) = .ok .wrelSas ∧ c.arg0 = a) ∧
    (∃ c, (AsmLine.txbuild s d r l).command ms = some c ∧ decode (.command c.cmd) = .ok .txbuild ∧ c.arg0 = s ∧
      c.arg1 = d ∧ c.arg2 = r ∧ c.arg3 = l ∧ c.nowMs = ms) ∧
    (∃ c, (AsmLine.txwr8 a v).command ms = some c ∧ decode (.command c.cmd) = .ok .txwr8 ∧ c.arg0 = a ∧ c.arg1 = v) ∧
    (∃ c, (AsmLine.txwr32 a v).command ms = some c ∧ decode (.command c.cmd) = .ok .txwr32 ∧ c.arg0 = a ∧ c.arg1 = v) ∧
    (∃ c, AsmLine.rxack.command ms = some c ∧ decode (.command c.cmd) = .ok .rxack) ∧
    (∃ c, (AsmLine.rxrd8 a).command ms = some c ∧ decode (.command c.cmd) = .ok .rxrd8 ∧ c.arg0 = a) ∧
    (∃ c, (AsmLine.rxrd32 a).command ms = some c ∧ decode (.command c.cmd) = .ok .rxrd32 ∧ c.arg0 = a) ∧
    (∃ c, (AsmLine.csrrd n).command ms = some c ∧ decode (.command c.cmd) = .ok (.csrrd n)) ∧
    (∃ c, (AsmLine.csrwr n v).command ms = some c ∧ decode (.command c.cmd) = .ok (.csrwr n) ∧ c.arg0 = v)

/-- R123: what TXBUILD emits, offered to a receiver configured with the D2H magic pair (one of the same byte order, whose
buffer has room for the payload), is yielded there with the same requestId, subDeviceId, status, payloadLen, timestampMs
and payload bytes. -/
def Obligations.HostReceiverYieldsWhatTxbuildSent : Prop :=
  ∀ (s r : State) (line : List Byte) (rest : List Turn), s.halted = false →
    s.arg3.toNat ≤ s.params.maxPayload → s.arg3.toNat ≤ r.params.maxPayload → r.params.byteOrder = s.params.byteOrder →
    r.params.wf → BufferInv r → Listening r →
    r.params.magicH2dSom = s.params.magicD2hSom → r.params.magicH2dEom = s.params.magicD2hEom →
    r.params.reqIdMin.toNat ≤ s.arg2.toNat → s.arg2.toNat ≤ r.params.reqIdMax.toNat →
    s.arg1.toNat < r.params.nSubdev → (r.connected = true → r.rxExpect = s.txSent + 1) →
    ∃ (pkt : List Byte) (t u : State), exec .txbuild s = .next t ∧ t.txout = s.txout ++ pkt ∧
      Sys2Proof.core.run pkt.length
        { r with rxLine := pkt ++ line, schedule := List.replicate pkt.length .rx ++ rest } = .next u ∧
      u.pktReady = true ∧ u.rxPlen = s.arg3 ∧ u.rxField 4 = s.txSent + 1 ∧ u.rxField 8 = s.arg2 ∧
      u.rxField 12 = s.arg1 ∧ u.rxField 16 = s.arg0 ∧ u.rxField 20 = s.arg3 ∧
      u.rxField 24 = s.nowMs ∧ (∀ k < s.arg3.toNat, u.rxbuf.read (28 + k) = s.txbuf.read k)

/-- R83, R118 (corner cases), R147: the PFE's own packet, looped back to its RX port, is dropped at the end of its header
whatever its other fields are; the rest of it is taken as the start of a new header. -/
def Obligations.OwnPacketIsDropped : Prop :=
  ∀ (s r : State) (line : List Byte) (rest : List Turn), s.halted = false → s.arg3.toNat ≤ s.params.maxPayload →
    r.params = s.params → s.params.wf → BufferInv r → Listening r →
    ∃ (pkt : List Byte) (t : State) (m : Memory), exec .txbuild s = .next t ∧ t.txout = s.txout ++ pkt ∧
      Sys2Proof.core.run 28 { r with rxLine := pkt ++ line, schedule := List.replicate 28 .rx ++ rest } =
        .next { r with rxbuf := m, rxLine := pkt.drop 28 ++ line, schedule := rest }

/-- R156, R23, R149: while CONNECTED = 1 a header whose seq is not RX_EXPECT is dropped; an accepted packet moves RX_EXPECT
by R149's rule; and no other byte moves it. -/
def Obligations.AcceptedPacketsAreInSequence : Prop :=
  ∀ (s t : State) (b : Byte), RxInv s → BufferInv s → exec (.rxByte b) s = .next t →
    (s.connected = true → s.halted = false → s.pktReady = false → s.rxState = .header → s.rxRemain.toNat = 1 →
      s.rxField 4 ≠ s.rxExpect → t = { s with rxbuf := s.rxbuf.write 27 b, rxRemain := 28 }) ∧
    (s.pktReady = false → t.pktReady = true → t.rxExpect = expectAfter s (t.rxField 4)) ∧
    (t.pktReady = s.pktReady → t.rxExpect = s.rxExpect)

/-- R260, R201: once a header is validated, CONNECTED and RX_EXPECT no longer decide whether its packet is accepted. -/
def Obligations.HeaderIsNotValidatedAgain : Prop :=
  ∀ (s t : State) (b : Byte) (c : Bool) (e : Word), s.rxState ≠ .header → exec (.rxByte b) s = .next t →
    ∃ u, exec (.rxByte b) { s with connected := c, rxExpect := e } = .next u ∧
      u.pktReady = t.pktReady ∧ u.rxState = t.rxState ∧ u.rxRemain = t.rxRemain ∧ u.rxPlen = t.rxPlen ∧
      u.rxbuf = t.rxbuf

/-- R116: the bytes of `status` (offset 16) and `timestampMs` (offset 24) do not affect header validation. -/
def Obligations.StatusAndTimestampAreNotChecked : Prop :=
  ∀ (s : State) (k : Nat) (v : Byte), BufferInv s → (16 ≤ k ∧ k < 20) ∨ (24 ≤ k ∧ k < 28) →
    { s with rxbuf := s.rxbuf.write k v }.headerValid = s.headerValid

/-- R113: changing any one byte of header or payload to a different value makes the footer check fail. -/
def Obligations.SingleByteChangeFailsTheFooter : Prop :=
  ∀ (s : State) (k : Nat) (v : Byte), BufferInv s → s.rxPlen.toNat ≤ s.params.maxPayload → k < 28 + s.rxPlen.toNat →
    v ≠ s.rxbuf.read k → s.footerValid = true →
    { s with rxbuf := s.rxbuf.write k v }.footerValid = false

/-- R27, R28: every step keeps the receive machine's invariant, in particular RX_REMAIN ≥ 1 and RX_PLEN ≤ MAX_PAYLOAD. -/
def Obligations.StepKeepsReceiveInvariant : Prop :=
  ∀ s t : State, RxInv s → step s = .next t → RxInv t

/-- R30, R64: every step keeps both buffers inside their size, in the model's canonical form (notes/assumptions/6.md). -/
def Obligations.StepKeepsBuffersCanonical : Prop :=
  ∀ s t : State, s.params.wf → RxInv s → BufferInv s → step s = .next t → BufferInv t

/-- R145, R148: every step keeps the packet in rxbuf an accepted one: past HEADER its header passed R114, and while
PKT_READY = 1 it passes the checks of R117 too. -/
def Obligations.StepKeepsHeldPacketValid : Prop :=
  ∀ s t : State, RxInv s → BufferInv s → HeldInv s → step s = .next t → HeldInv t

/-! ## Windows -/

/-- R171 to R175, R177, R180, for both pools: the lowest live slot that holds the address's base and tag is reused (or
REF_OVERFLOW at 2^32 - 1); otherwise the lowest free slot is programmed and taken; otherwise POOL_EXHAUSTED. The pointer is
R175's. Nothing else changes. WACQ.SAS with ARG1 ≠ 0 is RANGE. -/
def Obligations.AcquireFollowsTheScans : Prop :=
  (∀ (s : State) (g : Tag) (n w a b : Nat), n = s.params.nHp → w = s.params.wHp → s.halted = false →
    a = s.arg1.toNat * 2 ^ 32 + s.arg0.toNat → b = a - a % w →
    (∀ i < n, s.holdsHp b g i → (∀ j < i, ¬ s.holdsHp b g j) →
      ((s.hpSlot i).ref.toNat < 2 ^ 32 - 1 →
        exec (.wacqHp g) s = .next { s with
          hpSlots := s.hpSlots.set i { s.hpSlot i with ref := (s.hpSlot i).ref + 1 },
          rstat := 0x00,
          result := BitVec.ofNat 32 (s.params.localBaseHp.toNat + i * w + a % w) }) ∧
      ((s.hpSlot i).ref.toNat = 2 ^ 32 - 1 → exec (.wacqHp g) s = .next { s with rstat := 0x06, result := 0 })) ∧
    (∀ i < n, (∀ j < n, ¬ s.holdsHp b g j) → (s.hpSlot i).ref = 0 → (∀ j < i, (s.hpSlot j).ref ≠ 0) →
      exec (.wacqHp g) s = .next { s with
        hpSlots := s.hpSlots.set i ⟨BitVec.ofNat 64 b, g, 1⟩,
        hpWin := s.hpWin.set i
          ⟨BitVec.ofNat 32 (b / 2 ^ 26 % 2 ^ 6 * 2 ^ 26 + (if g = .reg then 2 else 0) + 1),
            BitVec.ofNat 32 (b / 2 ^ 32)⟩,
        rstat := 0x00,
        result := BitVec.ofNat 32 (s.params.localBaseHp.toNat + i * w + a % w) }) ∧
    ((∀ j < n, ¬ s.holdsHp b g j) → (∀ j < n, (s.hpSlot j).ref ≠ 0) →
      exec (.wacqHp g) s = .next { s with rstat := 0x03, result := 0 })) ∧
  (∀ (s : State) (n w a b : Nat), n = s.params.nSas → w = s.params.wSas → s.halted = false → s.arg1 = 0 →
    a = s.arg0.toNat → b = a - a % w →
    (∀ i < n, s.holdsSas b i → (∀ j < i, ¬ s.holdsSas b j) →
      ((s.sasSlot i).ref.toNat < 2 ^ 32 - 1 →
        exec .wacqSas s = .next { s with
          sasSlots := s.sasSlots.set i { s.sasSlot i with ref := (s.sasSlot i).ref + 1 },
          rstat := 0x00,
          result := BitVec.ofNat 32 (s.params.localBaseSas.toNat + i * w + a % w) }) ∧
      ((s.sasSlot i).ref.toNat = 2 ^ 32 - 1 → exec .wacqSas s = .next { s with rstat := 0x06, result := 0 })) ∧
    (∀ i < n, (∀ j < n, ¬ s.holdsSas b j) → (s.sasSlot i).ref = 0 → (∀ j < i, (s.sasSlot j).ref ≠ 0) →
      exec .wacqSas s = .next { s with
        sasSlots := s.sasSlots.set i ⟨BitVec.ofNat 32 b, 1⟩,
        sasWin := s.sasWin.set i (BitVec.ofNat 32 (b / 2 ^ 20 * 2 ^ 20 + 1)),
        rstat := 0x00,
        result := BitVec.ofNat 32 (s.params.localBaseSas.toNat + i * w + a % w) }) ∧
    ((∀ j < n, ¬ s.holdsSas b j) → (∀ j < n, (s.sasSlot j).ref ≠ 0) →
      exec .wacqSas s = .next { s with rstat := 0x03, result := 0 })) ∧
  (∀ s : State, s.halted = false → s.arg1 ≠ 0 → exec .wacqSas s = .next { s with rstat := 0x07, result := 0 })

/-- R176, R178, for both pools and both settings of RELEASE_ALIGN: a pointer out of the pool's range, or off a slot's base
under BASE, is BAD_POINTER; one into a free slot is NOT_ACQUIRED; the last reference clears the registers and writes the
sentinel and MEM; an earlier one only lowers the count. Nothing else changes. -/
def Obligations.ReleaseFollowsThePointer : Prop :=
  (∀ (s : State) (n w p lb : Nat), n = s.params.nHp → w = s.params.wHp → s.halted = false → p = s.arg0.toNat →
    lb = s.params.localBaseHp.toNat →
    (p < lb ∨ lb + n * w ≤ p → exec .wrelHp s = .next { s with rstat := 0x04, result := 0 }) ∧
    (s.params.releaseAlign = .base → (p - lb) % w ≠ 0 →
      exec .wrelHp s = .next { s with rstat := 0x04, result := 0 }) ∧
    (∀ i < n, ∀ x < w, p = lb + i * w + x → (s.params.releaseAlign = .base → x = 0) →
      ((s.hpSlot i).ref.toNat = 0 → exec .wrelHp s = .next { s with rstat := 0x05, result := 0 }) ∧
      ((s.hpSlot i).ref.toNat = 1 →
        exec .wrelHp s = .next { s with
          hpSlots := s.hpSlots.set i ⟨0xFFFFFFFFFFFFFFFF, .mem, 0⟩, hpWin := s.hpWin.set i ⟨0, 0⟩,
          rstat := 0x00, result := 0 }) ∧
      (2 ≤ (s.hpSlot i).ref.toNat →
        exec .wrelHp s = .next { s with
          hpSlots := s.hpSlots.set i { s.hpSlot i with ref := (s.hpSlot i).ref - 1 },
          rstat := 0x00, result := 0 }))) ∧
  (∀ (s : State) (n w p lb : Nat), n = s.params.nSas → w = s.params.wSas → s.halted = false → p = s.arg0.toNat →
    lb = s.params.localBaseSas.toNat →
    (p < lb ∨ lb + n * w ≤ p → exec .wrelSas s = .next { s with rstat := 0x04, result := 0 }) ∧
    (s.params.releaseAlign = .base → (p - lb) % w ≠ 0 →
      exec .wrelSas s = .next { s with rstat := 0x04, result := 0 }) ∧
    (∀ i < n, ∀ x < w, p = lb + i * w + x → (s.params.releaseAlign = .base → x = 0) →
      ((s.sasSlot i).ref.toNat = 0 → exec .wrelSas s = .next { s with rstat := 0x05, result := 0 }) ∧
      ((s.sasSlot i).ref.toNat = 1 →
        exec .wrelSas s = .next { s with
          sasSlots := s.sasSlots.set i ⟨0xFFFFFFFF, 0⟩, sasWin := s.sasWin.set i 0, rstat := 0x00, result := 0 }) ∧
      (2 ≤ (s.sasSlot i).ref.toNat →
        exec .wrelSas s = .next { s with
          sasSlots := s.sasSlots.set i { s.sasSlot i with ref := (s.sasSlot i).ref - 1 },
          rstat := 0x00, result := 0 })))

/-- R34: reset establishes the pools' invariant and every step preserves it. -/
def Obligations.StepKeepsWindowInvariant : Prop :=
  WindowInv State.reset ∧ ∀ s t : State, WindowInv s → step s = .next t → WindowInv t

/-- R35: at most one live slot holds a given base and tag, and every step keeps it so. -/
def Obligations.StepKeepsSlotsUnique : Prop :=
  UniqueInv State.reset ∧ ∀ s t : State, UniqueInv s → step s = .next t → UniqueInv t

/-- R186 with R171, R175, R178: the pointer an acquire returns with OK reaches the acquired target address, with the tag
asked for, for every access that stays inside the window. The window sizes are those whose bases the register images of R32
and R33 hold whole (notes/assumptions/7.md); the access and its observation are the model's own (5.md). -/
def Obligations.AcquiredPointerReachesItsTarget : Prop :=
  (∀ (s t : State) (g : Tag) (w len : Nat) (rest : List Turn), s.params.wf → w = s.params.wHp → 2 ^ 26 ≤ w →
    WindowInv s → exec (.wacqHp g) s = .next t → t.rstat = 0x00 → (s.arg1 ++ s.arg0).toNat % w + len ≤ w →
    step { t with schedule := .windowAccess ⟨.hp, t.result, len, s.arg1 ++ s.arg0⟩ :: rest } =
      .next { t with schedule := rest, extOut := t.extOut ++ [⟨.hp, g, s.arg1 ++ s.arg0, len⟩] }) ∧
  (∀ (s t : State) (w len : Nat) (rest : List Turn), s.params.wf → w = s.params.wSas → 2 ^ 20 ≤ w →
    WindowInv s → exec .wacqSas s = .next t → t.rstat = 0x00 → s.arg0.toNat % w + len ≤ w →
    step { t with schedule := .windowAccess ⟨.sas, t.result, len, s.arg0.setWidth 64⟩ :: rest } =
      .next { t with schedule := rest, extOut := t.extOut ++ [⟨.sas, .mem, s.arg0.setWidth 64, len⟩] })

/-- R186, R257, R258: an access through a cleared window, past its slot's end, to another base than the window holds, or
from a pointer in no slot of the pool, is a controller fault. How a step tells them apart is the model's own
(notes/assumptions/5.md); the window sizes of the last clause are those whose bases the register images hold whole (7.md). -/
def Obligations.BadWindowAccessesFault : Prop :=
  ∀ (s : State) (a : Access) (rest : List Turn) (x : Nat), s.params.wf → WindowInv s →
    s.schedule = .windowAccess a :: rest →
    (a.pool = .hp → ∀ lb w : Nat, lb = s.params.localBaseHp.toNat → w = s.params.wHp →
      (a.ptr.toNat < lb ∨ lb + s.params.nHp * w ≤ a.ptr.toNat → step s = .fault .outsidePool) ∧
      (∀ i < s.params.nHp, x < w → a.ptr.toNat = lb + i * w + x →
        ((s.hpSlot i).ref = 0 → step s = .fault .clearedWindow) ∧
        ((s.hpSlot i).ref ≠ 0 → w < x + a.len → step s = .fault .windowCrossing) ∧
        ((s.hpSlot i).ref ≠ 0 → 2 ^ 26 ≤ w → x + a.len ≤ w → (s.hpSlot i).base.toNat + x ≠ a.target.toNat →
          step s = .fault .reprogrammedWindow))) ∧
    (a.pool = .sas → ∀ lb w : Nat, lb = s.params.localBaseSas.toNat → w = s.params.wSas →
      (a.ptr.toNat < lb ∨ lb + s.params.nSas * w ≤ a.ptr.toNat → step s = .fault .outsidePool) ∧
      (∀ i < s.params.nSas, x < w → a.ptr.toNat = lb + i * w + x →
        ((s.sasSlot i).ref = 0 → step s = .fault .clearedWindow) ∧
        ((s.sasSlot i).ref ≠ 0 → w < x + a.len → step s = .fault .windowCrossing) ∧
        ((s.sasSlot i).ref ≠ 0 → 2 ^ 20 ≤ w → x + a.len ≤ w → (s.sasSlot i).base.toNat + x ≠ a.target.toNat →
          step s = .fault .reprogrammedWindow)))

/-- R184 in the HP pool: acquiring one base and tag twice shares one slot, programmed with that base and tag, with count 2;
the first release leaves count 1 and the programmed registers; the second clears them and frees the slot. Under
RELEASE_ALIGN = BASE the two addresses are slot bases, since only such pointers can be released (R176). -/
def Obligations.AcquiringTwiceSharesOneSlot : Prop :=
  ∀ (s : State) (g : Tag) (i w b : Nat) (lo lo' hi : Word), s.params.wf → WindowInv s → s.halted = false →
    w = s.params.wHp → b = (hi ++ lo).toNat - (hi ++ lo).toNat % w →
    (hi ++ lo').toNat / w = (hi ++ lo).toNat / w →
    (s.params.releaseAlign = .base → (hi ++ lo).toNat % w = 0 ∧ (hi ++ lo').toNat % w = 0) →
    (∀ j < s.params.nHp, ¬ s.holdsHp b g j) →
    i < s.params.nHp → (s.hpSlot i).ref = 0 → (∀ j < i, (s.hpSlot j).ref ≠ 0) →
    ∃ t₁ t₂ t₃ t₄ : State,
      exec (.wacqHp g) { s with arg0 := lo, arg1 := hi } = .next t₁ ∧ t₁.rstat = 0x00 ∧
      t₁.hpReg i = programmedHp (BitVec.ofNat 64 b) g ∧
      exec (.wacqHp g) { t₁ with arg0 := lo' } = .next t₂ ∧ t₂.rstat = 0x00 ∧
      t₂.hpSlots = s.hpSlots.set i ⟨BitVec.ofNat 64 b, g, 2⟩ ∧ t₂.hpWin = t₁.hpWin ∧
      exec .wrelHp { t₂ with arg0 := t₁.result } = .next t₃ ∧ t₃.rstat = 0x00 ∧
      t₃.hpSlots = s.hpSlots.set i ⟨BitVec.ofNat 64 b, g, 1⟩ ∧ t₃.hpWin = t₁.hpWin ∧
      t₃.hpReg i = programmedHp (BitVec.ofNat 64 b) g ∧
      exec .wrelHp { t₃ with arg0 := t₂.result } = .next t₄ ∧ t₄.rstat = 0x00 ∧
      t₄.hpSlots = s.hpSlots ∧ t₄.hpWin = s.hpWin ∧ t₄.hpReg i = ⟨0, 0⟩

/-- R178: the writes of Program and Clear, in their order, never leave EN set over a half-written base: after the first of
Program's two writes the window is still disabled, and after the first of Clear's it is disabled already. -/
def Obligations.ProgrammingNeverEnablesHalfABase : Prop :=
  ∀ (s : State) (i : Nat) (b : Word64) (g : Tag), i < s.hpWin.length → s.hpReg i = ⟨0, 0⟩ →
    (s.writeWins ((programHpWrites i b g).take 1)).hpReg i = ⟨0, BitVec.ofNat 32 (b.toNat / 2 ^ 32)⟩ ∧
    (s.writeWins (programHpWrites i b g)).hpReg i =
      ⟨BitVec.ofNat 32 (b.toNat / 2 ^ 26 % 2 ^ 6 * 2 ^ 26 + (if g = .reg then 2 else 0) + 1),
        BitVec.ofNat 32 (b.toNat / 2 ^ 32)⟩ ∧
    (s.writeWins (programHpWrites i b g ++ (clearHpWrites i).take 1)).hpReg i =
      ⟨0, BitVec.ofNat 32 (b.toNat / 2 ^ 32)⟩ ∧
    (s.writeWins (programHpWrites i b g ++ clearHpWrites i)).hpReg i = ⟨0, 0⟩

/-- R182 (corner cases), R68: a pointer into one pool's local range is BAD_POINTER to the other pool's release. -/
def Obligations.PointerOfTheOtherPoolIsBad : Prop :=
  ∀ s : State, s.params.wf → s.halted = false →
    ((∃ x < s.params.nHp * s.params.wHp, s.arg0.toNat = s.params.localBaseHp.toNat + x) →
      exec .wrelSas s = .next { s with rstat := 0x04, result := 0 }) ∧
    ((∃ x < s.params.nSas * s.params.wSas, s.arg0.toNat = s.params.localBaseSas.toNat + x) →
      exec .wrelHp s = .next { s with rstat := 0x04, result := 0 })

/-! ## Control and status registers -/

/-- R40 to R48, R200: what CSRRD returns for every CSR number of the map, halted or not; nothing else changes. -/
def Obligations.CsrReadsShowTheState : Prop :=
  ∀ s : State,
    exec (.csrrd 0x000) s = .next { s with rstat := 0x00, result := if s.connected then 1 else 0 } ∧
    exec (.csrrd 0x001) s = .next { s with
      rstat := 0x00,
      result := BitVec.ofNat 32 ((match s.rxState with | .header => 0 | .payload => 1 | .footer => 2) +
        (if s.pktReady then 4 else 0) + (if s.halted then 8 else 0)) } ∧
    exec (.csrrd 0x002) s = .next { s with rstat := 0x00, result := s.rxRemain } ∧
    exec (.csrrd 0x003) s = .next { s with rstat := 0x00, result := s.rxPlen } ∧
    exec (.csrrd 0x004) s = .next { s with rstat := 0x00, result := s.rxExpect } ∧
    exec (.csrrd 0x005) s = .next { s with rstat := 0x00, result := s.txSent } ∧
    exec (.csrrd 0x006) s = .next { s with rstat := 0x00, result := s.beaconCnt } ∧
    (∀ i < s.params.nHp, s.params.wf →
      exec (.csrrd (BitVec.ofNat 12 (0x100 + i))) s =
        .next { s with rstat := 0x00, result := BitVec.ofNat 32 ((s.hpSlot i).base.toNat % 2 ^ 32) } ∧
      exec (.csrrd (BitVec.ofNat 12 (0x120 + i))) s =
        .next { s with rstat := 0x00, result := BitVec.ofNat 32 ((s.hpSlot i).base.toNat / 2 ^ 32) } ∧
      exec (.csrrd (BitVec.ofNat 12 (0x140 + i))) s =
        .next { s with rstat := 0x00, result := if (s.hpSlot i).tag = .reg then 1 else 0 } ∧
      exec (.csrrd (BitVec.ofNat 12 (0x160 + i))) s =
        .next { s with rstat := 0x00, result := (s.hpSlot i).ref } ∧
      exec (.csrrd (BitVec.ofNat 12 (0x180 + i))) s = .next { s with rstat := 0x00, result := (s.hpReg i).lo } ∧
      exec (.csrrd (BitVec.ofNat 12 (0x1A0 + i))) s = .next { s with rstat := 0x00, result := (s.hpReg i).hi }) ∧
    (∀ i < s.params.nSas, s.params.wf →
      exec (.csrrd (BitVec.ofNat 12 (0x200 + i))) s =
        .next { s with rstat := 0x00, result := (s.sasSlot i).base } ∧
      exec (.csrrd (BitVec.ofNat 12 (0x220 + i))) s = .next { s with rstat := 0x00, result := (s.sasSlot i).ref } ∧
      exec (.csrrd (BitVec.ofNat 12 (0x240 + i))) s = .next { s with rstat := 0x00, result := s.sasReg i })

/-- R49: a CSR number outside R40's table finishes with ILLEGAL and changes nothing but RESULT and RSTAT, halted or not. -/
def Obligations.ReservedCsrIsIllegal : Prop :=
  ∀ (s : State) (n : BitVec 12), ¬ csrListed s.params n.toNat →
    exec (.csrrd n) s = .next { s with rstat := 0x01, result := 0 } ∧
    exec (.csrwr n) s = .next { s with rstat := 0x01, result := 0 }

/-- R202: the effect of each CSR write; no CSR write has any other effect. -/
def Obligations.CsrWritesHaveTheirEffect : Prop :=
  ∀ s : State, s.halted = false →
    exec (.csrwr 0x000) s = .next { s with connected := s.arg0.toNat % 2 == 1, rstat := 0x00, result := 0 } ∧
    exec (.csrwr 0x004) s = .next { s with rxExpect := s.arg0, rstat := 0x00, result := 0 } ∧
    exec (.csrwr 0x005) s = .next { s with txSent := s.arg0, rstat := 0x00, result := 0 } ∧
    exec (.csrwr 0x006) s = .next { s with beaconCnt := s.arg0, rstat := 0x00, result := 0 }

/-- R203: a CSRWR to a read-only CSR finishes with READ_ONLY and changes nothing. -/
def Obligations.ReadOnlyCsrsRefuseWrites : Prop :=
  ∀ (s : State) (n : BitVec 12), s.halted = false → csrListed s.params n.toNat →
    n ≠ 0x000 → n ≠ 0x004 → n ≠ 0x005 → n ≠ 0x006 →
    exec (.csrwr n) s = .next { s with rstat := 0x09, result := 0 }

/-! ## Parameters -/

/-- R7: the parameters State.reset carries have every default the spec gives: the source's literals, little-endian order,
ADOPT and NONE; MAX_PAYLOAD and TXBUF_SIZE follow. That the reset state is the place of the defaults is the model's choice
(notes/assumptions/7.md). -/
def Obligations.ResetParametersHaveTheirDefaults : Prop :=
  let p := State.reset.params
  p.bufSize = 4096 ∧ p.maxPayload = 4060 ∧ p.txbufSize = 4060 ∧ p.nHp = 15 ∧ p.wHp = 0x4000000 ∧ p.nSas = 32 ∧
    p.wSas = 0x100000 ∧ p.byteOrder = .little ∧ p.rxSeqMode = .adopt ∧ p.releaseAlign = .anywhere

/-! ## Window sharing in the SAS pool -/

/-- R184 in the SAS pool, where every tag is MEM (R170): acquiring one base twice shares one slot, programmed with that
base, with count 2; the first release leaves count 1 and the programmed register; the second clears it and frees the slot.
Under RELEASE_ALIGN = BASE the two addresses are slot bases, since only such pointers can be released (R176). -/
def Obligations.AcquiringTwiceSharesOneSasSlot : Prop :=
  ∀ (s : State) (i w b : Nat) (a a' : Word), s.params.wf → WindowInv s → s.halted = false →
    w = s.params.wSas → b = a.toNat - a.toNat % w → a'.toNat / w = a.toNat / w →
    (s.params.releaseAlign = .base → a.toNat % w = 0 ∧ a'.toNat % w = 0) →
    (∀ j < s.params.nSas, ¬ s.holdsSas b j) →
    i < s.params.nSas → (s.sasSlot i).ref = 0 → (∀ j < i, (s.sasSlot j).ref ≠ 0) →
    ∃ t₁ t₂ t₃ t₄ : State,
      exec .wacqSas { s with arg0 := a, arg1 := 0 } = .next t₁ ∧ t₁.rstat = 0x00 ∧
      t₁.sasReg i = programmedSas (BitVec.ofNat 32 b) ∧
      exec .wacqSas { t₁ with arg0 := a' } = .next t₂ ∧ t₂.rstat = 0x00 ∧
      t₂.sasSlots = s.sasSlots.set i ⟨BitVec.ofNat 32 b, 2⟩ ∧ t₂.sasWin = t₁.sasWin ∧
      exec .wrelSas { t₂ with arg0 := t₁.result } = .next t₃ ∧ t₃.rstat = 0x00 ∧
      t₃.sasSlots = s.sasSlots.set i ⟨BitVec.ofNat 32 b, 1⟩ ∧ t₃.sasWin = t₁.sasWin ∧
      t₃.sasReg i = programmedSas (BitVec.ofNat 32 b) ∧
      exec .wrelSas { t₃ with arg0 := t₂.result } = .next t₄ ∧ t₄.rstat = 0x00 ∧
      t₄.sasSlots = s.sasSlots ∧ t₄.sasWin = s.sasWin ∧ t₄.sasReg i = 0
end

