-- ==== Sys2Proof/Laws/Memory.lean ====
section
/-! SUPPORT. The laws of the buffers: read after write, the canonical form, and the words built from bytes. -/

namespace Sys2Proof.Machine

@[simp] theorem Memory.read_nil (a : Nat) : Memory.read [] a = Memory.unlisted := rfl

theorem Memory.read_cons (b : Nat) (x : Byte) (m : Memory) (a : Nat) :
    Memory.read ((b, x) :: m) a = if b = a then x else Memory.read m a := rfl

/-- An offset below every listed one is unlisted. -/
theorem Memory.read_of_lt_all {m : Memory} {a : Nat} (h : ∀ c ∈ m, a < c.1) : Memory.read m a = Memory.unlisted := by
  induction m with
  | nil => rfl
  | cons c m ih =>
    obtain ⟨b, x⟩ := c
    have hb : a < b := h (b, x) (by simp)
    rw [Memory.read_cons, if_neg (by omega)]
    exact ih fun c hc => h c (by simp [hc])

/-- Read after write: the written byte at its offset, the old byte everywhere else. -/
theorem Memory.read_write {size : Nat} {m : Memory} (h : Memory.wf size m) (a : Nat) (v : Byte) (k : Nat) :
    (m.write a v).read k = if k = a then v else m.read k := by
  induction m with
  | nil =>
    simp only [Memory.write]
    split
    · next hv => simp [hv]
    · simp [Memory.read_cons, eq_comm]
  | cons c m ih =>
    obtain ⟨b, x⟩ := c
    have hs := List.pairwise_cons.mp h.1
    have ht : Memory.wf size m := ⟨hs.2, fun c hc => h.2 c (by simp [hc])⟩
    simp only [Memory.write]
    split
    · next hlt =>
      rw [Memory.read_cons, ih ht, Memory.read_cons]
      split <;> split <;> first | rfl | omega
    · next hge =>
      split
      · next heq =>
        subst heq
        have hm : Memory.read m b = Memory.unlisted := Memory.read_of_lt_all fun c hc => hs.1 c hc
        split
        · next hv =>
          by_cases hk : k = b
          · subst hk; simp [hm, hv]
          · simp [hk, Memory.read_cons, Ne.symm hk]
        · by_cases hk : k = b
          · subst hk; simp [Memory.read_cons]
          · simp [hk, Memory.read_cons, Ne.symm hk]
      · next hne =>
        have hab : ∀ c ∈ (b, x) :: m, a < c.1 := by
          intro c hc
          rcases List.mem_cons.mp hc with rfl | hc
          · show a < b; omega
          · have : b < c.1 := hs.1 c hc
            omega
        split
        · next hv =>
          by_cases hk : k = a
          · rw [if_pos hk, hk, hv, Memory.read_of_lt_all hab]
          · rw [if_neg hk]
        · rw [Memory.read_cons]
          by_cases hk : k = a
          · rw [if_pos hk.symm, if_pos hk]
          · rw [if_neg (Ne.symm hk), if_neg hk]

/-- A write names no offset but those listed before and its own. -/
theorem Memory.mem_write {m : Memory} {a : Nat} {v : Byte} {c : Host.Cell} (h : c ∈ m.write a v) :
    c ∈ m ∨ (c = (a, v) ∧ v ≠ Memory.unlisted) := by
  induction m with
  | nil => simp only [Memory.write] at h; split at h <;> simp_all
  | cons d m ih =>
    obtain ⟨b, x⟩ := d
    simp only [Memory.write] at h
    split at h
    · rcases List.mem_cons.mp h with rfl | h
      · simp
      · rcases ih h with h | h <;> simp [h]
    · split at h <;> split at h <;> simp_all <;> tauto

/-- A write inside the buffer keeps the canonical form. -/
theorem Memory.write_wf {size : Nat} {m : Memory} (h : Memory.wf size m) {a : Nat} (ha : a < size) (v : Byte) :
    Memory.wf size (m.write a v) := by
  refine ⟨?_, ?_⟩
  · induction m with
    | nil => simp only [Memory.write]; split <;> simp
    | cons c m ih =>
      obtain ⟨b, x⟩ := c
      have hs := List.pairwise_cons.mp h.1
      have ht : Memory.wf size m := ⟨hs.2, fun c hc => h.2 c (by simp [hc])⟩
      simp only [Memory.write]
      split
      · next hlt =>
        refine List.pairwise_cons.mpr ⟨fun c hc => ?_, ih ht⟩
        rcases Memory.mem_write hc with hc | ⟨rfl, -⟩
        · exact hs.1 c hc
        · exact hlt
      · next hge =>
        split
        · next heq =>
          subst heq
          split
          · exact hs.2
          · exact List.pairwise_cons.mpr ⟨hs.1, hs.2⟩
        · next hne =>
          split
          · exact h.1
          · refine List.pairwise_cons.mpr ⟨fun c hc => ?_, h.1⟩
            rcases List.mem_cons.mp hc with rfl | hc
            · show a < b; omega
            · have : b < c.1 := hs.1 c hc
              show a < c.1; omega
  · intro c hc
    rcases Memory.mem_write hc with hc | ⟨rfl, hv⟩
    · exact h.2 c hc
    · exact ⟨ha, hv⟩

theorem Memory.nil_wf (size : Nat) : Memory.wf size [] := by simp [Memory.wf]

/-- Writing bytes inside the buffer keeps the canonical form. -/
theorem Memory.writeBytes_wf {size : Nat} {m : Memory} (h : Memory.wf size m) (bs : List Byte) {o : Nat}
    (ho : o + bs.length ≤ size) : Memory.wf size (m.writeBytes o bs) := by
  induction bs generalizing m o with
  | nil => exact h
  | cons b bs ih =>
    simp only [List.length_cons] at ho
    exact ih (Memory.write_wf h (by omega) b) (by omega)

/-- Read after a byte sequence was written from offset `o`. -/
theorem Memory.read_writeBytes {size : Nat} {m : Memory} (h : Memory.wf size m) (bs : List Byte) {o : Nat}
    (ho : o + bs.length ≤ size) (k : Nat) :
    (m.writeBytes o bs).read k = if o ≤ k ∧ k < o + bs.length then bs.getD (k - o) Memory.unlisted else m.read k := by
  induction bs generalizing m o with
  | nil => simp [Memory.writeBytes]
  | cons b bs ih =>
    simp only [List.length_cons] at ho
    rw [Memory.writeBytes, ih (Memory.write_wf h (by omega) b) (by omega), Memory.read_write h]
    simp only [List.length_cons]
    by_cases hk : k = o
    · subst hk; simp
    · by_cases hin : o + 1 ≤ k ∧ k < o + 1 + bs.length
      · rw [if_pos hin, if_pos (by omega)]
        obtain ⟨d, rfl⟩ : ∃ d, k = o + 1 + d := ⟨k - (o + 1), by omega⟩
        rw [show o + 1 + d - o = d + 1 by omega, show o + 1 + d - (o + 1) = d by omega, List.getD_cons_succ]
      · rw [if_neg hin, if_neg hk, if_neg (by omega)]

/-- Two sequences written one after the other are their concatenation written at once. -/
theorem Memory.writeBytes_append (m : Memory) (o : Nat) (a b : List Byte) :
    m.writeBytes o (a ++ b) = (m.writeBytes o a).writeBytes (o + a.length) b := by
  induction a generalizing m o with
  | nil => simp [Memory.writeBytes]
  | cons x xs ih =>
    simp only [List.cons_append, Memory.writeBytes, ih, List.length_cons]
    congr 1
    omega

/-- A write elsewhere leaves a word. -/
theorem Memory.read32_write {size : Nat} {m : Memory} (h : Memory.wf size m) {a : Nat} (v : Byte) {o : Nat}
    (ho : a < o ∨ o + 4 ≤ a) (e : ByteOrder) : (m.write a v).read32 e o = m.read32 e o := by
  simp only [Memory.read32]
  rw [Memory.read_write h, Memory.read_write h, Memory.read_write h, Memory.read_write h, if_neg (by omega),
    if_neg (by omega), if_neg (by omega), if_neg (by omega)]

/-- Equal bytes give equal words. -/
theorem Memory.read32_congr {m n : Memory} {o p : Nat} (h : ∀ k < 4, m.read (o + k) = n.read (p + k))
    (e : ByteOrder) : m.read32 e o = n.read32 e p := by
  simp only [Memory.read32]
  rw [show m.read o = n.read p from h 0 (by omega), h 1 (by omega), h 2 (by omega), h 3 (by omega)]

@[simp] theorem Memory.length_bytes (m : Memory) (o n : Nat) : (m.bytes o n).length = n := by
  induction n generalizing o with
  | zero => rfl
  | succ n ih => simp [Memory.bytes, ih]

theorem Memory.getElem_bytes (m : Memory) (o n k : Nat) (h : k < (m.bytes o n).length) :
    (m.bytes o n)[k] = m.read (o + k) := by
  induction n generalizing o k with
  | zero => simp [Memory.bytes] at h
  | succ n ih =>
    cases k with
    | zero => rfl
    | succ k =>
      simp only [Memory.bytes, List.getElem_cons_succ]
      rw [ih]
      congr 1; omega

/-- A byte range is determined by its bytes. -/
theorem Memory.bytes_congr {m m' : Memory} {o n : Nat} (h : ∀ k < n, m.read (o + k) = m'.read (o + k)) :
    m.bytes o n = m'.bytes o n := by
  apply List.ext_getElem (by simp)
  intro k h1 h2
  rw [Memory.getElem_bytes, Memory.getElem_bytes]
  exact h k (by simpa using h1)

end Sys2Proof.Machine

namespace Sys2Proof

/-- Four bytes put together, the first one lowest. -/
theorem toNat_append4 (a b c d : Byte) :
    (d ++ c ++ b ++ a : Word).toNat = a.toNat + 2 ^ 8 * b.toNat + 2 ^ 16 * c.toNat + 2 ^ 24 * d.toNat := by
  rw [show (d ++ c ++ b ++ a : Word).toNat = (d ++ c ++ b).toNat * 2 ^ 8 + a.toNat by
      rw [BitVec.toNat_append, ← Nat.shiftLeft_add_eq_or_of_lt a.isLt, Nat.shiftLeft_eq],
    show (d ++ c ++ b).toNat = (d ++ c).toNat * 2 ^ 8 + b.toNat by
      rw [BitVec.toNat_append, ← Nat.shiftLeft_add_eq_or_of_lt b.isLt, Nat.shiftLeft_eq],
    show (d ++ c).toNat = d.toNat * 2 ^ 8 + c.toNat by
      rw [BitVec.toNat_append, ← Nat.shiftLeft_add_eq_or_of_lt c.isLt, Nat.shiftLeft_eq]]
  omega

/-- A word as the sum of its bytes, in each byte order (R10, R61, R62). -/
theorem toNat_word32 (e : ByteOrder) (a b c d : Byte) :
    (word32 e a b c d).toNat =
      match e with
      | .little => a.toNat + 2 ^ 8 * b.toNat + 2 ^ 16 * c.toNat + 2 ^ 24 * d.toNat
      | .big => d.toNat + 2 ^ 8 * c.toNat + 2 ^ 16 * b.toNat + 2 ^ 24 * a.toNat := by
  cases e
  · exact toNat_append4 a b c d
  · exact toNat_append4 d c b a

/-- Byte `k` of a word, in each byte order (R10, R61, R122). -/
theorem toNat_getD_bytes32 (e : ByteOrder) (v : Word) {k : Nat} (hk : k < 4) :
    ((bytes32 e v).getD k 0).toNat =
      match e with
      | .little => v.toNat / 2 ^ (8 * k) % 2 ^ 8
      | .big => v.toNat / 2 ^ (8 * (3 - k)) % 2 ^ 8 := by
  rcases (by omega : k = 0 ∨ k = 1 ∨ k = 2 ∨ k = 3) with rfl | rfl | rfl | rfl <;> cases e <;>
    simp [bytes32, BitVec.extractLsb'_toNat, Nat.shiftRight_eq_div_pow]

@[simp] theorem length_bytes32 (e : ByteOrder) (v : Word) : (bytes32 e v).length = 4 := by cases e <;> rfl

/-- The bytes of a word, the lowest last, are the word. -/
theorem append4_extract (v : Word) :
    v.extractLsb' 24 8 ++ v.extractLsb' 16 8 ++ v.extractLsb' 8 8 ++ v.extractLsb' 0 8 = v := by
  apply BitVec.eq_of_getLsbD_eq
  intro i hi
  simp only [BitVec.getLsbD_append, BitVec.getLsbD_extractLsb']
  by_cases h1 : i < 8
  · simp [h1]
  · by_cases h2 : i < 16
    · simp [h1, show i - 8 < 8 by omega, show 8 + (i - 8) = i by omega]
    · by_cases h3 : i < 24
      · simp [h1, show ¬ i - 8 < 8 by omega, show i - 8 - 8 < 8 by omega, show 16 + (i - 8 - 8) = i by omega]
      · simp [h1, show ¬ i - 8 < 8 by omega, show ¬ i - 8 - 8 < 8 by omega, show i - 8 - 8 - 8 < 8 by omega,
          show 24 + (i - 8 - 8 - 8) = i by omega]

/-- The bytes of a word, assembled again in the same order, give the word (R62). -/
theorem word32_bytes32 (e : ByteOrder) (v : Word) :
    word32 e ((bytes32 e v).getD 0 0) ((bytes32 e v).getD 1 0) ((bytes32 e v).getD 2 0) ((bytes32 e v).getD 3 0) = v := by
  cases e <;> exact append4_extract v

end Sys2Proof
end

