-- ==== Sys2Proof/Laws/Codec.lean ====
section
/-! SUPPORT. The fields of a byte sequence built from 32-bit fields (spec/30_encoding.md R81, R82). -/

namespace Sys2Proof.Machine

/-- A packet's field is the word of its four bytes. -/
theorem packetField_eq (e : ByteOrder) (pkt : List Byte) (o : Nat) :
    packetField e pkt o = word32 e (pkt.getD o 0) (pkt.getD (o + 1) 0) (pkt.getD (o + 2) 0) (pkt.getD (o + 3) 0) := by
  cases e <;> rfl

/-- A field written with `bytes32` is read back at the offset where it starts. -/
theorem packetField_bytes32 (e : ByteOrder) (a : List Byte) (v : Word) (b : List Byte) :
    packetField e (a ++ (bytes32 e v ++ b)) a.length = v := by
  have g : ∀ k < 4, (a ++ (bytes32 e v ++ b)).getD (a.length + k) 0 = (bytes32 e v).getD k 0 := fun k hk => by
    rw [List.getD_append_right _ _ _ _ (Nat.le_add_right ..), Nat.add_sub_cancel_left,
      List.getD_append _ _ _ _ (by rw [length_bytes32]; exact hk)]
  have g0 : (a ++ (bytes32 e v ++ b)).getD a.length 0 = (bytes32 e v).getD 0 0 := g 0 (by decide)
  rw [packetField_eq, g 3 (by decide), g 2 (by decide), g 1 (by decide), g0]
  exact word32_bytes32 e v

theorem length_flatMap_bytes32 (e : ByteOrder) (vs : List Word) : (vs.flatMap (bytes32 e)).length = 4 * vs.length := by
  induction vs with
  | nil => rfl
  | cons v vs ih => simp [ih]; omega

/-- Field `k` of a sequence that starts with the fields `vs` (R81, R82). -/
theorem packetField_flatMap (e : ByteOrder) (vs : List Word) (b : List Byte) {k : Nat} (hk : k < vs.length) :
    packetField e (vs.flatMap (bytes32 e) ++ b) (4 * k) = vs[k] := by
  have h := packetField_bytes32 e ((vs.take k).flatMap (bytes32 e)) vs[k] ((vs.drop (k + 1)).flatMap (bytes32 e) ++ b)
  rw [length_flatMap_bytes32, List.length_take, Nat.min_eq_left hk.le] at h
  rw [← h]
  congr 1
  conv_lhs => rw [← List.take_append_drop k vs, List.drop_eq_getElem_cons hk]
  simp only [List.flatMap_append, List.flatMap_cons, List.append_assoc]

end Sys2Proof.Machine
end

