-- ==== Sys2Proof/Laws/Decode.lean ====
section
/-! SUPPORT. The decoder and the encoder as arithmetic: each field of a command word, each encoded word, and the CSR map as
ranges of numbers. -/

namespace Sys2Proof

/-- Concatenation as arithmetic: the left part is the high part. -/
theorem toNat_append_eq {m n : Nat} (x : BitVec m) (y : BitVec n) :
    (x ++ y).toNat = x.toNat * 2 ^ n + y.toNat := by
  rw [BitVec.toNat_append, ← Nat.shiftLeft_add_eq_or_of_lt y.isLt, Nat.shiftLeft_eq]

/-! ## Fields of a command word (R87) -/

theorem toNat_cmdOp (w : Word) : (cmdOp w).toNat = w.toNat % 2 ^ 8 := by
  simp [cmdOp, BitVec.extractLsb'_toNat]

theorem toNat_cmdF (w : Word) : (cmdF w).toNat = w.toNat / 2 ^ 8 % 2 ^ 4 := by
  simp [cmdF, BitVec.extractLsb'_toNat, Nat.shiftRight_eq_div_pow]

theorem toNat_cmdFHigh (w : Word) : (cmdFHigh w).toNat = w.toNat / 2 ^ 9 % 2 ^ 3 := by
  simp [cmdFHigh, BitVec.extractLsb'_toNat, Nat.shiftRight_eq_div_pow]

theorem toNat_cmdCsrn (w : Word) : (cmdCsrn w).toNat = w.toNat / 2 ^ 12 % 2 ^ 12 := by
  simp [cmdCsrn, BitVec.extractLsb'_toNat, Nat.shiftRight_eq_div_pow]

theorem toNat_cmdRsv (w : Word) : (cmdRsv w).toNat = w.toNat / 2 ^ 24 := by
  have := w.isLt
  simp [cmdRsv, BitVec.extractLsb'_toNat, Nat.shiftRight_eq_div_pow]
  omega

theorem cmdTag_eq (w : Word) : cmdTag w = if w.toNat / 2 ^ 8 % 2 = 1 then .reg else .mem := by
  simp [cmdTag, BitVec.getLsbD, Nat.testBit, Nat.shiftRight_eq_div_pow, Nat.one_and_eq_mod_two]

/-! ## Encoded words (R88 to R90) -/

theorem toNat_encodeC (op : BitVec 8) : (encodeC op).toNat = op.toNat := by
  unfold encodeC
  rw [show (0#8 ++ 0#12 ++ 0#4 ++ op : Word).toNat = _ from toNat_append_eq (0#8 ++ 0#12 ++ 0#4) op,
    toNat_append_eq, toNat_append_eq]
  simp

theorem toNat_encodeCT (t : Tag) (op : BitVec 8) :
    (encodeCT t op).toNat = (if t = .reg then 2 ^ 8 else 0) + op.toNat := by
  unfold encodeCT
  rw [show (0#8 ++ 0#12 ++ 0#3 ++ t.bit ++ op : Word).toNat = _ from
    toNat_append_eq (0#8 ++ 0#12 ++ 0#3 ++ t.bit) op, toNat_append_eq, toNat_append_eq, toNat_append_eq]
  cases t <;> simp [Tag.bit]

theorem toNat_encodeCC (n : BitVec 12) (op : BitVec 8) : (encodeCC n op).toNat = n.toNat * 2 ^ 12 + op.toNat := by
  unfold encodeCC
  rw [show (0#8 ++ n ++ 0#4 ++ op : Word).toNat = _ from toNat_append_eq (0#8 ++ n ++ 0#4) op,
    toNat_append_eq, toNat_append_eq]
  simp
  omega

/-! ## What each format accepts -/

theorem decodeC_eq_ok {w : Word} {i j : Instr} : decodeC w i = .ok j ↔ cmdF w = 0 ∧ cmdCsrn w = 0 ∧ j = i := by
  simp only [decodeC]
  split
  · simp_all
  · split <;> simp_all [eq_comm]

theorem decodeCT_eq_ok {w : Word} {mk : Tag → Instr} {j : Instr} :
    decodeCT w mk = .ok j ↔ cmdFHigh w = 0 ∧ cmdCsrn w = 0 ∧ j = mk (cmdTag w) := by
  simp only [decodeCT]
  split
  · simp_all
  · split <;> simp_all [eq_comm]

theorem decodeCC_eq_ok {w : Word} {mk : BitVec 12 → Instr} {j : Instr} :
    decodeCC w mk = .ok j ↔ cmdF w = 0 ∧ j = mk (cmdCsrn w) := by
  simp only [decodeCC]
  split <;> simp_all [eq_comm]

/-- Everything a successful decoding of a command word says (R88 to R91): RSV is 0 and the word is one row's. -/
theorem decodeCommand_cases {w : Word} {i : Instr} (h : decodeCommand w = .ok i) :
    cmdRsv w = 0 ∧
    (((cmdOp w).toNat = 0x01 ∧ cmdFHigh w = 0 ∧ cmdCsrn w = 0 ∧ i = .wacqHp (cmdTag w)) ∨
     (cmdF w = 0 ∧ cmdCsrn w = 0 ∧
       (((cmdOp w).toNat = 0x02 ∧ i = .wacqSas) ∨ ((cmdOp w).toNat = 0x03 ∧ i = .wrelHp) ∨
        ((cmdOp w).toNat = 0x04 ∧ i = .wrelSas) ∨ ((cmdOp w).toNat = 0x05 ∧ i = .txbuild) ∨
        ((cmdOp w).toNat = 0x06 ∧ i = .txwr8) ∨ ((cmdOp w).toNat = 0x07 ∧ i = .txwr32) ∨
        ((cmdOp w).toNat = 0x08 ∧ i = .rxack) ∨ ((cmdOp w).toNat = 0x09 ∧ i = .rxrd8) ∨
        ((cmdOp w).toNat = 0x0A ∧ i = .rxrd32))) ∨
     (cmdF w = 0 ∧
       (((cmdOp w).toNat = 0x0B ∧ i = .csrrd (cmdCsrn w)) ∨ ((cmdOp w).toNat = 0x0C ∧ i = .csrwr (cmdCsrn w))))) := by
  simp only [decodeCommand] at h
  split at h
  · cases h
  · next hr =>
    refine ⟨not_not.mp hr, ?_⟩
    split at h
    case h_1 ho => exact .inl ⟨ho, decodeCT_eq_ok.mp h⟩
    case h_2 ho => obtain ⟨hf, hn, rfl⟩ := decodeC_eq_ok.mp h; simp [ho, hf, hn]
    case h_3 ho => obtain ⟨hf, hn, rfl⟩ := decodeC_eq_ok.mp h; simp [ho, hf, hn]
    case h_4 ho => obtain ⟨hf, hn, rfl⟩ := decodeC_eq_ok.mp h; simp [ho, hf, hn]
    case h_5 ho => obtain ⟨hf, hn, rfl⟩ := decodeC_eq_ok.mp h; simp [ho, hf, hn]
    case h_6 ho => obtain ⟨hf, hn, rfl⟩ := decodeC_eq_ok.mp h; simp [ho, hf, hn]
    case h_7 ho => obtain ⟨hf, hn, rfl⟩ := decodeC_eq_ok.mp h; simp [ho, hf, hn]
    case h_8 ho => obtain ⟨hf, hn, rfl⟩ := decodeC_eq_ok.mp h; simp [ho, hf, hn]
    case h_9 ho => obtain ⟨hf, hn, rfl⟩ := decodeC_eq_ok.mp h; simp [ho, hf, hn]
    case h_10 ho => obtain ⟨hf, hn, rfl⟩ := decodeC_eq_ok.mp h; simp [ho, hf, hn]
    case h_11 ho => obtain ⟨hf, rfl⟩ := decodeCC_eq_ok.mp h; simp [ho, hf]
    case h_12 ho => obtain ⟨hf, rfl⟩ := decodeCC_eq_ok.mp h; simp [ho, hf]
    case h_13 => cases h

/-! ## The mask tests of R91 as tests of the fields -/

/-- A mask test compares the masked bits. -/
theorem and_mask_eq_iff {w m p : Word} (hp : p &&& m = p) :
    w &&& m = p ↔ ∀ i < 32, m.getLsbD i = true → w.getLsbD i = p.getLsbD i := by
  constructor
  · intro h i _ hm
    have := congrArg (fun x => x.getLsbD i) h
    simpa only [BitVec.getLsbD_and, hm, Bool.and_true] using this
  · intro h
    apply BitVec.eq_of_getLsbD_eq
    intro i hi
    rw [BitVec.getLsbD_and]
    cases hm : m.getLsbD i with
    | true => rw [h i hi hm, Bool.and_true]
    | false => rw [Bool.and_false, ← hp, BitVec.getLsbD_and, hm, Bool.and_false]

/-- A field has a value when each of its bits has. -/
theorem extract_eq_iff (w : Word) (lo : Nat) {k : Nat} (v : BitVec k) :
    w.extractLsb' lo k = v ↔ ∀ i < k, w.getLsbD (lo + i) = v.getLsbD i := by
  constructor
  · rintro rfl i hi; rw [BitVec.getLsbD_extractLsb', decide_eq_true hi, Bool.true_and]
  · intro h
    apply BitVec.eq_of_getLsbD_eq
    intro i hi
    rw [BitVec.getLsbD_extractLsb', decide_eq_true hi, Bool.true_and]; exact h i hi

/-- The row of format CT (R89, R91). -/
theorem hits_ct (w : Word) :
    w &&& 0xFFFFFEFF = 1 ↔ cmdRsv w = 0 ∧ cmdFHigh w = 0 ∧ cmdCsrn w = 0 ∧ cmdOp w = 1 := by
  rw [and_mask_eq_iff (by decide), cmdRsv, cmdCsrn, cmdFHigh, cmdOp, extract_eq_iff, extract_eq_iff, extract_eq_iff,
    extract_eq_iff]
  constructor
  · intro h
    refine ⟨?_, ?_, ?_, ?_⟩ <;> intro i hi
    · rw [h (24 + i) (by omega) (by revert i; decide)]; revert i; decide
    · rw [h (9 + i) (by omega) (by revert i; decide)]; revert i; decide
    · rw [h (12 + i) (by omega) (by revert i; decide)]; revert i; decide
    · rw [h (0 + i) (by omega) (by revert i; decide)]; revert i; decide
  · rintro ⟨h1, h2, h3, h4⟩ i hi hm
    have hcase : i < 8 ∨ i = 8 ∨ (9 ≤ i ∧ i < 12) ∨ (12 ≤ i ∧ i < 24) ∨ 24 ≤ i := by omega
    rcases hcase with h | rfl | h | h | h
    · have h0 := h4 i h
      rw [Nat.zero_add] at h0
      rw [h0]
      clear h0 hi hm h1 h2 h3 h4; revert i; decide
    · exact absurd hm (by decide)
    · obtain ⟨d, rfl⟩ : ∃ d, i = 9 + d := ⟨i - 9, by omega⟩
      rw [h2 d (by omega)]; have hd : d < 3 := by omega
      clear h hi hm h1 h2 h3 h4; revert d; decide
    · obtain ⟨d, rfl⟩ : ∃ d, i = 12 + d := ⟨i - 12, by omega⟩
      rw [h3 d (by omega)]; have hd : d < 12 := by omega
      clear h hi hm h1 h2 h3 h4; revert d; decide
    · obtain ⟨d, rfl⟩ : ∃ d, i = 24 + d := ⟨i - 24, by omega⟩
      rw [h1 d (by omega)]; have hd : d < 8 := by omega
      clear h hi hm h1 h2 h3 h4; revert d; decide

/-- A row of format C (R88, R91), with opcode `op`. -/
theorem hits_c (w : Word) (op : BitVec 8) :
    w &&& 0xFFFFFFFF = op.setWidth 32 ↔ cmdRsv w = 0 ∧ cmdF w = 0 ∧ cmdCsrn w = 0 ∧ cmdOp w = op := by
  have ho := op.isLt
  have hw := w.isLt
  rw [show (0xFFFFFFFF : Word) = BitVec.allOnes 32 from rfl, BitVec.and_allOnes, ← BitVec.toNat_inj, ← BitVec.toNat_inj,
    ← BitVec.toNat_inj, ← BitVec.toNat_inj, ← BitVec.toNat_inj, toNat_cmdRsv, toNat_cmdF, toNat_cmdCsrn, toNat_cmdOp]
  simp
  omega

/-- A row of format CC (R90, R91), with opcode `op`. -/
theorem hits_cc (w : Word) (op : BitVec 8) :
    w &&& 0xFF000FFF = op.setWidth 32 ↔ cmdRsv w = 0 ∧ cmdF w = 0 ∧ cmdOp w = op := by
  have hop : op.setWidth 32 &&& 0xFF000FFF = op.setWidth 32 := by revert op; decide
  rw [and_mask_eq_iff hop, cmdRsv, cmdF, cmdOp, extract_eq_iff, extract_eq_iff, extract_eq_iff]
  constructor
  · intro h
    refine ⟨?_, ?_, ?_⟩ <;> intro i hi
    · rw [h (24 + i) (by omega) (by revert i; decide), BitVec.getLsbD_setWidth, BitVec.getLsbD_of_ge op _ (by omega)]
      simp
    · rw [h (8 + i) (by omega) (by revert i; decide), BitVec.getLsbD_setWidth, BitVec.getLsbD_of_ge op _ (by omega)]
      simp
    · rw [h (0 + i) (by omega) (by revert i; decide), BitVec.getLsbD_setWidth, Nat.zero_add]
      simp; omega
  · rintro ⟨h1, h2, h3⟩ i hi hm
    have hcase : i < 8 ∨ (8 ≤ i ∧ i < 12) ∨ (12 ≤ i ∧ i < 24) ∨ 24 ≤ i := by omega
    rw [BitVec.getLsbD_setWidth, decide_eq_true hi, Bool.true_and]
    rcases hcase with h | h | h | h
    · rw [show i = 0 + i by omega, h3 i h, Nat.zero_add]
    · obtain ⟨d, rfl⟩ : ∃ d, i = 8 + d := ⟨i - 8, by omega⟩
      rw [h2 d (by omega), BitVec.getLsbD_of_ge op _ (by omega)]; simp
    · obtain ⟨d, rfl⟩ : ∃ d, i = 12 + d := ⟨i - 12, by omega⟩
      have hd : d < 12 := by omega
      have hz : ∀ e < 12, (0xFF000FFF : Word).getLsbD (12 + e) = false := by decide
      rw [hz d hd] at hm
      cases hm
    · obtain ⟨d, rfl⟩ : ∃ d, i = 24 + d := ⟨i - 24, by omega⟩
      rw [h1 d (by omega), BitVec.getLsbD_of_ge op _ (by omega)]; simp

/-! ## The CSR map (R40) -/

theorem csrBank_eq_none {n lo k : Nat} {mk : Nat → Csr} :
    csrBank n lo k mk = none ↔ ¬ (lo ≤ n ∧ n < lo + k) := by
  simp only [csrBank]; split <;> simp_all

theorem csrBank_eq_some {n lo k : Nat} {mk : Nat → Csr} {c : Csr} :
    csrBank n lo k mk = some c ↔ ∃ i < k, n = lo + i ∧ mk i = c := by
  simp only [csrBank]
  split
  · next h =>
    constructor
    · intro hc; exact ⟨n - lo, by omega, by omega, Option.some.inj hc⟩
    · rintro ⟨i, hi, hn, rfl⟩
      rw [show n - lo = i by omega]
  · next h =>
    simp only [reduceCtorEq, false_iff]
    rintro ⟨i, hi, hn, -⟩
    exact h ⟨by omega, by omega⟩

/-- A number is reserved exactly when it lies in none of R40's ranges (R49). -/
theorem csrOfNumber_eq_none {p : Params} {n : BitVec 12} : csrOfNumber p n = none ↔ ¬ csrListed p n.toNat := by
  simp only [csrOfNumber, csrListed]
  split
  case h_8 h0 h1 h2 h3 h4 h5 h6 =>
    simp only [Option.or_eq_none_iff, csrBank_eq_none]
    simp only [imp_false] at h0 h1 h2 h3 h4 h5 h6
    constructor <;> intro h <;> omega
  all_goals simp_all

/-- A CSR of R40's table: its index, if it has one, is below N_HP or N_SAS. -/
def Csr.Present (p : Params) : Csr → Prop
  | .ctrl | .status | .rxRemain | .rxPlen | .rxExpect | .txSent | .beaconCnt => True
  | .hpSlotBaseLo i | .hpSlotBaseHi i | .hpSlotTag i | .hpSlotRef i | .hpWinLo i | .hpWinHi i => i < p.nHp
  | .sasSlotBase i | .sasSlotRef i | .sasWin i => i < p.nSas

/-- The CSR a number names is one of the table, and has that number. -/
theorem csrOfNumber_some {p : Params} {n : BitVec 12} {c : Csr} (h : csrOfNumber p n = some c) :
    n.toNat = c.number ∧ c.Present p := by
  simp only [csrOfNumber] at h
  split at h
  case h_8 =>
    simp only [Option.or_eq_some_iff, csrBank_eq_none, csrBank_eq_some] at h
    rcases h with ⟨i, hi, hn, rfl⟩ | ⟨-, ⟨i, hi, hn, rfl⟩ | ⟨-, ⟨i, hi, hn, rfl⟩ | ⟨-, ⟨i, hi, hn, rfl⟩ |
      ⟨-, ⟨i, hi, hn, rfl⟩ | ⟨-, ⟨i, hi, hn, rfl⟩ | ⟨-, ⟨i, hi, hn, rfl⟩ | ⟨-, ⟨i, hi, hn, rfl⟩ |
      ⟨-, i, hi, hn, rfl⟩⟩⟩⟩⟩⟩⟩⟩ <;> exact ⟨hn, hi⟩
  all_goals (obtain rfl := Option.some.inj h; exact ⟨by assumption, trivial⟩)

/-- With at most 32 slots a pool, as R40 assumes, the numbers of the table are distinct. -/
theorem Csr.number_inj {p : Params} (h1 : p.nHp ≤ 32) (h2 : p.nSas ≤ 32) {c d : Csr} (hc : c.Present p)
    (hd : d.Present p) (h : c.number = d.number) : c = d := by
  cases c <;> cases d <;> simp only [Csr.number, Csr.Present] at h hc hd <;> first
    | rfl
    | (exfalso; omega)
    | (congr 1; omega)

theorem Csr.number_listed {p : Params} {c : Csr} (hc : c.Present p) : csrListed p c.number := by
  cases c <;> simp only [Csr.number, csrListed, Csr.Present] at * <;> omega

/-- A number names a CSR of the table exactly when it is the CSR's number. -/
theorem csrOfNumber_eq_some {p : Params} (h1 : p.nHp ≤ 32) (h2 : p.nSas ≤ 32) {n : BitVec 12} {c : Csr} :
    csrOfNumber p n = some c ↔ n.toNat = c.number ∧ c.Present p := by
  refine ⟨csrOfNumber_some, fun ⟨hn, hc⟩ => ?_⟩
  cases h : csrOfNumber p n with
  | none => exact absurd (hn ▸ Csr.number_listed hc) (csrOfNumber_eq_none.mp h)
  | some d =>
    obtain ⟨hd, hp⟩ := csrOfNumber_some h
    rw [Csr.number_inj h1 h2 hp hc (hd.symm.trans hn)]

end Sys2Proof
end

