-- ==== Sys2Proof/Laws/State.lean ====
section
/-! SUPPORT. What each update of the state leaves in each field, one lemma per field and per accessor an update leaves alone, so that
no proof unfolds a record update. -/

namespace Sys2Proof.Machine

variable (s : State)

/-! ## State.finish -/

@[simp] theorem State.finish_params (c : Status) (v : Word) : (s.finish c v).params = s.params := rfl
@[simp] theorem State.finish_connected (c : Status) (v : Word) : (s.finish c v).connected = s.connected := rfl
@[simp] theorem State.finish_txSent (c : Status) (v : Word) : (s.finish c v).txSent = s.txSent := rfl
@[simp] theorem State.finish_rxExpect (c : Status) (v : Word) : (s.finish c v).rxExpect = s.rxExpect := rfl
@[simp] theorem State.finish_beaconCnt (c : Status) (v : Word) : (s.finish c v).beaconCnt = s.beaconCnt := rfl
@[simp] theorem State.finish_halted (c : Status) (v : Word) : (s.finish c v).halted = s.halted := rfl
@[simp] theorem State.finish_rxState (c : Status) (v : Word) : (s.finish c v).rxState = s.rxState := rfl
@[simp] theorem State.finish_rxRemain (c : Status) (v : Word) : (s.finish c v).rxRemain = s.rxRemain := rfl
@[simp] theorem State.finish_rxPlen (c : Status) (v : Word) : (s.finish c v).rxPlen = s.rxPlen := rfl
@[simp] theorem State.finish_pktReady (c : Status) (v : Word) : (s.finish c v).pktReady = s.pktReady := rfl
@[simp] theorem State.finish_rxbuf (c : Status) (v : Word) : (s.finish c v).rxbuf = s.rxbuf := rfl
@[simp] theorem State.finish_txbuf (c : Status) (v : Word) : (s.finish c v).txbuf = s.txbuf := rfl
@[simp] theorem State.finish_hpSlots (c : Status) (v : Word) : (s.finish c v).hpSlots = s.hpSlots := rfl
@[simp] theorem State.finish_sasSlots (c : Status) (v : Word) : (s.finish c v).sasSlots = s.sasSlots := rfl
@[simp] theorem State.finish_hpWin (c : Status) (v : Word) : (s.finish c v).hpWin = s.hpWin := rfl
@[simp] theorem State.finish_sasWin (c : Status) (v : Word) : (s.finish c v).sasWin = s.sasWin := rfl
@[simp] theorem State.finish_cmd (c : Status) (v : Word) : (s.finish c v).cmd = s.cmd := rfl
@[simp] theorem State.finish_arg0 (c : Status) (v : Word) : (s.finish c v).arg0 = s.arg0 := rfl
@[simp] theorem State.finish_arg1 (c : Status) (v : Word) : (s.finish c v).arg1 = s.arg1 := rfl
@[simp] theorem State.finish_arg2 (c : Status) (v : Word) : (s.finish c v).arg2 = s.arg2 := rfl
@[simp] theorem State.finish_arg3 (c : Status) (v : Word) : (s.finish c v).arg3 = s.arg3 := rfl
@[simp] theorem State.finish_result (c : Status) (v : Word) : (s.finish c v).result = v := rfl
@[simp] theorem State.finish_rstat (c : Status) (v : Word) : (s.finish c v).rstat = c.code := rfl
@[simp] theorem State.finish_txout (c : Status) (v : Word) : (s.finish c v).txout = s.txout := rfl
@[simp] theorem State.finish_txTaken (c : Status) (v : Word) : (s.finish c v).txTaken = s.txTaken := rfl
@[simp] theorem State.finish_nowMs (c : Status) (v : Word) : (s.finish c v).nowMs = s.nowMs := rfl
@[simp] theorem State.finish_rxLine (c : Status) (v : Word) : (s.finish c v).rxLine = s.rxLine := rfl
@[simp] theorem State.finish_schedule (c : Status) (v : Word) : (s.finish c v).schedule = s.schedule := rfl
@[simp] theorem State.finish_extOut (c : Status) (v : Word) : (s.finish c v).extOut = s.extOut := rfl
@[simp] theorem State.finish_hpSlot (c : Status) (v : Word) (k : Nat) : (s.finish c v).hpSlot k = s.hpSlot k := rfl
@[simp] theorem State.finish_sasSlot (c : Status) (v : Word) (k : Nat) : (s.finish c v).sasSlot k = s.sasSlot k := rfl
@[simp] theorem State.finish_hpReg (c : Status) (v : Word) (k : Nat) : (s.finish c v).hpReg k = s.hpReg k := rfl
@[simp] theorem State.finish_sasReg (c : Status) (v : Word) (k : Nat) : (s.finish c v).sasReg k = s.sasReg k := rfl
@[simp] theorem State.finish_rxField (c : Status) (v : Word) (o : Nat) : (s.finish c v).rxField o = s.rxField o := rfl

/-! ## State.emit -/

@[simp] theorem State.emit_params (x : List Byte) : (s.emit x).params = s.params := rfl
@[simp] theorem State.emit_connected (x : List Byte) : (s.emit x).connected = s.connected := rfl
@[simp] theorem State.emit_txSent (x : List Byte) : (s.emit x).txSent = s.txSent := rfl
@[simp] theorem State.emit_rxExpect (x : List Byte) : (s.emit x).rxExpect = s.rxExpect := rfl
@[simp] theorem State.emit_beaconCnt (x : List Byte) : (s.emit x).beaconCnt = s.beaconCnt := rfl
@[simp] theorem State.emit_halted (x : List Byte) : (s.emit x).halted = s.halted := rfl
@[simp] theorem State.emit_rxState (x : List Byte) : (s.emit x).rxState = s.rxState := rfl
@[simp] theorem State.emit_rxRemain (x : List Byte) : (s.emit x).rxRemain = s.rxRemain := rfl
@[simp] theorem State.emit_rxPlen (x : List Byte) : (s.emit x).rxPlen = s.rxPlen := rfl
@[simp] theorem State.emit_pktReady (x : List Byte) : (s.emit x).pktReady = s.pktReady := rfl
@[simp] theorem State.emit_rxbuf (x : List Byte) : (s.emit x).rxbuf = s.rxbuf := rfl
@[simp] theorem State.emit_txbuf (x : List Byte) : (s.emit x).txbuf = s.txbuf := rfl
@[simp] theorem State.emit_hpSlots (x : List Byte) : (s.emit x).hpSlots = s.hpSlots := rfl
@[simp] theorem State.emit_sasSlots (x : List Byte) : (s.emit x).sasSlots = s.sasSlots := rfl
@[simp] theorem State.emit_hpWin (x : List Byte) : (s.emit x).hpWin = s.hpWin := rfl
@[simp] theorem State.emit_sasWin (x : List Byte) : (s.emit x).sasWin = s.sasWin := rfl
@[simp] theorem State.emit_cmd (x : List Byte) : (s.emit x).cmd = s.cmd := rfl
@[simp] theorem State.emit_arg0 (x : List Byte) : (s.emit x).arg0 = s.arg0 := rfl
@[simp] theorem State.emit_arg1 (x : List Byte) : (s.emit x).arg1 = s.arg1 := rfl
@[simp] theorem State.emit_arg2 (x : List Byte) : (s.emit x).arg2 = s.arg2 := rfl
@[simp] theorem State.emit_arg3 (x : List Byte) : (s.emit x).arg3 = s.arg3 := rfl
@[simp] theorem State.emit_result (x : List Byte) : (s.emit x).result = s.result := rfl
@[simp] theorem State.emit_rstat (x : List Byte) : (s.emit x).rstat = s.rstat := rfl
@[simp] theorem State.emit_txout (x : List Byte) : (s.emit x).txout = s.txout ++ x := rfl
@[simp] theorem State.emit_txTaken (x : List Byte) : (s.emit x).txTaken = s.txTaken := rfl
@[simp] theorem State.emit_nowMs (x : List Byte) : (s.emit x).nowMs = s.nowMs := rfl
@[simp] theorem State.emit_rxLine (x : List Byte) : (s.emit x).rxLine = s.rxLine := rfl
@[simp] theorem State.emit_schedule (x : List Byte) : (s.emit x).schedule = s.schedule := rfl
@[simp] theorem State.emit_extOut (x : List Byte) : (s.emit x).extOut = s.extOut := rfl
@[simp] theorem State.emit_hpSlot (x : List Byte) (k : Nat) : (s.emit x).hpSlot k = s.hpSlot k := rfl
@[simp] theorem State.emit_sasSlot (x : List Byte) (k : Nat) : (s.emit x).sasSlot k = s.sasSlot k := rfl
@[simp] theorem State.emit_hpReg (x : List Byte) (k : Nat) : (s.emit x).hpReg k = s.hpReg k := rfl
@[simp] theorem State.emit_sasReg (x : List Byte) (k : Nat) : (s.emit x).sasReg k = s.sasReg k := rfl
@[simp] theorem State.emit_rxField (x : List Byte) (o : Nat) : (s.emit x).rxField o = s.rxField o := rfl

/-! ## State.present -/

@[simp] theorem State.present_params (c : Command) : (s.present c).params = s.params := rfl
@[simp] theorem State.present_connected (c : Command) : (s.present c).connected = s.connected := rfl
@[simp] theorem State.present_txSent (c : Command) : (s.present c).txSent = s.txSent := rfl
@[simp] theorem State.present_rxExpect (c : Command) : (s.present c).rxExpect = s.rxExpect := rfl
@[simp] theorem State.present_beaconCnt (c : Command) : (s.present c).beaconCnt = s.beaconCnt := rfl
@[simp] theorem State.present_halted (c : Command) : (s.present c).halted = s.halted := rfl
@[simp] theorem State.present_rxState (c : Command) : (s.present c).rxState = s.rxState := rfl
@[simp] theorem State.present_rxRemain (c : Command) : (s.present c).rxRemain = s.rxRemain := rfl
@[simp] theorem State.present_rxPlen (c : Command) : (s.present c).rxPlen = s.rxPlen := rfl
@[simp] theorem State.present_pktReady (c : Command) : (s.present c).pktReady = s.pktReady := rfl
@[simp] theorem State.present_rxbuf (c : Command) : (s.present c).rxbuf = s.rxbuf := rfl
@[simp] theorem State.present_txbuf (c : Command) : (s.present c).txbuf = s.txbuf := rfl
@[simp] theorem State.present_hpSlots (c : Command) : (s.present c).hpSlots = s.hpSlots := rfl
@[simp] theorem State.present_sasSlots (c : Command) : (s.present c).sasSlots = s.sasSlots := rfl
@[simp] theorem State.present_hpWin (c : Command) : (s.present c).hpWin = s.hpWin := rfl
@[simp] theorem State.present_sasWin (c : Command) : (s.present c).sasWin = s.sasWin := rfl
@[simp] theorem State.present_cmd (c : Command) : (s.present c).cmd = c.cmd := rfl
@[simp] theorem State.present_arg0 (c : Command) : (s.present c).arg0 = c.arg0 := rfl
@[simp] theorem State.present_arg1 (c : Command) : (s.present c).arg1 = c.arg1 := rfl
@[simp] theorem State.present_arg2 (c : Command) : (s.present c).arg2 = c.arg2 := rfl
@[simp] theorem State.present_arg3 (c : Command) : (s.present c).arg3 = c.arg3 := rfl
@[simp] theorem State.present_result (c : Command) : (s.present c).result = s.result := rfl
@[simp] theorem State.present_rstat (c : Command) : (s.present c).rstat = s.rstat := rfl
@[simp] theorem State.present_txout (c : Command) : (s.present c).txout = s.txout := rfl
@[simp] theorem State.present_txTaken (c : Command) : (s.present c).txTaken = s.txTaken := rfl
@[simp] theorem State.present_nowMs (c : Command) : (s.present c).nowMs = c.nowMs := rfl
@[simp] theorem State.present_rxLine (c : Command) : (s.present c).rxLine = s.rxLine := rfl
@[simp] theorem State.present_schedule (c : Command) : (s.present c).schedule = s.schedule := rfl
@[simp] theorem State.present_extOut (c : Command) : (s.present c).extOut = s.extOut := rfl
@[simp] theorem State.present_hpSlot (c : Command) (k : Nat) : (s.present c).hpSlot k = s.hpSlot k := rfl
@[simp] theorem State.present_sasSlot (c : Command) (k : Nat) : (s.present c).sasSlot k = s.sasSlot k := rfl
@[simp] theorem State.present_hpReg (c : Command) (k : Nat) : (s.present c).hpReg k = s.hpReg k := rfl
@[simp] theorem State.present_sasReg (c : Command) (k : Nat) : (s.present c).sasReg k = s.sasReg k := rfl
@[simp] theorem State.present_rxField (c : Command) (o : Nat) : (s.present c).rxField o = s.rxField o := rfl

/-! ## State.setHpSlot -/

@[simp] theorem State.setHpSlot_params (i : Nat) (x : HpSlot) : (s.setHpSlot i x).params = s.params := rfl
@[simp] theorem State.setHpSlot_connected (i : Nat) (x : HpSlot) : (s.setHpSlot i x).connected = s.connected := rfl
@[simp] theorem State.setHpSlot_txSent (i : Nat) (x : HpSlot) : (s.setHpSlot i x).txSent = s.txSent := rfl
@[simp] theorem State.setHpSlot_rxExpect (i : Nat) (x : HpSlot) : (s.setHpSlot i x).rxExpect = s.rxExpect := rfl
@[simp] theorem State.setHpSlot_beaconCnt (i : Nat) (x : HpSlot) : (s.setHpSlot i x).beaconCnt = s.beaconCnt := rfl
@[simp] theorem State.setHpSlot_halted (i : Nat) (x : HpSlot) : (s.setHpSlot i x).halted = s.halted := rfl
@[simp] theorem State.setHpSlot_rxState (i : Nat) (x : HpSlot) : (s.setHpSlot i x).rxState = s.rxState := rfl
@[simp] theorem State.setHpSlot_rxRemain (i : Nat) (x : HpSlot) : (s.setHpSlot i x).rxRemain = s.rxRemain := rfl
@[simp] theorem State.setHpSlot_rxPlen (i : Nat) (x : HpSlot) : (s.setHpSlot i x).rxPlen = s.rxPlen := rfl
@[simp] theorem State.setHpSlot_pktReady (i : Nat) (x : HpSlot) : (s.setHpSlot i x).pktReady = s.pktReady := rfl
@[simp] theorem State.setHpSlot_rxbuf (i : Nat) (x : HpSlot) : (s.setHpSlot i x).rxbuf = s.rxbuf := rfl
@[simp] theorem State.setHpSlot_txbuf (i : Nat) (x : HpSlot) : (s.setHpSlot i x).txbuf = s.txbuf := rfl
@[simp] theorem State.setHpSlot_hpSlots (i : Nat) (x : HpSlot) : (s.setHpSlot i x).hpSlots = s.hpSlots.set i x := rfl
@[simp] theorem State.setHpSlot_sasSlots (i : Nat) (x : HpSlot) : (s.setHpSlot i x).sasSlots = s.sasSlots := rfl
@[simp] theorem State.setHpSlot_hpWin (i : Nat) (x : HpSlot) : (s.setHpSlot i x).hpWin = s.hpWin := rfl
@[simp] theorem State.setHpSlot_sasWin (i : Nat) (x : HpSlot) : (s.setHpSlot i x).sasWin = s.sasWin := rfl
@[simp] theorem State.setHpSlot_cmd (i : Nat) (x : HpSlot) : (s.setHpSlot i x).cmd = s.cmd := rfl
@[simp] theorem State.setHpSlot_arg0 (i : Nat) (x : HpSlot) : (s.setHpSlot i x).arg0 = s.arg0 := rfl
@[simp] theorem State.setHpSlot_arg1 (i : Nat) (x : HpSlot) : (s.setHpSlot i x).arg1 = s.arg1 := rfl
@[simp] theorem State.setHpSlot_arg2 (i : Nat) (x : HpSlot) : (s.setHpSlot i x).arg2 = s.arg2 := rfl
@[simp] theorem State.setHpSlot_arg3 (i : Nat) (x : HpSlot) : (s.setHpSlot i x).arg3 = s.arg3 := rfl
@[simp] theorem State.setHpSlot_result (i : Nat) (x : HpSlot) : (s.setHpSlot i x).result = s.result := rfl
@[simp] theorem State.setHpSlot_rstat (i : Nat) (x : HpSlot) : (s.setHpSlot i x).rstat = s.rstat := rfl
@[simp] theorem State.setHpSlot_txout (i : Nat) (x : HpSlot) : (s.setHpSlot i x).txout = s.txout := rfl
@[simp] theorem State.setHpSlot_txTaken (i : Nat) (x : HpSlot) : (s.setHpSlot i x).txTaken = s.txTaken := rfl
@[simp] theorem State.setHpSlot_nowMs (i : Nat) (x : HpSlot) : (s.setHpSlot i x).nowMs = s.nowMs := rfl
@[simp] theorem State.setHpSlot_rxLine (i : Nat) (x : HpSlot) : (s.setHpSlot i x).rxLine = s.rxLine := rfl
@[simp] theorem State.setHpSlot_schedule (i : Nat) (x : HpSlot) : (s.setHpSlot i x).schedule = s.schedule := rfl
@[simp] theorem State.setHpSlot_extOut (i : Nat) (x : HpSlot) : (s.setHpSlot i x).extOut = s.extOut := rfl
@[simp] theorem State.setHpSlot_sasSlot (i : Nat) (x : HpSlot) (k : Nat) : (s.setHpSlot i x).sasSlot k = s.sasSlot k := rfl
@[simp] theorem State.setHpSlot_hpReg (i : Nat) (x : HpSlot) (k : Nat) : (s.setHpSlot i x).hpReg k = s.hpReg k := rfl
@[simp] theorem State.setHpSlot_sasReg (i : Nat) (x : HpSlot) (k : Nat) : (s.setHpSlot i x).sasReg k = s.sasReg k := rfl
@[simp] theorem State.setHpSlot_rxField (i : Nat) (x : HpSlot) (o : Nat) : (s.setHpSlot i x).rxField o = s.rxField o := rfl

/-! ## State.setSasSlot -/

@[simp] theorem State.setSasSlot_params (i : Nat) (x : SasSlot) : (s.setSasSlot i x).params = s.params := rfl
@[simp] theorem State.setSasSlot_connected (i : Nat) (x : SasSlot) : (s.setSasSlot i x).connected = s.connected := rfl
@[simp] theorem State.setSasSlot_txSent (i : Nat) (x : SasSlot) : (s.setSasSlot i x).txSent = s.txSent := rfl
@[simp] theorem State.setSasSlot_rxExpect (i : Nat) (x : SasSlot) : (s.setSasSlot i x).rxExpect = s.rxExpect := rfl
@[simp] theorem State.setSasSlot_beaconCnt (i : Nat) (x : SasSlot) : (s.setSasSlot i x).beaconCnt = s.beaconCnt := rfl
@[simp] theorem State.setSasSlot_halted (i : Nat) (x : SasSlot) : (s.setSasSlot i x).halted = s.halted := rfl
@[simp] theorem State.setSasSlot_rxState (i : Nat) (x : SasSlot) : (s.setSasSlot i x).rxState = s.rxState := rfl
@[simp] theorem State.setSasSlot_rxRemain (i : Nat) (x : SasSlot) : (s.setSasSlot i x).rxRemain = s.rxRemain := rfl
@[simp] theorem State.setSasSlot_rxPlen (i : Nat) (x : SasSlot) : (s.setSasSlot i x).rxPlen = s.rxPlen := rfl
@[simp] theorem State.setSasSlot_pktReady (i : Nat) (x : SasSlot) : (s.setSasSlot i x).pktReady = s.pktReady := rfl
@[simp] theorem State.setSasSlot_rxbuf (i : Nat) (x : SasSlot) : (s.setSasSlot i x).rxbuf = s.rxbuf := rfl
@[simp] theorem State.setSasSlot_txbuf (i : Nat) (x : SasSlot) : (s.setSasSlot i x).txbuf = s.txbuf := rfl
@[simp] theorem State.setSasSlot_hpSlots (i : Nat) (x : SasSlot) : (s.setSasSlot i x).hpSlots = s.hpSlots := rfl
@[simp] theorem State.setSasSlot_sasSlots (i : Nat) (x : SasSlot) : (s.setSasSlot i x).sasSlots = s.sasSlots.set i x := rfl
@[simp] theorem State.setSasSlot_hpWin (i : Nat) (x : SasSlot) : (s.setSasSlot i x).hpWin = s.hpWin := rfl
@[simp] theorem State.setSasSlot_sasWin (i : Nat) (x : SasSlot) : (s.setSasSlot i x).sasWin = s.sasWin := rfl
@[simp] theorem State.setSasSlot_cmd (i : Nat) (x : SasSlot) : (s.setSasSlot i x).cmd = s.cmd := rfl
@[simp] theorem State.setSasSlot_arg0 (i : Nat) (x : SasSlot) : (s.setSasSlot i x).arg0 = s.arg0 := rfl
@[simp] theorem State.setSasSlot_arg1 (i : Nat) (x : SasSlot) : (s.setSasSlot i x).arg1 = s.arg1 := rfl
@[simp] theorem State.setSasSlot_arg2 (i : Nat) (x : SasSlot) : (s.setSasSlot i x).arg2 = s.arg2 := rfl
@[simp] theorem State.setSasSlot_arg3 (i : Nat) (x : SasSlot) : (s.setSasSlot i x).arg3 = s.arg3 := rfl
@[simp] theorem State.setSasSlot_result (i : Nat) (x : SasSlot) : (s.setSasSlot i x).result = s.result := rfl
@[simp] theorem State.setSasSlot_rstat (i : Nat) (x : SasSlot) : (s.setSasSlot i x).rstat = s.rstat := rfl
@[simp] theorem State.setSasSlot_txout (i : Nat) (x : SasSlot) : (s.setSasSlot i x).txout = s.txout := rfl
@[simp] theorem State.setSasSlot_txTaken (i : Nat) (x : SasSlot) : (s.setSasSlot i x).txTaken = s.txTaken := rfl
@[simp] theorem State.setSasSlot_nowMs (i : Nat) (x : SasSlot) : (s.setSasSlot i x).nowMs = s.nowMs := rfl
@[simp] theorem State.setSasSlot_rxLine (i : Nat) (x : SasSlot) : (s.setSasSlot i x).rxLine = s.rxLine := rfl
@[simp] theorem State.setSasSlot_schedule (i : Nat) (x : SasSlot) : (s.setSasSlot i x).schedule = s.schedule := rfl
@[simp] theorem State.setSasSlot_extOut (i : Nat) (x : SasSlot) : (s.setSasSlot i x).extOut = s.extOut := rfl
@[simp] theorem State.setSasSlot_hpSlot (i : Nat) (x : SasSlot) (k : Nat) : (s.setSasSlot i x).hpSlot k = s.hpSlot k := rfl
@[simp] theorem State.setSasSlot_hpReg (i : Nat) (x : SasSlot) (k : Nat) : (s.setSasSlot i x).hpReg k = s.hpReg k := rfl
@[simp] theorem State.setSasSlot_sasReg (i : Nat) (x : SasSlot) (k : Nat) : (s.setSasSlot i x).sasReg k = s.sasReg k := rfl
@[simp] theorem State.setSasSlot_rxField (i : Nat) (x : SasSlot) (o : Nat) : (s.setSasSlot i x).rxField o = s.rxField o := rfl

/-! ## State.awaitHeader -/

@[simp] theorem State.awaitHeader_params : (s.awaitHeader).params = s.params := rfl
@[simp] theorem State.awaitHeader_connected : (s.awaitHeader).connected = s.connected := rfl
@[simp] theorem State.awaitHeader_txSent : (s.awaitHeader).txSent = s.txSent := rfl
@[simp] theorem State.awaitHeader_rxExpect : (s.awaitHeader).rxExpect = s.rxExpect := rfl
@[simp] theorem State.awaitHeader_beaconCnt : (s.awaitHeader).beaconCnt = s.beaconCnt := rfl
@[simp] theorem State.awaitHeader_halted : (s.awaitHeader).halted = s.halted := rfl
@[simp] theorem State.awaitHeader_rxState : (s.awaitHeader).rxState = .header := rfl
@[simp] theorem State.awaitHeader_rxRemain : (s.awaitHeader).rxRemain = 28 := rfl
@[simp] theorem State.awaitHeader_rxPlen : (s.awaitHeader).rxPlen = s.rxPlen := rfl
@[simp] theorem State.awaitHeader_pktReady : (s.awaitHeader).pktReady = s.pktReady := rfl
@[simp] theorem State.awaitHeader_rxbuf : (s.awaitHeader).rxbuf = s.rxbuf := rfl
@[simp] theorem State.awaitHeader_txbuf : (s.awaitHeader).txbuf = s.txbuf := rfl
@[simp] theorem State.awaitHeader_hpSlots : (s.awaitHeader).hpSlots = s.hpSlots := rfl
@[simp] theorem State.awaitHeader_sasSlots : (s.awaitHeader).sasSlots = s.sasSlots := rfl
@[simp] theorem State.awaitHeader_hpWin : (s.awaitHeader).hpWin = s.hpWin := rfl
@[simp] theorem State.awaitHeader_sasWin : (s.awaitHeader).sasWin = s.sasWin := rfl
@[simp] theorem State.awaitHeader_cmd : (s.awaitHeader).cmd = s.cmd := rfl
@[simp] theorem State.awaitHeader_arg0 : (s.awaitHeader).arg0 = s.arg0 := rfl
@[simp] theorem State.awaitHeader_arg1 : (s.awaitHeader).arg1 = s.arg1 := rfl
@[simp] theorem State.awaitHeader_arg2 : (s.awaitHeader).arg2 = s.arg2 := rfl
@[simp] theorem State.awaitHeader_arg3 : (s.awaitHeader).arg3 = s.arg3 := rfl
@[simp] theorem State.awaitHeader_result : (s.awaitHeader).result = s.result := rfl
@[simp] theorem State.awaitHeader_rstat : (s.awaitHeader).rstat = s.rstat := rfl
@[simp] theorem State.awaitHeader_txout : (s.awaitHeader).txout = s.txout := rfl
@[simp] theorem State.awaitHeader_txTaken : (s.awaitHeader).txTaken = s.txTaken := rfl
@[simp] theorem State.awaitHeader_nowMs : (s.awaitHeader).nowMs = s.nowMs := rfl
@[simp] theorem State.awaitHeader_rxLine : (s.awaitHeader).rxLine = s.rxLine := rfl
@[simp] theorem State.awaitHeader_schedule : (s.awaitHeader).schedule = s.schedule := rfl
@[simp] theorem State.awaitHeader_extOut : (s.awaitHeader).extOut = s.extOut := rfl
@[simp] theorem State.awaitHeader_hpSlot (k : Nat) : (s.awaitHeader).hpSlot k = s.hpSlot k := rfl
@[simp] theorem State.awaitHeader_sasSlot (k : Nat) : (s.awaitHeader).sasSlot k = s.sasSlot k := rfl
@[simp] theorem State.awaitHeader_hpReg (k : Nat) : (s.awaitHeader).hpReg k = s.hpReg k := rfl
@[simp] theorem State.awaitHeader_sasReg (k : Nat) : (s.awaitHeader).sasReg k = s.sasReg k := rfl
@[simp] theorem State.awaitHeader_rxField (o : Nat) : (s.awaitHeader).rxField o = s.rxField o := rfl

/-! ## State.awaitFooter -/

@[simp] theorem State.awaitFooter_params : (s.awaitFooter).params = s.params := rfl
@[simp] theorem State.awaitFooter_connected : (s.awaitFooter).connected = s.connected := rfl
@[simp] theorem State.awaitFooter_txSent : (s.awaitFooter).txSent = s.txSent := rfl
@[simp] theorem State.awaitFooter_rxExpect : (s.awaitFooter).rxExpect = s.rxExpect := rfl
@[simp] theorem State.awaitFooter_beaconCnt : (s.awaitFooter).beaconCnt = s.beaconCnt := rfl
@[simp] theorem State.awaitFooter_halted : (s.awaitFooter).halted = s.halted := rfl
@[simp] theorem State.awaitFooter_rxState : (s.awaitFooter).rxState = .footer := rfl
@[simp] theorem State.awaitFooter_rxRemain : (s.awaitFooter).rxRemain = 8 := rfl
@[simp] theorem State.awaitFooter_rxPlen : (s.awaitFooter).rxPlen = s.rxPlen := rfl
@[simp] theorem State.awaitFooter_pktReady : (s.awaitFooter).pktReady = s.pktReady := rfl
@[simp] theorem State.awaitFooter_rxbuf : (s.awaitFooter).rxbuf = s.rxbuf := rfl
@[simp] theorem State.awaitFooter_txbuf : (s.awaitFooter).txbuf = s.txbuf := rfl
@[simp] theorem State.awaitFooter_hpSlots : (s.awaitFooter).hpSlots = s.hpSlots := rfl
@[simp] theorem State.awaitFooter_sasSlots : (s.awaitFooter).sasSlots = s.sasSlots := rfl
@[simp] theorem State.awaitFooter_hpWin : (s.awaitFooter).hpWin = s.hpWin := rfl
@[simp] theorem State.awaitFooter_sasWin : (s.awaitFooter).sasWin = s.sasWin := rfl
@[simp] theorem State.awaitFooter_cmd : (s.awaitFooter).cmd = s.cmd := rfl
@[simp] theorem State.awaitFooter_arg0 : (s.awaitFooter).arg0 = s.arg0 := rfl
@[simp] theorem State.awaitFooter_arg1 : (s.awaitFooter).arg1 = s.arg1 := rfl
@[simp] theorem State.awaitFooter_arg2 : (s.awaitFooter).arg2 = s.arg2 := rfl
@[simp] theorem State.awaitFooter_arg3 : (s.awaitFooter).arg3 = s.arg3 := rfl
@[simp] theorem State.awaitFooter_result : (s.awaitFooter).result = s.result := rfl
@[simp] theorem State.awaitFooter_rstat : (s.awaitFooter).rstat = s.rstat := rfl
@[simp] theorem State.awaitFooter_txout : (s.awaitFooter).txout = s.txout := rfl
@[simp] theorem State.awaitFooter_txTaken : (s.awaitFooter).txTaken = s.txTaken := rfl
@[simp] theorem State.awaitFooter_nowMs : (s.awaitFooter).nowMs = s.nowMs := rfl
@[simp] theorem State.awaitFooter_rxLine : (s.awaitFooter).rxLine = s.rxLine := rfl
@[simp] theorem State.awaitFooter_schedule : (s.awaitFooter).schedule = s.schedule := rfl
@[simp] theorem State.awaitFooter_extOut : (s.awaitFooter).extOut = s.extOut := rfl
@[simp] theorem State.awaitFooter_hpSlot (k : Nat) : (s.awaitFooter).hpSlot k = s.hpSlot k := rfl
@[simp] theorem State.awaitFooter_sasSlot (k : Nat) : (s.awaitFooter).sasSlot k = s.sasSlot k := rfl
@[simp] theorem State.awaitFooter_hpReg (k : Nat) : (s.awaitFooter).hpReg k = s.hpReg k := rfl
@[simp] theorem State.awaitFooter_sasReg (k : Nat) : (s.awaitFooter).sasReg k = s.sasReg k := rfl
@[simp] theorem State.awaitFooter_rxField (o : Nat) : (s.awaitFooter).rxField o = s.rxField o := rfl

/-! ## State.awaitPayload -/

@[simp] theorem State.awaitPayload_params : (s.awaitPayload).params = s.params := rfl
@[simp] theorem State.awaitPayload_connected : (s.awaitPayload).connected = s.connected := rfl
@[simp] theorem State.awaitPayload_txSent : (s.awaitPayload).txSent = s.txSent := rfl
@[simp] theorem State.awaitPayload_rxExpect : (s.awaitPayload).rxExpect = s.rxExpect := rfl
@[simp] theorem State.awaitPayload_beaconCnt : (s.awaitPayload).beaconCnt = s.beaconCnt := rfl
@[simp] theorem State.awaitPayload_halted : (s.awaitPayload).halted = s.halted := rfl
@[simp] theorem State.awaitPayload_rxState : (s.awaitPayload).rxState = .payload := rfl
@[simp] theorem State.awaitPayload_rxRemain : (s.awaitPayload).rxRemain = s.rxPlen := rfl
@[simp] theorem State.awaitPayload_rxPlen : (s.awaitPayload).rxPlen = s.rxPlen := rfl
@[simp] theorem State.awaitPayload_pktReady : (s.awaitPayload).pktReady = s.pktReady := rfl
@[simp] theorem State.awaitPayload_rxbuf : (s.awaitPayload).rxbuf = s.rxbuf := rfl
@[simp] theorem State.awaitPayload_txbuf : (s.awaitPayload).txbuf = s.txbuf := rfl
@[simp] theorem State.awaitPayload_hpSlots : (s.awaitPayload).hpSlots = s.hpSlots := rfl
@[simp] theorem State.awaitPayload_sasSlots : (s.awaitPayload).sasSlots = s.sasSlots := rfl
@[simp] theorem State.awaitPayload_hpWin : (s.awaitPayload).hpWin = s.hpWin := rfl
@[simp] theorem State.awaitPayload_sasWin : (s.awaitPayload).sasWin = s.sasWin := rfl
@[simp] theorem State.awaitPayload_cmd : (s.awaitPayload).cmd = s.cmd := rfl
@[simp] theorem State.awaitPayload_arg0 : (s.awaitPayload).arg0 = s.arg0 := rfl
@[simp] theorem State.awaitPayload_arg1 : (s.awaitPayload).arg1 = s.arg1 := rfl
@[simp] theorem State.awaitPayload_arg2 : (s.awaitPayload).arg2 = s.arg2 := rfl
@[simp] theorem State.awaitPayload_arg3 : (s.awaitPayload).arg3 = s.arg3 := rfl
@[simp] theorem State.awaitPayload_result : (s.awaitPayload).result = s.result := rfl
@[simp] theorem State.awaitPayload_rstat : (s.awaitPayload).rstat = s.rstat := rfl
@[simp] theorem State.awaitPayload_txout : (s.awaitPayload).txout = s.txout := rfl
@[simp] theorem State.awaitPayload_txTaken : (s.awaitPayload).txTaken = s.txTaken := rfl
@[simp] theorem State.awaitPayload_nowMs : (s.awaitPayload).nowMs = s.nowMs := rfl
@[simp] theorem State.awaitPayload_rxLine : (s.awaitPayload).rxLine = s.rxLine := rfl
@[simp] theorem State.awaitPayload_schedule : (s.awaitPayload).schedule = s.schedule := rfl
@[simp] theorem State.awaitPayload_extOut : (s.awaitPayload).extOut = s.extOut := rfl
@[simp] theorem State.awaitPayload_hpSlot (k : Nat) : (s.awaitPayload).hpSlot k = s.hpSlot k := rfl
@[simp] theorem State.awaitPayload_sasSlot (k : Nat) : (s.awaitPayload).sasSlot k = s.sasSlot k := rfl
@[simp] theorem State.awaitPayload_hpReg (k : Nat) : (s.awaitPayload).hpReg k = s.hpReg k := rfl
@[simp] theorem State.awaitPayload_sasReg (k : Nat) : (s.awaitPayload).sasReg k = s.sasReg k := rfl
@[simp] theorem State.awaitPayload_rxField (o : Nat) : (s.awaitPayload).rxField o = s.rxField o := rfl

/-! ## State.storeRxByte -/

@[simp] theorem State.storeRxByte_params (b : Byte) : (s.storeRxByte b).params = s.params := rfl
@[simp] theorem State.storeRxByte_connected (b : Byte) : (s.storeRxByte b).connected = s.connected := rfl
@[simp] theorem State.storeRxByte_txSent (b : Byte) : (s.storeRxByte b).txSent = s.txSent := rfl
@[simp] theorem State.storeRxByte_rxExpect (b : Byte) : (s.storeRxByte b).rxExpect = s.rxExpect := rfl
@[simp] theorem State.storeRxByte_beaconCnt (b : Byte) : (s.storeRxByte b).beaconCnt = s.beaconCnt := rfl
@[simp] theorem State.storeRxByte_halted (b : Byte) : (s.storeRxByte b).halted = s.halted := rfl
@[simp] theorem State.storeRxByte_rxState (b : Byte) : (s.storeRxByte b).rxState = s.rxState := rfl
@[simp] theorem State.storeRxByte_rxRemain (b : Byte) : (s.storeRxByte b).rxRemain = s.rxRemain - 1 := rfl
@[simp] theorem State.storeRxByte_rxPlen (b : Byte) : (s.storeRxByte b).rxPlen = s.rxPlen := rfl
@[simp] theorem State.storeRxByte_pktReady (b : Byte) : (s.storeRxByte b).pktReady = s.pktReady := rfl
@[simp] theorem State.storeRxByte_rxbuf (b : Byte) : (s.storeRxByte b).rxbuf = s.rxbuf.write s.rxPos b := rfl
@[simp] theorem State.storeRxByte_txbuf (b : Byte) : (s.storeRxByte b).txbuf = s.txbuf := rfl
@[simp] theorem State.storeRxByte_hpSlots (b : Byte) : (s.storeRxByte b).hpSlots = s.hpSlots := rfl
@[simp] theorem State.storeRxByte_sasSlots (b : Byte) : (s.storeRxByte b).sasSlots = s.sasSlots := rfl
@[simp] theorem State.storeRxByte_hpWin (b : Byte) : (s.storeRxByte b).hpWin = s.hpWin := rfl
@[simp] theorem State.storeRxByte_sasWin (b : Byte) : (s.storeRxByte b).sasWin = s.sasWin := rfl
@[simp] theorem State.storeRxByte_cmd (b : Byte) : (s.storeRxByte b).cmd = s.cmd := rfl
@[simp] theorem State.storeRxByte_arg0 (b : Byte) : (s.storeRxByte b).arg0 = s.arg0 := rfl
@[simp] theorem State.storeRxByte_arg1 (b : Byte) : (s.storeRxByte b).arg1 = s.arg1 := rfl
@[simp] theorem State.storeRxByte_arg2 (b : Byte) : (s.storeRxByte b).arg2 = s.arg2 := rfl
@[simp] theorem State.storeRxByte_arg3 (b : Byte) : (s.storeRxByte b).arg3 = s.arg3 := rfl
@[simp] theorem State.storeRxByte_result (b : Byte) : (s.storeRxByte b).result = s.result := rfl
@[simp] theorem State.storeRxByte_rstat (b : Byte) : (s.storeRxByte b).rstat = s.rstat := rfl
@[simp] theorem State.storeRxByte_txout (b : Byte) : (s.storeRxByte b).txout = s.txout := rfl
@[simp] theorem State.storeRxByte_txTaken (b : Byte) : (s.storeRxByte b).txTaken = s.txTaken := rfl
@[simp] theorem State.storeRxByte_nowMs (b : Byte) : (s.storeRxByte b).nowMs = s.nowMs := rfl
@[simp] theorem State.storeRxByte_rxLine (b : Byte) : (s.storeRxByte b).rxLine = s.rxLine := rfl
@[simp] theorem State.storeRxByte_schedule (b : Byte) : (s.storeRxByte b).schedule = s.schedule := rfl
@[simp] theorem State.storeRxByte_extOut (b : Byte) : (s.storeRxByte b).extOut = s.extOut := rfl
@[simp] theorem State.storeRxByte_hpSlot (b : Byte) (k : Nat) : (s.storeRxByte b).hpSlot k = s.hpSlot k := rfl
@[simp] theorem State.storeRxByte_sasSlot (b : Byte) (k : Nat) : (s.storeRxByte b).sasSlot k = s.sasSlot k := rfl
@[simp] theorem State.storeRxByte_hpReg (b : Byte) (k : Nat) : (s.storeRxByte b).hpReg k = s.hpReg k := rfl
@[simp] theorem State.storeRxByte_sasReg (b : Byte) (k : Nat) : (s.storeRxByte b).sasReg k = s.sasReg k := rfl

/-! ## State.transportFault -/

@[simp] theorem State.transportFault_params : (s.transportFault).params = s.params := rfl
@[simp] theorem State.transportFault_connected : (s.transportFault).connected = s.connected := rfl
@[simp] theorem State.transportFault_txSent : (s.transportFault).txSent = s.txSent := rfl
@[simp] theorem State.transportFault_rxExpect : (s.transportFault).rxExpect = s.rxExpect := rfl
@[simp] theorem State.transportFault_beaconCnt : (s.transportFault).beaconCnt = s.beaconCnt := rfl
@[simp] theorem State.transportFault_halted : (s.transportFault).halted = true := rfl
@[simp] theorem State.transportFault_rxState : (s.transportFault).rxState = s.rxState := rfl
@[simp] theorem State.transportFault_rxRemain : (s.transportFault).rxRemain = s.rxRemain := rfl
@[simp] theorem State.transportFault_rxPlen : (s.transportFault).rxPlen = s.rxPlen := rfl
@[simp] theorem State.transportFault_pktReady : (s.transportFault).pktReady = s.pktReady := rfl
@[simp] theorem State.transportFault_rxbuf : (s.transportFault).rxbuf = s.rxbuf := rfl
@[simp] theorem State.transportFault_txbuf : (s.transportFault).txbuf = s.txbuf := rfl
@[simp] theorem State.transportFault_hpSlots : (s.transportFault).hpSlots = s.hpSlots := rfl
@[simp] theorem State.transportFault_sasSlots : (s.transportFault).sasSlots = s.sasSlots := rfl
@[simp] theorem State.transportFault_hpWin : (s.transportFault).hpWin = s.hpWin := rfl
@[simp] theorem State.transportFault_sasWin : (s.transportFault).sasWin = s.sasWin := rfl
@[simp] theorem State.transportFault_cmd : (s.transportFault).cmd = s.cmd := rfl
@[simp] theorem State.transportFault_arg0 : (s.transportFault).arg0 = s.arg0 := rfl
@[simp] theorem State.transportFault_arg1 : (s.transportFault).arg1 = s.arg1 := rfl
@[simp] theorem State.transportFault_arg2 : (s.transportFault).arg2 = s.arg2 := rfl
@[simp] theorem State.transportFault_arg3 : (s.transportFault).arg3 = s.arg3 := rfl
@[simp] theorem State.transportFault_result : (s.transportFault).result = s.result := rfl
@[simp] theorem State.transportFault_rstat : (s.transportFault).rstat = s.rstat := rfl
@[simp] theorem State.transportFault_txout : (s.transportFault).txout = s.txout := rfl
@[simp] theorem State.transportFault_txTaken : (s.transportFault).txTaken = s.txTaken := rfl
@[simp] theorem State.transportFault_nowMs : (s.transportFault).nowMs = s.nowMs := rfl
@[simp] theorem State.transportFault_rxLine : (s.transportFault).rxLine = s.rxLine := rfl
@[simp] theorem State.transportFault_schedule : (s.transportFault).schedule = s.schedule := rfl
@[simp] theorem State.transportFault_extOut : (s.transportFault).extOut = s.extOut := rfl
@[simp] theorem State.transportFault_hpSlot (k : Nat) : (s.transportFault).hpSlot k = s.hpSlot k := rfl
@[simp] theorem State.transportFault_sasSlot (k : Nat) : (s.transportFault).sasSlot k = s.sasSlot k := rfl
@[simp] theorem State.transportFault_hpReg (k : Nat) : (s.transportFault).hpReg k = s.hpReg k := rfl
@[simp] theorem State.transportFault_sasReg (k : Nat) : (s.transportFault).sasReg k = s.sasReg k := rfl
@[simp] theorem State.transportFault_rxField (o : Nat) : (s.transportFault).rxField o = s.rxField o := rfl

/-! ## State.applyReset -/

@[simp] theorem State.applyReset_params : (s.applyReset).params = s.params := rfl
@[simp] theorem State.applyReset_connected : (s.applyReset).connected = false := rfl
@[simp] theorem State.applyReset_txSent : (s.applyReset).txSent = 0 := rfl
@[simp] theorem State.applyReset_rxExpect : (s.applyReset).rxExpect = 1 := rfl
@[simp] theorem State.applyReset_beaconCnt : (s.applyReset).beaconCnt = 0 := rfl
@[simp] theorem State.applyReset_halted : (s.applyReset).halted = false := rfl
@[simp] theorem State.applyReset_rxState : (s.applyReset).rxState = .header := rfl
@[simp] theorem State.applyReset_rxRemain : (s.applyReset).rxRemain = 28 := rfl
@[simp] theorem State.applyReset_rxPlen : (s.applyReset).rxPlen = 0 := rfl
@[simp] theorem State.applyReset_pktReady : (s.applyReset).pktReady = false := rfl
@[simp] theorem State.applyReset_rxbuf : (s.applyReset).rxbuf = [] := rfl
@[simp] theorem State.applyReset_txbuf : (s.applyReset).txbuf = [] := rfl
@[simp] theorem State.applyReset_hpSlots : (s.applyReset).hpSlots = List.replicate s.params.nHp HpSlot.free := rfl
@[simp] theorem State.applyReset_sasSlots : (s.applyReset).sasSlots = List.replicate s.params.nSas SasSlot.free := rfl
@[simp] theorem State.applyReset_hpWin : (s.applyReset).hpWin = List.replicate s.params.nHp HpWin.cleared := rfl
@[simp] theorem State.applyReset_sasWin : (s.applyReset).sasWin = List.replicate s.params.nSas 0 := rfl
@[simp] theorem State.applyReset_cmd : (s.applyReset).cmd = 0 := rfl
@[simp] theorem State.applyReset_arg0 : (s.applyReset).arg0 = 0 := rfl
@[simp] theorem State.applyReset_arg1 : (s.applyReset).arg1 = 0 := rfl
@[simp] theorem State.applyReset_arg2 : (s.applyReset).arg2 = 0 := rfl
@[simp] theorem State.applyReset_arg3 : (s.applyReset).arg3 = 0 := rfl
@[simp] theorem State.applyReset_result : (s.applyReset).result = 0 := rfl
@[simp] theorem State.applyReset_rstat : (s.applyReset).rstat = 0 := rfl
@[simp] theorem State.applyReset_txout : (s.applyReset).txout = s.txout := rfl
@[simp] theorem State.applyReset_txTaken : (s.applyReset).txTaken = s.txTaken := rfl
@[simp] theorem State.applyReset_nowMs : (s.applyReset).nowMs = s.nowMs := rfl
@[simp] theorem State.applyReset_rxLine : (s.applyReset).rxLine = s.rxLine := rfl
@[simp] theorem State.applyReset_schedule : (s.applyReset).schedule = s.schedule := rfl
@[simp] theorem State.applyReset_extOut : (s.applyReset).extOut = s.extOut := rfl

/-! ## State.writeWin and State.writeWins, which write window registers only -/

@[simp] theorem State.writeWin_params (r : WinReg) (v : Word) : (s.writeWin r v).params = s.params := by cases r <;> rfl
@[simp] theorem State.writeWin_connected (r : WinReg) (v : Word) : (s.writeWin r v).connected = s.connected := by cases r <;> rfl
@[simp] theorem State.writeWin_txSent (r : WinReg) (v : Word) : (s.writeWin r v).txSent = s.txSent := by cases r <;> rfl
@[simp] theorem State.writeWin_rxExpect (r : WinReg) (v : Word) : (s.writeWin r v).rxExpect = s.rxExpect := by cases r <;> rfl
@[simp] theorem State.writeWin_beaconCnt (r : WinReg) (v : Word) : (s.writeWin r v).beaconCnt = s.beaconCnt := by cases r <;> rfl
@[simp] theorem State.writeWin_halted (r : WinReg) (v : Word) : (s.writeWin r v).halted = s.halted := by cases r <;> rfl
@[simp] theorem State.writeWin_rxState (r : WinReg) (v : Word) : (s.writeWin r v).rxState = s.rxState := by cases r <;> rfl
@[simp] theorem State.writeWin_rxRemain (r : WinReg) (v : Word) : (s.writeWin r v).rxRemain = s.rxRemain := by cases r <;> rfl
@[simp] theorem State.writeWin_rxPlen (r : WinReg) (v : Word) : (s.writeWin r v).rxPlen = s.rxPlen := by cases r <;> rfl
@[simp] theorem State.writeWin_pktReady (r : WinReg) (v : Word) : (s.writeWin r v).pktReady = s.pktReady := by cases r <;> rfl
@[simp] theorem State.writeWin_rxbuf (r : WinReg) (v : Word) : (s.writeWin r v).rxbuf = s.rxbuf := by cases r <;> rfl
@[simp] theorem State.writeWin_txbuf (r : WinReg) (v : Word) : (s.writeWin r v).txbuf = s.txbuf := by cases r <;> rfl
@[simp] theorem State.writeWin_hpSlots (r : WinReg) (v : Word) : (s.writeWin r v).hpSlots = s.hpSlots := by cases r <;> rfl
@[simp] theorem State.writeWin_sasSlots (r : WinReg) (v : Word) : (s.writeWin r v).sasSlots = s.sasSlots := by cases r <;> rfl
@[simp] theorem State.writeWin_cmd (r : WinReg) (v : Word) : (s.writeWin r v).cmd = s.cmd := by cases r <;> rfl
@[simp] theorem State.writeWin_arg0 (r : WinReg) (v : Word) : (s.writeWin r v).arg0 = s.arg0 := by cases r <;> rfl
@[simp] theorem State.writeWin_arg1 (r : WinReg) (v : Word) : (s.writeWin r v).arg1 = s.arg1 := by cases r <;> rfl
@[simp] theorem State.writeWin_arg2 (r : WinReg) (v : Word) : (s.writeWin r v).arg2 = s.arg2 := by cases r <;> rfl
@[simp] theorem State.writeWin_arg3 (r : WinReg) (v : Word) : (s.writeWin r v).arg3 = s.arg3 := by cases r <;> rfl
@[simp] theorem State.writeWin_result (r : WinReg) (v : Word) : (s.writeWin r v).result = s.result := by cases r <;> rfl
@[simp] theorem State.writeWin_rstat (r : WinReg) (v : Word) : (s.writeWin r v).rstat = s.rstat := by cases r <;> rfl
@[simp] theorem State.writeWin_txout (r : WinReg) (v : Word) : (s.writeWin r v).txout = s.txout := by cases r <;> rfl
@[simp] theorem State.writeWin_txTaken (r : WinReg) (v : Word) : (s.writeWin r v).txTaken = s.txTaken := by cases r <;> rfl
@[simp] theorem State.writeWin_nowMs (r : WinReg) (v : Word) : (s.writeWin r v).nowMs = s.nowMs := by cases r <;> rfl
@[simp] theorem State.writeWin_rxLine (r : WinReg) (v : Word) : (s.writeWin r v).rxLine = s.rxLine := by cases r <;> rfl
@[simp] theorem State.writeWin_schedule (r : WinReg) (v : Word) : (s.writeWin r v).schedule = s.schedule := by cases r <;> rfl
@[simp] theorem State.writeWin_extOut (r : WinReg) (v : Word) : (s.writeWin r v).extOut = s.extOut := by cases r <;> rfl

@[simp] theorem State.writeWins_params (ws : List (WinReg × Word)) : (s.writeWins ws).params = s.params := by
  induction ws generalizing s with
  | nil => rfl
  | cons w ws ih => exact (ih _).trans (s.writeWin_params w.1 w.2)
@[simp] theorem State.writeWins_connected (ws : List (WinReg × Word)) : (s.writeWins ws).connected = s.connected := by
  induction ws generalizing s with
  | nil => rfl
  | cons w ws ih => exact (ih _).trans (s.writeWin_connected w.1 w.2)
@[simp] theorem State.writeWins_txSent (ws : List (WinReg × Word)) : (s.writeWins ws).txSent = s.txSent := by
  induction ws generalizing s with
  | nil => rfl
  | cons w ws ih => exact (ih _).trans (s.writeWin_txSent w.1 w.2)
@[simp] theorem State.writeWins_rxExpect (ws : List (WinReg × Word)) : (s.writeWins ws).rxExpect = s.rxExpect := by
  induction ws generalizing s with
  | nil => rfl
  | cons w ws ih => exact (ih _).trans (s.writeWin_rxExpect w.1 w.2)
@[simp] theorem State.writeWins_beaconCnt (ws : List (WinReg × Word)) : (s.writeWins ws).beaconCnt = s.beaconCnt := by
  induction ws generalizing s with
  | nil => rfl
  | cons w ws ih => exact (ih _).trans (s.writeWin_beaconCnt w.1 w.2)
@[simp] theorem State.writeWins_halted (ws : List (WinReg × Word)) : (s.writeWins ws).halted = s.halted := by
  induction ws generalizing s with
  | nil => rfl
  | cons w ws ih => exact (ih _).trans (s.writeWin_halted w.1 w.2)
@[simp] theorem State.writeWins_rxState (ws : List (WinReg × Word)) : (s.writeWins ws).rxState = s.rxState := by
  induction ws generalizing s with
  | nil => rfl
  | cons w ws ih => exact (ih _).trans (s.writeWin_rxState w.1 w.2)
@[simp] theorem State.writeWins_rxRemain (ws : List (WinReg × Word)) : (s.writeWins ws).rxRemain = s.rxRemain := by
  induction ws generalizing s with
  | nil => rfl
  | cons w ws ih => exact (ih _).trans (s.writeWin_rxRemain w.1 w.2)
@[simp] theorem State.writeWins_rxPlen (ws : List (WinReg × Word)) : (s.writeWins ws).rxPlen = s.rxPlen := by
  induction ws generalizing s with
  | nil => rfl
  | cons w ws ih => exact (ih _).trans (s.writeWin_rxPlen w.1 w.2)
@[simp] theorem State.writeWins_pktReady (ws : List (WinReg × Word)) : (s.writeWins ws).pktReady = s.pktReady := by
  induction ws generalizing s with
  | nil => rfl
  | cons w ws ih => exact (ih _).trans (s.writeWin_pktReady w.1 w.2)
@[simp] theorem State.writeWins_rxbuf (ws : List (WinReg × Word)) : (s.writeWins ws).rxbuf = s.rxbuf := by
  induction ws generalizing s with
  | nil => rfl
  | cons w ws ih => exact (ih _).trans (s.writeWin_rxbuf w.1 w.2)
@[simp] theorem State.writeWins_txbuf (ws : List (WinReg × Word)) : (s.writeWins ws).txbuf = s.txbuf := by
  induction ws generalizing s with
  | nil => rfl
  | cons w ws ih => exact (ih _).trans (s.writeWin_txbuf w.1 w.2)
@[simp] theorem State.writeWins_hpSlots (ws : List (WinReg × Word)) : (s.writeWins ws).hpSlots = s.hpSlots := by
  induction ws generalizing s with
  | nil => rfl
  | cons w ws ih => exact (ih _).trans (s.writeWin_hpSlots w.1 w.2)
@[simp] theorem State.writeWins_sasSlots (ws : List (WinReg × Word)) : (s.writeWins ws).sasSlots = s.sasSlots := by
  induction ws generalizing s with
  | nil => rfl
  | cons w ws ih => exact (ih _).trans (s.writeWin_sasSlots w.1 w.2)
@[simp] theorem State.writeWins_cmd (ws : List (WinReg × Word)) : (s.writeWins ws).cmd = s.cmd := by
  induction ws generalizing s with
  | nil => rfl
  | cons w ws ih => exact (ih _).trans (s.writeWin_cmd w.1 w.2)
@[simp] theorem State.writeWins_arg0 (ws : List (WinReg × Word)) : (s.writeWins ws).arg0 = s.arg0 := by
  induction ws generalizing s with
  | nil => rfl
  | cons w ws ih => exact (ih _).trans (s.writeWin_arg0 w.1 w.2)
@[simp] theorem State.writeWins_arg1 (ws : List (WinReg × Word)) : (s.writeWins ws).arg1 = s.arg1 := by
  induction ws generalizing s with
  | nil => rfl
  | cons w ws ih => exact (ih _).trans (s.writeWin_arg1 w.1 w.2)
@[simp] theorem State.writeWins_arg2 (ws : List (WinReg × Word)) : (s.writeWins ws).arg2 = s.arg2 := by
  induction ws generalizing s with
  | nil => rfl
  | cons w ws ih => exact (ih _).trans (s.writeWin_arg2 w.1 w.2)
@[simp] theorem State.writeWins_arg3 (ws : List (WinReg × Word)) : (s.writeWins ws).arg3 = s.arg3 := by
  induction ws generalizing s with
  | nil => rfl
  | cons w ws ih => exact (ih _).trans (s.writeWin_arg3 w.1 w.2)
@[simp] theorem State.writeWins_result (ws : List (WinReg × Word)) : (s.writeWins ws).result = s.result := by
  induction ws generalizing s with
  | nil => rfl
  | cons w ws ih => exact (ih _).trans (s.writeWin_result w.1 w.2)
@[simp] theorem State.writeWins_rstat (ws : List (WinReg × Word)) : (s.writeWins ws).rstat = s.rstat := by
  induction ws generalizing s with
  | nil => rfl
  | cons w ws ih => exact (ih _).trans (s.writeWin_rstat w.1 w.2)
@[simp] theorem State.writeWins_txout (ws : List (WinReg × Word)) : (s.writeWins ws).txout = s.txout := by
  induction ws generalizing s with
  | nil => rfl
  | cons w ws ih => exact (ih _).trans (s.writeWin_txout w.1 w.2)
@[simp] theorem State.writeWins_txTaken (ws : List (WinReg × Word)) : (s.writeWins ws).txTaken = s.txTaken := by
  induction ws generalizing s with
  | nil => rfl
  | cons w ws ih => exact (ih _).trans (s.writeWin_txTaken w.1 w.2)
@[simp] theorem State.writeWins_nowMs (ws : List (WinReg × Word)) : (s.writeWins ws).nowMs = s.nowMs := by
  induction ws generalizing s with
  | nil => rfl
  | cons w ws ih => exact (ih _).trans (s.writeWin_nowMs w.1 w.2)
@[simp] theorem State.writeWins_rxLine (ws : List (WinReg × Word)) : (s.writeWins ws).rxLine = s.rxLine := by
  induction ws generalizing s with
  | nil => rfl
  | cons w ws ih => exact (ih _).trans (s.writeWin_rxLine w.1 w.2)
@[simp] theorem State.writeWins_schedule (ws : List (WinReg × Word)) : (s.writeWins ws).schedule = s.schedule := by
  induction ws generalizing s with
  | nil => rfl
  | cons w ws ih => exact (ih _).trans (s.writeWin_schedule w.1 w.2)
@[simp] theorem State.writeWins_extOut (ws : List (WinReg × Word)) : (s.writeWins ws).extOut = s.extOut := by
  induction ws generalizing s with
  | nil => rfl
  | cons w ws ih => exact (ih _).trans (s.writeWin_extOut w.1 w.2)

end Sys2Proof.Machine
end

