-- ==== Sys2Proof/Laws/Window.lean ====
section
/-! SUPPORT. The window pools: the scans, everything an acquire and a release can do (spec/42_window.md R171 to R178), and
the register images as arithmetic (spec/10_state.md R32, R33). -/

namespace Sys2Proof

/-- A window is never empty. -/
theorem Params.wHp_pos (p : Params) : 0 < p.wHp := Nat.two_pow_pos _

theorem Params.wSas_pos (p : Params) : 0 < p.wSas := Nat.two_pow_pos _

namespace Machine

/-! ## The scans (R171) -/

theorem find_range_eq_some {n i : Nat} {p : Nat → Bool} :
    (List.range n).find? p = some i ↔ i < n ∧ p i = true ∧ ∀ j < i, p j = false := by
  rw [List.find?_range_eq_some, List.mem_range]
  simp only [Bool.not_eq_true', and_left_comm]

theorem find_range_eq_none {n : Nat} {p : Nat → Bool} :
    (List.range n).find? p = none ↔ ∀ j < n, p j = false := by
  simp

theorem scanPool_eq_reuse {n : Nat} {holds free : Nat → Bool} {i : Nat} :
    scanPool n holds free = .reuse i ↔ i < n ∧ holds i = true ∧ ∀ j < i, holds j = false := by
  rw [← find_range_eq_some, scanPool]
  cases (List.range n).find? holds with
  | some k => simp
  | none => cases (List.range n).find? free <;> simp

theorem scanPool_eq_allocate {n : Nat} {holds free : Nat → Bool} {i : Nat} :
    scanPool n holds free = .allocate i ↔
      (∀ j < n, holds j = false) ∧ i < n ∧ free i = true ∧ ∀ j < i, free j = false := by
  rw [← find_range_eq_none, ← find_range_eq_some, scanPool]
  cases (List.range n).find? holds with
  | some k => simp
  | none => cases (List.range n).find? free <;> simp

theorem scanPool_eq_exhausted {n : Nat} {holds free : Nat → Bool} :
    scanPool n holds free = .exhausted ↔ (∀ j < n, holds j = false) ∧ ∀ j < n, free j = false := by
  rw [← find_range_eq_none, ← find_range_eq_none, scanPool]
  cases (List.range n).find? holds with
  | some k => simp
  | none => cases (List.range n).find? free <;> simp

/-! ## Slots and registers: what a write leaves (R31 to R33) -/

theorem getD_set_eq {α : Type} (l : List α) (i j : Nat) (x d : α) :
    (l.set i x).getD j d = if i = j ∧ i < l.length then x else l.getD j d := by
  simp only [List.getD_eq_getElem?_getD, List.getElem?_set]
  by_cases h : i = j
  · by_cases h' : i < l.length
    · simp [h, h ▸ h']
    · subst h; simp [h']
  · simp [h]

/-- A slot or register after one was written; a write past the end of its list changes nothing. -/
theorem State.hpSlot_set (s : State) (i j : Nat) (x : HpSlot) :
    State.hpSlot { s with hpSlots := s.hpSlots.set i x } j =
      if i = j ∧ i < s.hpSlots.length then x else s.hpSlot j := getD_set_eq ..

theorem State.sasSlot_set (s : State) (i j : Nat) (x : SasSlot) :
    State.sasSlot { s with sasSlots := s.sasSlots.set i x } j =
      if i = j ∧ i < s.sasSlots.length then x else s.sasSlot j := getD_set_eq ..

theorem State.hpReg_set (s : State) (i j : Nat) (x : HpWin) :
    State.hpReg { s with hpWin := s.hpWin.set i x } j =
      if i = j ∧ i < s.hpWin.length then x else s.hpReg j := getD_set_eq ..

theorem State.sasReg_set (s : State) (i j : Nat) (x : Word) :
    State.sasReg { s with sasWin := s.sasWin.set i x } j =
      if i = j ∧ i < s.sasWin.length then x else s.sasReg j := getD_set_eq ..

/-! ## Addresses -/

theorem toNat_alignTo {k : Nat} (w : Nat) (a : BitVec k) : (alignTo w a).toNat = a.toNat - a.toNat % w := by
  rw [alignTo, BitVec.toNat_ofNat, Nat.mod_eq_of_lt (Nat.lt_of_le_of_lt (Nat.sub_le ..) a.isLt)]

theorem alignTo_aligned {k : Nat} (w : Nat) (a : BitVec k) : (alignTo w a).toNat % w = 0 := by
  rw [toNat_alignTo]; exact Nat.sub_mod_eq_zero_of_mod_eq (by simp)

/-- Base and offset make up the target address (R171, R186). -/
theorem alignTo_add_off {k : Nat} (w : Nat) (a : BitVec k) : alignTo w a + BitVec.ofNat k (offIn w a) = a := by
  apply BitVec.eq_of_toNat_eq
  rw [BitVec.toNat_add, toNat_alignTo, BitVec.toNat_ofNat, offIn, Nat.add_mod_mod,
    Nat.sub_add_cancel (Nat.mod_le ..), Nat.mod_eq_of_lt a.isLt]

theorem HpSlot.holds_iff (s : State) (a : Word64) (t : Tag) (i : Nat) {b : Nat}
    (hb : b = a.toNat - a.toNat % s.params.wHp) :
    (s.hpSlot i).holds (alignTo s.params.wHp a) t = true ↔ s.holdsHp b t i := by
  rw [← toNat_alignTo] at hb
  subst hb
  simp only [HpSlot.holds, State.holdsHp, BitVec.toNat_inj, Bool.and_eq_true, bne_iff_ne, beq_iff_eq, and_assoc]

theorem SasSlot.holds_iff (s : State) (a : Word) (i : Nat) {b : Nat}
    (hb : b = a.toNat - a.toNat % s.params.wSas) :
    (s.sasSlot i).holds (alignTo s.params.wSas a) = true ↔ s.holdsSas b i := by
  rw [← toNat_alignTo] at hb
  subst hb
  simp only [SasSlot.holds, State.holdsSas, BitVec.toNat_inj, Bool.and_eq_true, bne_iff_ne, beq_iff_eq]

/-! ## Acquire (R171 to R175, R177) -/

/-- Everything `Acquire(HP, a, t)` can do; `b` is the aligned base of `a`. -/
theorem State.acquireHp_cases (s : State) (a : Word64) (t : Tag) {b : Nat}
    (hb : b = a.toNat - a.toNat % s.params.wHp) :
    (∃ i < s.params.nHp, s.holdsHp b t i ∧ (∀ j < i, ¬ s.holdsHp b t j) ∧
      (((s.hpSlot i).ref = maxRef ∧ s.acquireHp a t = s.finish .refOverflow 0) ∨
       ((s.hpSlot i).ref ≠ maxRef ∧
        s.acquireHp a t = (s.setHpSlot i { s.hpSlot i with ref := (s.hpSlot i).ref + 1 }).finish .ok
          (localPtr s.params.localBaseHp s.params.wHp i (offIn s.params.wHp a))))) ∨
    ((∀ j < s.params.nHp, ¬ s.holdsHp b t j) ∧
      ((∃ i < s.params.nHp, (s.hpSlot i).ref = 0 ∧ (∀ j < i, (s.hpSlot j).ref ≠ 0) ∧
        s.acquireHp a t =
          ((s.writeWins (programHpWrites i (alignTo s.params.wHp a) t)).setHpSlot i
            ⟨alignTo s.params.wHp a, t, 1⟩).finish .ok
          (localPtr s.params.localBaseHp s.params.wHp i (offIn s.params.wHp a))) ∨
       ((∀ j < s.params.nHp, (s.hpSlot j).ref ≠ 0) ∧ s.acquireHp a t = s.finish .poolExhausted 0))) := by
  have hm : ∀ i, (s.hpSlot i).holds (alignTo s.params.wHp a) t = false ↔ ¬ s.holdsHp b t i := fun i => by
    rw [← HpSlot.holds_iff s a t i hb, Bool.not_eq_true]
  have hz : ∀ i, ((s.hpSlot i).ref == 0) = false ↔ (s.hpSlot i).ref ≠ 0 := fun i => by
    rw [beq_eq_false_iff_ne]
  rw [State.acquireHp]
  cases h : scanPool s.params.nHp (fun i => (s.hpSlot i).holds (alignTo s.params.wHp a) t)
      (fun i => (s.hpSlot i).ref == 0) with
  | reuse i =>
    obtain ⟨hi, h1, hlow⟩ := scanPool_eq_reuse.mp h
    refine .inl ⟨i, hi, (HpSlot.holds_iff s a t i hb).mp h1, fun j hj => (hm j).mp (hlow j hj), ?_⟩
    by_cases hr : (s.hpSlot i).ref = maxRef
    · exact .inl ⟨hr, if_pos hr⟩
    · exact .inr ⟨hr, if_neg hr⟩
  | allocate i =>
    obtain ⟨hnone, hi, hfree, hlow⟩ := scanPool_eq_allocate.mp h
    exact .inr ⟨fun j hj => (hm j).mp (hnone j hj),
      .inl ⟨i, hi, beq_iff_eq.mp hfree, fun j hj => (hz j).mp (hlow j hj), rfl⟩⟩
  | exhausted =>
    obtain ⟨hnone, hfull⟩ := scanPool_eq_exhausted.mp h
    exact .inr ⟨fun j hj => (hm j).mp (hnone j hj), .inr ⟨fun j hj => (hz j).mp (hfull j hj), rfl⟩⟩

/-- Everything `Acquire(SAS, a, MEM)` can do; `b` is the aligned base of `a`. -/
theorem State.acquireSas_cases (s : State) (a : Word) {b : Nat} (hb : b = a.toNat - a.toNat % s.params.wSas) :
    (∃ i < s.params.nSas, s.holdsSas b i ∧ (∀ j < i, ¬ s.holdsSas b j) ∧
      (((s.sasSlot i).ref = maxRef ∧ s.acquireSas a = s.finish .refOverflow 0) ∨
       ((s.sasSlot i).ref ≠ maxRef ∧
        s.acquireSas a = (s.setSasSlot i { s.sasSlot i with ref := (s.sasSlot i).ref + 1 }).finish .ok
          (localPtr s.params.localBaseSas s.params.wSas i (offIn s.params.wSas a))))) ∨
    ((∀ j < s.params.nSas, ¬ s.holdsSas b j) ∧
      ((∃ i < s.params.nSas, (s.sasSlot i).ref = 0 ∧ (∀ j < i, (s.sasSlot j).ref ≠ 0) ∧
        s.acquireSas a =
          ((s.writeWins (programSasWrites i (alignTo s.params.wSas a))).setSasSlot i
            ⟨alignTo s.params.wSas a, 1⟩).finish .ok
          (localPtr s.params.localBaseSas s.params.wSas i (offIn s.params.wSas a))) ∨
       ((∀ j < s.params.nSas, (s.sasSlot j).ref ≠ 0) ∧ s.acquireSas a = s.finish .poolExhausted 0))) := by
  have hm : ∀ i, (s.sasSlot i).holds (alignTo s.params.wSas a) = false ↔ ¬ s.holdsSas b i := fun i => by
    rw [← SasSlot.holds_iff s a i hb, Bool.not_eq_true]
  have hz : ∀ i, ((s.sasSlot i).ref == 0) = false ↔ (s.sasSlot i).ref ≠ 0 := fun i => by
    rw [beq_eq_false_iff_ne]
  rw [State.acquireSas]
  cases h : scanPool s.params.nSas (fun i => (s.sasSlot i).holds (alignTo s.params.wSas a))
      (fun i => (s.sasSlot i).ref == 0) with
  | reuse i =>
    obtain ⟨hi, h1, hlow⟩ := scanPool_eq_reuse.mp h
    refine .inl ⟨i, hi, (SasSlot.holds_iff s a i hb).mp h1, fun j hj => (hm j).mp (hlow j hj), ?_⟩
    by_cases hr : (s.sasSlot i).ref = maxRef
    · exact .inl ⟨hr, if_pos hr⟩
    · exact .inr ⟨hr, if_neg hr⟩
  | allocate i =>
    obtain ⟨hnone, hi, hfree, hlow⟩ := scanPool_eq_allocate.mp h
    exact .inr ⟨fun j hj => (hm j).mp (hnone j hj),
      .inl ⟨i, hi, beq_iff_eq.mp hfree, fun j hj => (hz j).mp (hlow j hj), rfl⟩⟩
  | exhausted =>
    obtain ⟨hnone, hfull⟩ := scanPool_eq_exhausted.mp h
    exact .inr ⟨fun j hj => (hm j).mp (hnone j hj), .inr ⟨fun j hj => (hz j).mp (hfull j hj), rfl⟩⟩

/-- The address of WACQ.HP as a number (R92). -/
theorem State.toNat_hpAddr (s : State) : s.hpAddr.toNat = s.arg1.toNat * 2 ^ 32 + s.arg0.toNat := by
  rw [State.hpAddr, BitVec.toNat_append, ← Nat.shiftLeft_add_eq_or_of_lt s.arg0.isLt, Nat.shiftLeft_eq]

theorem eq_maxRef_iff {r : Word} : r = maxRef ↔ r.toNat = 2 ^ 32 - 1 := by
  rw [← BitVec.toNat_inj]; rfl

/-- A live slot's count stays above 0 when it is raised below the limit, and when it is lowered from above 1. -/
theorem ref_add_one_ne_zero {r : Word} (h : r ≠ maxRef) : r + 1 ≠ 0 := by
  intro h0
  apply h
  have := congrArg BitVec.toNat h0
  have hr := r.isLt
  simp [BitVec.toNat_add] at this
  rw [eq_maxRef_iff]
  omega

theorem ref_sub_one_ne_zero {r : Word} (h : r ≠ 1) : r - 1 ≠ 0 := fun h0 => h (sub_eq_zero.mp h0)

/-! ## Pointers (R68, R175, R176) -/

/-- The slot and offset of a pointer, by where it lies. -/
theorem slotOfPtr_eq_some {lb p : Word} {w n : Nat} (hw : 0 < w) {i : Nat} :
    slotOfPtr lb w n p = some i ↔
      i < n ∧ ∃ x < w, p.toNat = lb.toNat + i * w + x ∧ offsetInSlot lb w p = x := by
  simp only [slotOfPtr, offsetInSlot]
  constructor
  · intro h
    split at h
    · next hc =>
      obtain rfl := Option.some.inj h
      refine ⟨hc.2, _, Nat.mod_lt _ hw, ?_, rfl⟩
      have := Nat.div_add_mod (p.toNat - lb.toNat) w
      rw [Nat.mul_comm] at this
      omega
    · cases h
  · rintro ⟨hi, x, hx, hp, -⟩
    have hsub : p.toNat - lb.toNat = x + i * w := by omega
    have hdiv : (p.toNat - lb.toNat) / w = i := by
      rw [hsub, Nat.add_mul_div_right _ _ hw, Nat.div_eq_of_lt hx, Nat.zero_add]
    rw [if_pos ⟨by omega, by omega⟩, hdiv]

theorem offsetInSlot_of_eq {lb p : Word} {w : Nat} (i : Nat) {x : Nat} (hx : x < w)
    (hp : p.toNat = lb.toNat + i * w + x) : offsetInSlot lb w p = x := by
  simp only [offsetInSlot]
  rw [show p.toNat - lb.toNat = x + i * w by omega, Nat.add_mul_mod_self_right, Nat.mod_eq_of_lt hx]

/-- A pointer is in no slot exactly when it is out of the pool's range. -/
theorem slotOfPtr_eq_none {lb p : Word} {w n : Nat} (hw : 0 < w) :
    slotOfPtr lb w n p = none ↔ p.toNat < lb.toNat ∨ lb.toNat + n * w ≤ p.toNat := by
  simp only [slotOfPtr]
  split
  · next h =>
    have := (Nat.div_lt_iff_lt_mul hw).mp h.2
    simp; omega
  · next h =>
    simp only [true_iff]
    by_contra hc
    apply h
    refine ⟨by omega, (Nat.div_lt_iff_lt_mul hw).mpr (by omega)⟩

/-- The pointer checks of R176. -/
theorem releaseSlot_eq_none {m : ReleaseAlign} {lb p : Word} {w n : Nat} (hw : 0 < w) :
    releaseSlot m lb w n p = none ↔
      (p.toNat < lb.toNat ∨ lb.toNat + n * w ≤ p.toNat) ∨ (m = .base ∧ offsetInSlot lb w p ≠ 0) := by
  cases m <;> simp only [releaseSlot]
  · simp [slotOfPtr_eq_none hw]
  · split
    · next h => simp [slotOfPtr_eq_none hw, h]
    · next h => simp [h]

theorem releaseSlot_eq_some {m : ReleaseAlign} {lb p : Word} {w n : Nat} (hw : 0 < w) {i : Nat} :
    releaseSlot m lb w n p = some i ↔
      i < n ∧ ∃ x < w, p.toNat = lb.toNat + i * w + x ∧ (m = .base → x = 0) := by
  cases m <;> simp only [releaseSlot]
  · rw [slotOfPtr_eq_some hw]
    constructor
    · rintro ⟨hi, x, hx, hp, -⟩; exact ⟨hi, x, hx, hp, by simp⟩
    · rintro ⟨hi, x, hx, hp, -⟩; exact ⟨hi, x, hx, hp, offsetInSlot_of_eq i hx hp⟩
  · constructor
    · intro h
      split at h
      · next h0 =>
        obtain ⟨hi, x, hx, hp, ho⟩ := (slotOfPtr_eq_some hw).mp h
        exact ⟨hi, x, hx, hp, fun _ => by omega⟩
      · cases h
    · rintro ⟨hi, x, hx, hp, h0⟩
      obtain rfl := h0 trivial
      rw [if_pos (offsetInSlot_of_eq i hx hp)]
      exact (slotOfPtr_eq_some hw).mpr ⟨hi, 0, hx, hp, offsetInSlot_of_eq i hx hp⟩

/-- R175's pointer, while it does not wrap. -/
theorem toNat_localPtr {lb : Word} {w i off : Nat} (h : lb.toNat + i * w + off < 2 ^ 32) :
    (localPtr lb w i off).toNat = lb.toNat + i * w + off := by
  simp only [localPtr, BitVec.toNat_ofNat]; omega

/-! ## Release (R176) -/

/-- Everything `Release(HP, p)` can do. -/
theorem State.releaseHp_cases (s : State) (p : Word) :
    (releaseSlot s.params.releaseAlign s.params.localBaseHp s.params.wHp s.params.nHp p = none ∧
      s.releaseHp p = s.finish .badPointer 0) ∨
    (∃ i, releaseSlot s.params.releaseAlign s.params.localBaseHp s.params.wHp s.params.nHp p = some i ∧
      (((s.hpSlot i).ref = 0 ∧ s.releaseHp p = s.finish .notAcquired 0) ∨
       ((s.hpSlot i).ref = 1 ∧
        s.releaseHp p = ((s.writeWins (clearHpWrites i)).setHpSlot i HpSlot.free).finish .ok 0) ∨
       ((s.hpSlot i).ref ≠ 0 ∧ (s.hpSlot i).ref ≠ 1 ∧
        s.releaseHp p =
          (s.setHpSlot i { s.hpSlot i with ref := (s.hpSlot i).ref - 1 }).finish .ok 0))) := by
  simp only [State.releaseHp]
  split
  · next h => exact .inl ⟨h, rfl⟩
  · next i h =>
    refine .inr ⟨i, h, ?_⟩
    split
    · next h0 => exact .inl ⟨h0, rfl⟩
    · split
      · next h0 h1 => exact .inr (.inl ⟨h1, rfl⟩)
      · next h0 h1 => exact .inr (.inr ⟨h0, h1, rfl⟩)

/-- Everything `Release(SAS, p)` can do. -/
theorem State.releaseSas_cases (s : State) (p : Word) :
    (releaseSlot s.params.releaseAlign s.params.localBaseSas s.params.wSas s.params.nSas p = none ∧
      s.releaseSas p = s.finish .badPointer 0) ∨
    (∃ i, releaseSlot s.params.releaseAlign s.params.localBaseSas s.params.wSas s.params.nSas p = some i ∧
      (((s.sasSlot i).ref = 0 ∧ s.releaseSas p = s.finish .notAcquired 0) ∨
       ((s.sasSlot i).ref = 1 ∧
        s.releaseSas p = ((s.writeWins (clearSasWrites i)).setSasSlot i SasSlot.free).finish .ok 0) ∨
       ((s.sasSlot i).ref ≠ 0 ∧ (s.sasSlot i).ref ≠ 1 ∧
        s.releaseSas p =
          (s.setSasSlot i { s.sasSlot i with ref := (s.sasSlot i).ref - 1 }).finish .ok 0))) := by
  simp only [State.releaseSas]
  split
  · next h => exact .inl ⟨h, rfl⟩
  · next i h =>
    refine .inr ⟨i, h, ?_⟩
    split
    · next h0 => exact .inl ⟨h0, rfl⟩
    · split
      · next h0 h1 => exact .inr (.inl ⟨h1, rfl⟩)
      · next h0 h1 => exact .inr (.inr ⟨h0, h1, rfl⟩)

/-! ## Register programming (R178) -/

/-- Program and Clear of the HP pool, as their end effect. -/
theorem State.writeWins_programHp (s : State) (i : Nat) (b : Word64) (t : Tag) :
    s.writeWins (programHpWrites i b t) = { s with hpWin := s.hpWin.set i (programmedHp b t) } := by
  simp only [programHpWrites, State.writeWins, State.writeWin, State.hpReg, List.set_set, getD_set_eq]
  by_cases h : i < s.hpWin.length
  · simp [h, programmedHp]
  · simp [List.set_eq_of_length_le (Nat.le_of_not_lt h)]

theorem State.writeWins_clearHp (s : State) (i : Nat) :
    s.writeWins (clearHpWrites i) = { s with hpWin := s.hpWin.set i HpWin.cleared } := by
  simp only [clearHpWrites, State.writeWins, State.writeWin, State.hpReg, List.set_set, getD_set_eq]
  by_cases h : i < s.hpWin.length
  · simp [h, HpWin.cleared]
  · simp [List.set_eq_of_length_le (Nat.le_of_not_lt h)]

/-- Program and Clear of the SAS pool, as their end effect. -/
theorem State.writeWins_programSas (s : State) (i : Nat) (b : Word) :
    s.writeWins (programSasWrites i b) = { s with sasWin := s.sasWin.set i (programmedSas b) } := rfl

theorem State.writeWins_clearSas (s : State) (i : Nat) :
    s.writeWins (clearSasWrites i) = { s with sasWin := s.sasWin.set i 0 } := rfl

/-! ## Register images as arithmetic (R32, R33) -/

theorem hpHiImage_eq (b : Word64) : hpHiImage b = BitVec.ofNat 32 (b.toNat / 2 ^ 32) := by
  apply BitVec.eq_of_toNat_eq
  simp [hpHiImage, BitVec.extractLsb'_toNat, Nat.shiftRight_eq_div_pow]

/-- The low register: BASE[31:26], the tag in bit 1 and EN in bit 0. -/
theorem hpLoImage_eq (b : Word64) (t : Tag) :
    hpLoImage b t = BitVec.ofNat 32 (b.toNat / 2 ^ 26 % 2 ^ 6 * 2 ^ 26 + (if t = .reg then 2 else 0) + 1) := by
  apply BitVec.eq_of_toNat_eq
  have e : ∀ x : BitVec 6, ∀ y : BitVec 1, (x ++ 0#24 ++ y ++ 1#1 : Word).toNat = x.toNat * 2 ^ 26 + y.toNat * 2 + 1 := by
    intro x y
    simp only [BitVec.toNat_append, Nat.shiftLeft_eq]
    have hx := x.isLt
    have hy := y.isLt
    rw [show (x.toNat * 2 ^ 24 ||| (0#24).toNat) = x.toNat * 2 ^ 24 by simp]
    rw [show x.toNat * 2 ^ 24 * 2 ^ 1 = (x.toNat * 2 ^ 24) <<< 1 by rw [Nat.shiftLeft_eq],
      ← Nat.shiftLeft_add_eq_or_of_lt (by omega), Nat.shiftLeft_eq]
    rw [show (x.toNat * 2 ^ 24 * 2 ^ 1 + y.toNat) * 2 ^ 1 = (x.toNat * 2 ^ 24 * 2 ^ 1 + y.toNat) <<< 1 by
      rw [Nat.shiftLeft_eq], ← Nat.shiftLeft_add_eq_or_of_lt (by decide), Nat.shiftLeft_eq]
    simp; omega
  have hx : (b.extractLsb' 26 6).toNat = b.toNat / 2 ^ 26 % 2 ^ 6 := by
    simp [BitVec.extractLsb'_toNat, Nat.shiftRight_eq_div_pow]
  rw [hpLoImage, e, hx, BitVec.toNat_ofNat]
  cases t <;> simp [Tag.bit] <;> omega

/-- The SAS register: BASE[31:20], and EN in bit 0. -/
theorem programmedSas_eq (b : Word) : programmedSas b = BitVec.ofNat 32 (b.toNat / 2 ^ 20 * 2 ^ 20 + 1) := by
  apply BitVec.eq_of_toNat_eq
  have e : ∀ x : BitVec 12, (x ++ 0#19 ++ 1#1 : Word).toNat = x.toNat * 2 ^ 20 + 1 := by
    intro x
    simp only [BitVec.toNat_append, Nat.shiftLeft_eq]
    rw [show (x.toNat * 2 ^ 19 ||| (0#19).toNat) = x.toNat * 2 ^ 19 by simp]
    rw [show x.toNat * 2 ^ 19 * 2 ^ 1 = (x.toNat * 2 ^ 19) <<< 1 by rw [Nat.shiftLeft_eq],
      ← Nat.shiftLeft_add_eq_or_of_lt (by decide), Nat.shiftLeft_eq]
    simp; omega
  have hx : (b.extractLsb' 20 12).toNat = b.toNat / 2 ^ 20 % 2 ^ 12 := by
    simp [BitVec.extractLsb'_toNat, Nat.shiftRight_eq_div_pow]
  have := b.isLt
  rw [programmedSas, e, hx, BitVec.toNat_ofNat]
  omega

/-- A programmed HP window is enabled and gives back the tag it was programmed with (R32). -/
theorem programmedHp_view (b : Word64) (t : Tag) :
    winEnabled (programmedHp b t).lo = true ∧ (programmedHp b t).tag = t := by
  refine ⟨?_, ?_⟩
  · simp only [winEnabled, programmedHp, hpLoImage, BitVec.getLsbD_append]; rfl
  · cases t <;> simp only [HpWin.tag, programmedHp, hpLoImage, BitVec.getLsbD_append, Tag.bit] <;> rfl

/-- It gives back a base that has no bits below the image's lowest base bit (R186). -/
theorem programmedHp_base {b : Word64} (h : b.toNat % 2 ^ 26 = 0) (t : Tag) : (programmedHp b t).base = b := by
  have hb : ∀ k < 26, b.getLsbD k = false := by
    intro k hk
    have hm : (BitVec.ofNat 26 b.toNat) = 0#26 := by
      apply BitVec.eq_of_toNat_eq; rw [BitVec.toNat_ofNat, h]; rfl
    have := congrArg (fun x => x.getLsbD k) hm
    simpa [hk, BitVec.getLsbD_ofNat, BitVec.testBit_toNat] using this
  · apply BitVec.eq_of_getLsbD_eq
    intro k hk
    simp only [HpWin.base, programmedHp, hpLoImage, hpHiImage, BitVec.getLsbD_append, BitVec.getLsbD_extractLsb']
    by_cases h1 : k < 26
    · simp [h1, hb k h1]
    · by_cases h2 : k < 32
      · obtain ⟨d, rfl⟩ : ∃ d, k = 26 + d := ⟨k - 26, by omega⟩
        have : d < 6 := by omega
        simp [this]
      · simp [h1, show ¬ k - 26 < 6 by omega, show k - 26 - 6 < 32 by omega, show 32 + (k - 26 - 6) = k by omega]

/-- A cleared HP window is disabled. -/
theorem cleared_disabled : winEnabled HpWin.cleared.lo = false ∧ winEnabled 0 = false := by decide

/-- A programmed SAS window is enabled (R33). -/
theorem programmedSas_enabled (b : Word) : winEnabled (programmedSas b) = true := by
  simp only [winEnabled, programmedSas, BitVec.getLsbD_append]; rfl

/-- It gives back a base that has no bits below the image's lowest base bit (R186). -/
theorem programmedSas_base {b : Word} (h : b.toNat % 2 ^ 20 = 0) : sasWinBase (programmedSas b) = b := by
  have hb : ∀ k < 20, b.getLsbD k = false := by
    intro k hk
    have hm : (BitVec.ofNat 20 b.toNat) = 0#20 := by
      apply BitVec.eq_of_toNat_eq; rw [BitVec.toNat_ofNat, h]; rfl
    have := congrArg (fun x => x.getLsbD k) hm
    simpa [hk, BitVec.getLsbD_ofNat, BitVec.testBit_toNat] using this
  · apply BitVec.eq_of_getLsbD_eq
    intro k hk
    simp only [sasWinBase, programmedSas, BitVec.getLsbD_append, BitVec.getLsbD_extractLsb']
    by_cases h1 : k < 20
    · simp [h1, hb k h1]
    · obtain ⟨d, rfl⟩ : ∃ d, k = 20 + d := ⟨k - 20, by omega⟩
      have : d < 12 := by omega
      simp [this]

/-- A window size of at least 2^k is a multiple of 2^k, and so is every base aligned to it (R7). -/
theorem mod_two_pow_of_mod {b k m : Nat} (hk : k ≤ m) (h : b % 2 ^ m = 0) : b % 2 ^ k = 0 :=
  Nat.mod_eq_zero_of_dvd ((Nat.pow_dvd_pow 2 hk).trans (Nat.dvd_of_mod_eq_zero h))

/-! ## The pools' invariants under the updates (R34, R35) -/

/-- `WindowInv` reads the slots, the window registers and the parameters only. -/
theorem WindowInv.congr {s t : State} (h : WindowInv s) (h0 : t.params = s.params) (h1 : t.hpSlots = s.hpSlots)
    (h2 : t.hpWin = s.hpWin) (h3 : t.sasSlots = s.sasSlots) (h4 : t.sasWin = s.sasWin) : WindowInv t := by
  obtain ⟨e, f, a, b, c, d⟩ := h
  simp only [State.hpSlot, State.sasSlot, State.hpReg, State.sasReg] at a b c d
  constructor <;> simp only [State.hpSlot, State.sasSlot, State.hpReg, State.sasReg, h0, h1, h2, h3, h4] <;> assumption

/-- Writing one HP slot and its registers together. -/
theorem WindowInv.setHp {s : State} (h : WindowInv s) (i : Nat) (x : HpSlot) (w : HpWin)
    (hl : x.ref ≠ 0 → x.base.toNat % s.params.wHp = 0 ∧ w = programmedHp x.base x.tag)
    (hf : x.ref = 0 → x.base = 0xFFFFFFFFFFFFFFFF ∧ x.tag = .mem ∧ w = ⟨0, 0⟩) :
    WindowInv { s with hpSlots := s.hpSlots.set i x, hpWin := s.hpWin.set i w } := by
  obtain ⟨e, f, a, b, c, d⟩ := h
  refine ⟨by simpa using e, f, fun j hj => ?_, fun j hj => ?_, c, d⟩ <;>
    simp only [State.hpSlot, State.hpReg, getD_set_eq, e.1, e.2] <;> split
  · exact hl
  · exact a j hj
  · exact hf
  · exact b j hj

/-- Writing one SAS slot and its register together. -/
theorem WindowInv.setSas {s : State} (h : WindowInv s) (i : Nat) (x : SasSlot) (w : Word)
    (hl : x.ref ≠ 0 → x.base.toNat % s.params.wSas = 0 ∧ w = programmedSas x.base)
    (hf : x.ref = 0 → x.base = 0xFFFFFFFF ∧ w = 0) :
    WindowInv { s with sasSlots := s.sasSlots.set i x, sasWin := s.sasWin.set i w } := by
  obtain ⟨e, f, a, b, c, d⟩ := h
  refine ⟨e, by simpa using f, a, b, fun j hj => ?_, fun j hj => ?_⟩ <;>
    simp only [State.sasSlot, State.sasReg, getD_set_eq, f.1, f.2] <;> split
  · exact hl
  · exact c j hj
  · exact hf
  · exact d j hj

/-- `UniqueInv` reads the slots and the parameters only. -/
theorem UniqueInv.congr {s t : State} (h : UniqueInv s) (h0 : t.params = s.params) (h1 : t.hpSlots = s.hpSlots)
    (h3 : t.sasSlots = s.sasSlots) : UniqueInv t := by
  obtain ⟨a, b⟩ := h
  simp only [State.hpSlot, State.sasSlot] at a b
  constructor <;> simp only [State.hpSlot, State.sasSlot, h0, h1, h3] <;> assumption

/-- Writing one HP slot, when no other live slot holds what it then holds. -/
theorem UniqueInv.setHp {s : State} (h : UniqueInv s) (i : Nat) (x : HpSlot)
    (hl : x.ref ≠ 0 → ∀ j < s.params.nHp, j ≠ i → (s.hpSlot j).ref ≠ 0 → (s.hpSlot j).base = x.base →
      (s.hpSlot j).tag ≠ x.tag) : UniqueInv { s with hpSlots := s.hpSlots.set i x } := by
  refine ⟨fun j hj' k hk' => ?_, h.sas⟩
  rw [s.hpSlot_set, s.hpSlot_set]
  split <;> split <;> intro hj hk hb ht
  · omega
  · next e1 e2 => exact absurd ht.symm (hl hj k hk' (fun e => e2 ⟨e.symm, e1.2⟩) hk hb.symm)
  · next e1 e2 => exact absurd ht (hl hk j hj' (fun e => e1 ⟨e.symm, e2.2⟩) hj hb)
  · exact h.hp j hj' k hk' hj hk hb ht

/-- Writing one SAS slot, when no other live slot holds what it then holds. -/
theorem UniqueInv.setSas {s : State} (h : UniqueInv s) (i : Nat) (x : SasSlot)
    (hl : x.ref ≠ 0 → ∀ j < s.params.nSas, j ≠ i → (s.sasSlot j).ref ≠ 0 → (s.sasSlot j).base ≠ x.base) :
    UniqueInv { s with sasSlots := s.sasSlots.set i x } := by
  refine ⟨h.hp, fun j hj' k hk' => ?_⟩
  rw [s.sasSlot_set, s.sasSlot_set]
  split <;> split <;> intro hj hk hb
  · omega
  · next e1 e2 => exact absurd hb.symm (hl hj k hk' (fun e => e2 ⟨e.symm, e1.2⟩) hk)
  · next e1 e2 => exact absurd hb (hl hk j hj' (fun e => e1 ⟨e.symm, e2.2⟩) hj)
  · exact h.sas j hj' k hk' hj hk hb

end Machine

end Sys2Proof
end

