-- ==== Sys2Proof/Laws/Exec.lean ====
section
/-! SUPPORT. What an instruction can do, said once: `exec_cases` lists every next state `exec` can answer, and the lemmas
before it say the same of the shared operations. -/

namespace Sys2Proof.Machine

/-- Every instruction answers a next state by its own `.next`; the halt check of a command that is not read-only (R230). -/
theorem State.unlessHalted_cases (s : State) (f : State → State) :
    (s.halted = true ∧ s.unlessHalted f = s.finish .halted 0) ∨ (s.halted = false ∧ s.unlessHalted f = f s) := by
  cases h : s.halted <;> simp [State.unlessHalted, h]

theorem State.unlessHalted_of_running {s : State} (h : s.halted = false) (f : State → State) :
    s.unlessHalted f = f s := by
  simp [State.unlessHalted, h]

theorem State.unlessHalted_of_halted {s : State} (h : s.halted = true) (f : State → State) :
    s.unlessHalted f = s.finish .halted 0 := by
  simp [State.unlessHalted, h]

/-! ## Frames of the shared operations -/

/-- An acquire writes its pool's slots and registers, or nothing. -/
theorem State.acquireHp_frame (s : State) (a : Word64) (t : Tag) :
    ∃ x y c v, s.acquireHp a t = { s with hpSlots := x, hpWin := y }.finish c v ∧
      c ∈ [Status.ok, .poolExhausted, .refOverflow] ∧ (c ≠ .ok → x = s.hpSlots ∧ y = s.hpWin ∧ v = 0) := by
  rcases s.acquireHp_cases a t rfl with ⟨i, _, _, _, ⟨_, h⟩ | ⟨_, h⟩⟩ | ⟨_, ⟨i, _, _, _, h⟩ | ⟨_, h⟩⟩
  · exact ⟨_, _, _, _, h, by simp, by simp⟩
  · exact ⟨_, _, _, _, h, by simp, by simp⟩
  · rw [State.writeWins_programHp] at h; exact ⟨_, _, _, _, h, by simp, by simp⟩
  · exact ⟨_, _, _, _, h, by simp, by simp⟩

theorem State.acquireSas_frame (s : State) (a : Word) :
    ∃ x y c v, s.acquireSas a = { s with sasSlots := x, sasWin := y }.finish c v ∧
      c ∈ [Status.ok, .poolExhausted, .refOverflow] ∧ (c ≠ .ok → x = s.sasSlots ∧ y = s.sasWin ∧ v = 0) := by
  rcases s.acquireSas_cases a rfl with ⟨i, _, _, _, ⟨_, h⟩ | ⟨_, h⟩⟩ | ⟨_, ⟨i, _, _, _, h⟩ | ⟨_, h⟩⟩
  · exact ⟨_, _, _, _, h, by simp, by simp⟩
  · exact ⟨_, _, _, _, h, by simp, by simp⟩
  · rw [State.writeWins_programSas] at h; exact ⟨_, _, _, _, h, by simp, by simp⟩
  · exact ⟨_, _, _, _, h, by simp, by simp⟩

/-- A release writes its pool's slots and registers, or nothing. -/
theorem State.releaseHp_frame (s : State) (p : Word) :
    ∃ x y c, s.releaseHp p = { s with hpSlots := x, hpWin := y }.finish c 0 ∧
      c ∈ [Status.ok, .badPointer, .notAcquired] ∧ (c ≠ .ok → x = s.hpSlots ∧ y = s.hpWin) := by
  rcases s.releaseHp_cases p with ⟨_, h⟩ | ⟨i, _, ⟨_, h⟩ | ⟨_, h⟩ | ⟨_, _, h⟩⟩
  · exact ⟨_, _, _, h, by simp, by simp⟩
  · exact ⟨_, _, _, h, by simp, by simp⟩
  · rw [State.writeWins_clearHp] at h; exact ⟨_, _, _, h, by simp, by simp⟩
  · exact ⟨_, _, _, h, by simp, by simp⟩

theorem State.releaseSas_frame (s : State) (p : Word) :
    ∃ x y c, s.releaseSas p = { s with sasSlots := x, sasWin := y }.finish c 0 ∧
      c ∈ [Status.ok, .badPointer, .notAcquired] ∧ (c ≠ .ok → x = s.sasSlots ∧ y = s.sasWin) := by
  rcases s.releaseSas_cases p with ⟨_, h⟩ | ⟨i, _, ⟨_, h⟩ | ⟨_, h⟩ | ⟨_, _, h⟩⟩
  · exact ⟨_, _, _, h, by simp, by simp⟩
  · exact ⟨_, _, _, h, by simp, by simp⟩
  · rw [State.writeWins_clearSas] at h; exact ⟨_, _, _, h, by simp, by simp⟩
  · exact ⟨_, _, _, h, by simp, by simp⟩

/-- A byte the RX port takes writes the receive machine's elements only. -/
theorem State.takeRxByte_frame (s : State) (b : Byte) :
    ∃ m st r p e k, s.takeRxByte b =
      { s with rxbuf := m, rxState := st, rxRemain := r, rxPlen := p, rxExpect := e, pktReady := k } := by
  unfold State.takeRxByte
  dsimp only
  split
  · unfold State.completeState
    split
    · unfold State.completeHeader
      split
      · dsimp only; split <;> exact ⟨_, _, _, _, _, _, rfl⟩
      · exact ⟨_, _, _, _, _, _, rfl⟩
    · exact ⟨_, _, _, _, _, _, rfl⟩
    · unfold State.completeFooter
      split
      · unfold State.updateExpect; split <;> exact ⟨_, _, _, _, _, _, rfl⟩
      · exact ⟨_, _, _, _, _, _, rfl⟩
  · exact ⟨_, _, _, _, _, _, rfl⟩

/-- TXBUILD emits a packet or finishes with RANGE (R118). -/
theorem State.buildPacket_cases (s : State) :
    (s.params.maxPayload < s.txPayloadLen.toNat ∧ s.buildPacket = s.finish .range 0) ∨
    (s.txPayloadLen.toNat ≤ s.params.maxPayload ∧
      s.buildPacket =
        { s with
          txSent := s.txSent + 1
          txout := s.txout ++ (s.outHeader (s.txSent + 1) ++ s.outPayload ++
            s.outFooter (s.outHeader (s.txSent + 1) ++ s.outPayload)) }.finish .ok (s.txSent + 1)) := by
  by_cases h : s.params.maxPayload < s.txPayloadLen.toNat
  · exact .inl ⟨h, if_pos h⟩
  · refine .inr ⟨Nat.le_of_not_lt h, ?_⟩
    rw [State.buildPacket, if_neg h]
    simp only [State.emit, State.finish, List.append_assoc]

/-! ## The inversion of `exec` -/

/-- What one instruction has done, when it answered `t`: it finished without an effect (an error code, or a read-only
command), or it had its one effect with code OK, or it was a byte of the RX port. -/
inductive Effect (s t : State) : Instr → Prop where
  /-- An error, or a read: RESULT and RSTAT only. -/
  | plain {i : Instr} (c : Status) (v : Word) (h : t = s.finish c v) (hc : i.isCommand = true)
      (hv : c ≠ .ok → v = 0) (hk : c ≠ .ok ∨ i.readOnly = true) : Effect s t i
  | wacqHp (g : Tag) (h : t = s.acquireHp s.hpAddr g) (hr : t.rstat = 0) : Effect s t (.wacqHp g)
  | wacqSas (h : t = s.acquireSas s.sasAddr) (h1 : s.arg1 = 0) (hr : t.rstat = 0) : Effect s t .wacqSas
  | wrelHp (h : t = s.releaseHp s.ptr) (hr : t.rstat = 0) : Effect s t .wrelHp
  | wrelSas (h : t = s.releaseSas s.ptr) (hr : t.rstat = 0) : Effect s t .wrelSas
  | txbuild (h : t = s.buildPacket) (hl : s.txPayloadLen.toNat ≤ s.params.maxPayload) : Effect s t .txbuild
  | txwr8 (h : t = { s with txbuf := s.txbuf.write s.offset s.data8 }.finish .ok 0)
      (ho : s.offset + 1 ≤ s.params.txbufSize) : Effect s t .txwr8
  | txwr32 (h : t = { s with txbuf := s.txbuf.write32 s.params.byteOrder s.offset s.data32 }.finish .ok 0)
      (ho : s.offset + 4 ≤ s.params.txbufSize) : Effect s t .txwr32
  | rxack (h : t = { s with pktReady := false }.finish .ok 0) (hr : s.pktReady = true) : Effect s t .rxack
  | csrCtrl (h : t = { s with connected := s.csrValue.getLsbD 0 }.finish .ok 0) : Effect s t (.csrwr 0x000)
  | csrExpect (h : t = { s with rxExpect := s.csrValue }.finish .ok 0) : Effect s t (.csrwr 0x004)
  | csrSent (h : t = { s with txSent := s.csrValue }.finish .ok 0) : Effect s t (.csrwr 0x005)
  | csrBeacon (h : t = { s with beaconCnt := s.csrValue }.finish .ok 0) : Effect s t (.csrwr 0x006)
  /-- The RX port took the byte, or is disabled and nothing changed (R140). -/
  | rxTaken (b : Byte) (he : s.rxEnabled = true) (h : t = s.takeRxByte b) : Effect s t (.rxByte b)
  | rxDisabled (b : Byte) (he : s.rxEnabled = false) (h : t = s) : Effect s t (.rxByte b)

/-- Everything `exec` can do. -/
theorem exec_cases {i : Instr} {s t : State} (h : exec i s = .next t) : Effect s t i := by
  have un : ∀ f, s.unlessHalted f = t → i.isCommand = true → Effect s t i ∨ (s.halted = false ∧ f s = t) := by
    intro f hf hc
    rcases s.unlessHalted_cases f with ⟨_, hu⟩ | ⟨hh, hu⟩
    · exact .inl (.plain .halted 0 (hf.symm.trans hu) hc (fun _ => rfl) (.inl (by simp)))
    · exact .inr ⟨hh, hu.symm.trans hf⟩
  cases i with
  | wacqHp g =>
    rcases un _ (Host.Outcome.next.inj h) rfl with h | ⟨_, h⟩
    · exact h
    · obtain ⟨x, y, c, v, ha, -, hf⟩ := s.acquireHp_frame s.hpAddr g
      by_cases hc : c = .ok
      · exact .wacqHp g h.symm (by rw [← h, ha, hc]; rfl)
      · obtain ⟨rfl, rfl, rfl⟩ := hf hc
        exact .plain c 0 (h.symm.trans ha) rfl (fun _ => rfl) (.inl hc)
  | wacqSas =>
    rcases un _ (Host.Outcome.next.inj h) rfl with h | ⟨_, h⟩
    · exact h
    · rw [State.acquireSasChecked] at h
      split at h
      · exact .plain .range 0 h.symm rfl (fun _ => rfl) (.inl (by simp))
      · next h1 =>
        obtain ⟨x, y, c, v, ha, -, hf⟩ := s.acquireSas_frame s.sasAddr
        by_cases hc : c = .ok
        · exact .wacqSas h.symm (not_not.mp h1) (by rw [← h, ha, hc]; rfl)
        · obtain ⟨rfl, rfl, rfl⟩ := hf hc
          exact .plain c 0 (h.symm.trans ha) rfl (fun _ => rfl) (.inl hc)
  | wrelHp =>
    rcases un _ (Host.Outcome.next.inj h) rfl with h | ⟨_, h⟩
    · exact h
    · obtain ⟨x, y, c, ha, -, hf⟩ := s.releaseHp_frame s.ptr
      by_cases hc : c = .ok
      · exact .wrelHp h.symm (by rw [← h, ha, hc]; rfl)
      · obtain ⟨rfl, rfl⟩ := hf hc
        exact .plain c 0 (h.symm.trans ha) rfl (fun _ => rfl) (.inl hc)
  | wrelSas =>
    rcases un _ (Host.Outcome.next.inj h) rfl with h | ⟨_, h⟩
    · exact h
    · obtain ⟨x, y, c, ha, -, hf⟩ := s.releaseSas_frame s.ptr
      by_cases hc : c = .ok
      · exact .wrelSas h.symm (by rw [← h, ha, hc]; rfl)
      · obtain ⟨rfl, rfl⟩ := hf hc
        exact .plain c 0 (h.symm.trans ha) rfl (fun _ => rfl) (.inl hc)
  | txbuild =>
    rcases un _ (Host.Outcome.next.inj h) rfl with h | ⟨_, h⟩
    · exact h
    · rcases s.buildPacket_cases with ⟨_, hb⟩ | ⟨hl, _⟩
      · exact .plain .range 0 (h.symm.trans hb) rfl (fun _ => rfl) (.inl (by simp))
      · exact .txbuild h.symm hl
  | txwr8 =>
    rcases un _ (Host.Outcome.next.inj h) rfl with h | ⟨_, h⟩
    · exact h
    · rw [State.txWrite8] at h
      split at h
      · exact .plain .range 0 h.symm rfl (fun _ => rfl) (.inl (by simp))
      · next ho => exact .txwr8 h.symm (Nat.le_of_not_lt ho)
  | txwr32 =>
    rcases un _ (Host.Outcome.next.inj h) rfl with h | ⟨_, h⟩
    · exact h
    · rw [State.txWrite32] at h
      split at h
      · exact .plain .range 0 h.symm rfl (fun _ => rfl) (.inl (by simp))
      · next ho => exact .txwr32 h.symm (Nat.le_of_not_lt ho)
  | rxack =>
    rcases un _ (Host.Outcome.next.inj h) rfl with h | ⟨_, h⟩
    · exact h
    · rw [State.ackPacket] at h
      split at h
      · next hr => exact .rxack h.symm hr
      · exact .plain .noPacket 0 h.symm rfl (fun _ => rfl) (.inl (by simp))
  | rxrd8 =>
    have h := Host.Outcome.next.inj h
    rw [State.rxRead8] at h
    split at h
    · exact .plain .range 0 h.symm rfl (fun _ => rfl) (.inl (by simp))
    · exact .plain .ok _ h.symm rfl (fun hc => absurd rfl hc) (.inr rfl)
  | rxrd32 =>
    have h := Host.Outcome.next.inj h
    rw [State.rxRead32] at h
    split at h
    · exact .plain .range 0 h.symm rfl (fun _ => rfl) (.inl (by simp))
    · exact .plain .ok _ h.symm rfl (fun hc => absurd rfl hc) (.inr rfl)
  | csrrd n =>
    have h := Host.Outcome.next.inj h
    split at h
    · exact .plain .illegal 0 h.symm rfl (fun _ => rfl) (.inl (by simp))
    · exact .plain .ok _ h.symm rfl (fun hc => absurd rfl hc) (.inr rfl)
  | csrwr n =>
    have h := Host.Outcome.next.inj h
    split at h
    · exact .plain .illegal 0 h.symm rfl (fun _ => rfl) (.inl (by simp))
    · next c hc =>
      rcases un _ h rfl with he | ⟨_, hw⟩
      · exact he
      · have hn : n = BitVec.ofNat 12 c.number := by
          rw [← (csrOfNumber_some hc).1, BitVec.ofNat_toNat, BitVec.setWidth_eq]
        subst hn
        cases c with
        | ctrl => exact .csrCtrl hw.symm
        | rxExpect => exact .csrExpect hw.symm
        | txSent => exact .csrSent hw.symm
        | beaconCnt => exact .csrBeacon hw.symm
        | status | rxRemain | rxPlen | hpSlotBaseLo i | hpSlotBaseHi i | hpSlotTag i | hpSlotRef i | hpWinLo i
        | hpWinHi i | sasSlotBase i | sasSlotRef i | sasWin i =>
          exact .plain .readOnly 0 hw.symm rfl (fun _ => rfl) (.inl (by simp))
  | rxByte b =>
    have h := Host.Outcome.next.inj h
    split at h
    · next he => exact .rxTaken b he h.symm
    · next he => exact .rxDisabled b (by simpa using he) h.symm

/-! ## RESULT and RSTAT are never read -/

theorem State.unlessHalted_finish (s : State) (c : Status) (v : Word) {f : State → State}
    (h : f (s.finish c v) = f s) : (s.finish c v).unlessHalted f = s.unlessHalted f := by
  have h1 : (s.finish c v).halted = s.halted := rfl
  rw [State.unlessHalted, State.unlessHalted, h1, h]
  rfl

/-- No command reads RESULT or RSTAT, so what one does after another has finished is what it would have done before
(R36). -/
theorem exec_finish {i : Instr} (hc : i.isCommand = true) (s : State) (c : Status) (v : Word) :
    exec i (s.finish c v) = exec i s := by
  cases i with
  | rxByte b => simp [Instr.isCommand] at hc
  | wacqHp g =>
    refine congrArg Host.Outcome.next (s.unlessHalted_finish c v ?_)
    let k := scanPool s.params.nHp (fun i => (s.hpSlot i).holds (alignTo s.params.wHp s.hpAddr) g)
      (fun i => (s.hpSlot i).ref == 0)
    change (s.finish c v).takeHp s.hpAddr g k = s.takeHp s.hpAddr g k
    generalize k = x
    cases x <;> rfl
  | wacqSas =>
    refine congrArg Host.Outcome.next (s.unlessHalted_finish c v ?_)
    let k := scanPool s.params.nSas (fun i => (s.sasSlot i).holds (alignTo s.params.wSas s.sasAddr))
      (fun i => (s.sasSlot i).ref == 0)
    change (if s.arg1 ≠ 0 then _ else State.takeSas _ _ k) = if s.arg1 ≠ 0 then _ else State.takeSas _ _ k
    generalize k = x
    cases x <;> rfl
  | wrelHp =>
    refine congrArg Host.Outcome.next (s.unlessHalted_finish c v ?_)
    simp only [State.releaseHp]
    rfl
  | wrelSas =>
    refine congrArg Host.Outcome.next (s.unlessHalted_finish c v ?_)
    simp only [State.releaseSas]
    rfl
  | txbuild => refine congrArg Host.Outcome.next (s.unlessHalted_finish c v ?_); rfl
  | txwr8 => refine congrArg Host.Outcome.next (s.unlessHalted_finish c v ?_); rfl
  | txwr32 => refine congrArg Host.Outcome.next (s.unlessHalted_finish c v ?_); rfl
  | rxack => refine congrArg Host.Outcome.next (s.unlessHalted_finish c v ?_); rfl
  | rxrd8 => rfl
  | rxrd32 => rfl
  | csrrd n =>
    refine congrArg Host.Outcome.next ?_
    rw [State.finish_params]
    cases csrOfNumber s.params n <;> rfl
  | csrwr n =>
    refine congrArg Host.Outcome.next ?_
    rw [State.finish_params]
    cases csrOfNumber s.params n with
    | none => rfl
    | some d => exact s.unlessHalted_finish c v (by cases d <;> rfl)

end Sys2Proof.Machine
end

