-- ==== Sys2Proof/Laws/PerInstr.lean ====
section
/-! SUPPORT. Statements for all instructions, made per instruction: the round trip of the encoder (R88 to R91, R94). -/

namespace Sys2Proof.Laws.RoundTrip

/-- Decoding an instruction's encoding gives the instruction. -/
def Statement (i : Instr) : Prop := decode (encode i) = .ok i

/-- A CC word's fields (R90), whatever its CSR number. -/
theorem fields_encodeCC (n : BitVec 12) (op : BitVec 8) :
    cmdRsv (encodeCC n op) = 0 ∧ cmdF (encodeCC n op) = 0 ∧ cmdCsrn (encodeCC n op) = n ∧
    (cmdOp (encodeCC n op)).toNat = op.toNat := by
  have hn := n.isLt
  have ho := op.isLt
  refine ⟨?_, ?_, ?_, ?_⟩
  · apply BitVec.eq_of_toNat_eq; rw [toNat_cmdRsv, toNat_encodeCC]; simp; omega
  · apply BitVec.eq_of_toNat_eq; rw [toNat_cmdF, toNat_encodeCC]; simp; omega
  · apply BitVec.eq_of_toNat_eq; rw [toNat_cmdCsrn, toNat_encodeCC]; omega
  · rw [toNat_cmdOp, toNat_encodeCC]; omega

theorem wacqHp (tag : Tag) : Statement (.wacqHp tag) := by cases tag <;> rfl
theorem wacqSas : Statement .wacqSas := rfl
theorem wrelHp : Statement .wrelHp := rfl
theorem wrelSas : Statement .wrelSas := rfl
theorem txbuild : Statement .txbuild := rfl
theorem txwr8 : Statement .txwr8 := rfl
theorem txwr32 : Statement .txwr32 := rfl
theorem rxack : Statement .rxack := rfl
theorem rxrd8 : Statement .rxrd8 := rfl
theorem rxrd32 : Statement .rxrd32 := rfl

theorem csrrd (n : BitVec 12) : Statement (.csrrd n) := by
  obtain ⟨hr, hf, hn, ho⟩ := fields_encodeCC n 0x0B#8
  simp [Statement, encode, decode, decodeCommand, decodeCC, hr, hf, hn, ho]

theorem csrwr (n : BitVec 12) : Statement (.csrwr n) := by
  obtain ⟨hr, hf, hn, ho⟩ := fields_encodeCC n 0x0C#8
  simp [Statement, encode, decode, decodeCommand, decodeCC, hr, hf, hn, ho]

theorem rxByte (b : Byte) : Statement (.rxByte b) := rfl

end Sys2Proof.Laws.RoundTrip
end

