-- ==== Sys2Proof/Laws/Receive.lean ====
section
/-! SUPPORT. The receive machine: the header and footer checks as the propositions of Safety.lean (spec/40_codec.md R114,
R117), the byte sum (R110), and what a completed state can do (spec/41_receive.md R143 to R146). -/

namespace Sys2Proof.Machine

/-! ## The byte sum (R110, R111) -/

theorem toNat_byteSum (bs : List Byte) : (byteSum bs).toNat = (bs.map BitVec.toNat).sum % 2 ^ 32 := by
  simp [byteSum]

theorem byteSum_append (a b : List Byte) : byteSum (a ++ b) = byteSum a + byteSum b := by
  apply BitVec.eq_of_toNat_eq
  rw [toNat_byteSum, BitVec.toNat_add, toNat_byteSum, toNat_byteSum, List.map_append, List.sum_append, Nat.add_mod]

/-- R111's checksum meets R112's rule. -/
theorem byteSum_add_checksum (bs : List Byte) : byteSum bs + checksum bs = 0 := by
  simp [checksum]

/-- A sum of bytes and a word vanish modulo 2^32, read as numbers (R112). -/
theorem sum_rule_iff (bs : List Byte) (c : Word) :
    byteSum bs + c = 0 ↔ ((bs.map BitVec.toNat).sum + c.toNat) % 2 ^ 32 = 0 := by
  rw [← BitVec.toNat_inj, BitVec.toNat_add, toNat_byteSum, Nat.mod_add_mod]; rfl

/-! ## The checks (R114, R117) -/

theorem State.headerValid_iff (s : State) : s.headerValid = true ↔ HeaderChecks s := by
  simp only [State.headerValid, State.magicOk, State.plenOk, State.requestOk, State.seqOk, State.subDeviceOk,
    Bool.and_eq_true, Bool.or_eq_true, Bool.not_eq_true', beq_iff_eq, decide_eq_true_eq, BitVec.le_def]
  constructor
  · rintro ⟨⟨⟨⟨h1, h2⟩, h3⟩, h4⟩, h5⟩
    exact ⟨h1, h2, h3, fun hc => h4.resolve_left (by simp [hc]), h5⟩
  · rintro ⟨h1, h2, h3, h4, h5⟩
    refine ⟨⟨⟨⟨h1, h2⟩, h3⟩, ?_⟩, h5⟩
    cases hc : s.connected
    · exact .inl rfl
    · exact .inr (h4 hc)

theorem State.footerValid_iff (s : State) : s.footerValid = true ↔ FooterChecks s := by
  simp only [State.footerValid, Bool.and_eq_true, beq_iff_eq, sum_rule_iff]
  have e : Config.hdrSize + s.rxPlen.toNat + 4 = 32 + s.rxPlen.toNat := by simp only [Config.hdrSize]; omega
  constructor
  · rintro ⟨h1, h2⟩
    exact ⟨h1, by rw [← e]; exact h2⟩
  · rintro ⟨h1, h2⟩
    exact ⟨h1, by rw [← e] at h2; exact h2⟩

/-! ## Completion (R143 to R146) -/

/-- `CompleteHeader()` by the validity of the header and its payload length. -/
theorem State.completeHeader_cases (s : State) :
    (HeaderChecks s ∧ (s.rxField 20).toNat ≠ 0 ∧
      s.completeHeader =
        { s with rxState := .payload, rxRemain := s.rxField 20, rxPlen := s.rxField 20 }) ∨
    (HeaderChecks s ∧ (s.rxField 20).toNat = 0 ∧
      s.completeHeader = { s with rxState := .footer, rxRemain := 8, rxPlen := s.rxField 20 }) ∨
    (¬ HeaderChecks s ∧ s.completeHeader = { s with rxState := .header, rxRemain := 28 }) := by
  rw [← s.headerValid_iff, State.completeHeader]
  by_cases h : s.headerValid = true
  · rw [if_pos h]
    by_cases h0 : s.rxField 20 = 0
    · exact .inr (.inl ⟨h, by rw [h0]; rfl, if_pos h0⟩)
    · exact .inl ⟨h, fun hz => h0 (BitVec.eq_of_toNat_eq hz), if_neg h0⟩
  · rw [if_neg h]; exact .inr (.inr ⟨h, rfl⟩)

/-- `UpdateExpect()` as an equation (R149). -/
theorem State.updateExpect_eq (s : State) :
    s.updateExpect = { s with rxExpect := expectAfter s (s.rxField 4) } := by
  cases h : s.params.rxSeqMode <;> simp only [State.updateExpect, expectAfter, h]

/-- `CompleteFooter()` by the validity of the footer. -/
theorem State.completeFooter_cases (s : State) :
    (FooterChecks s ∧
      s.completeFooter =
        { s with
          rxState := .header, rxRemain := 28, rxExpect := expectAfter s (s.rxField 4), pktReady := true }) ∨
    (¬ FooterChecks s ∧ s.completeFooter = { s with rxState := .header, rxRemain := 28 }) := by
  rw [← s.footerValid_iff, State.completeFooter]
  by_cases h : s.footerValid = true
  · rw [if_pos h, State.updateExpect_eq]; exact .inl ⟨h, rfl⟩
  · rw [if_neg h]; exact .inr ⟨h, rfl⟩

/-- The stored byte does not complete its state. -/
theorem State.takeRxByte_of_more {s : State} {b : Byte} (h : s.rxRemain - 1 ≠ 0) :
    s.takeRxByte b = { s with rxbuf := s.rxbuf.write s.rxPos b, rxRemain := s.rxRemain - 1 } := if_neg h

/-- The stored byte completes its state. -/
theorem State.takeRxByte_of_last {s : State} {b : Byte} (h : s.rxRemain - 1 = 0) :
    s.takeRxByte b = (s.storeRxByte b).completeState := if_pos h

/-- The stored byte completes HEADER. -/
theorem State.takeRxByte_header {s : State} {b : Byte} (h : s.rxRemain - 1 = 0) (hs : s.rxState = .header) :
    s.takeRxByte b = (s.storeRxByte b).completeHeader := by
  rw [State.takeRxByte_of_last h]
  unfold State.completeState
  rw [show (s.storeRxByte b).rxState = .header from hs]

/-- The stored byte completes PAYLOAD (R144). -/
theorem State.takeRxByte_payload {s : State} {b : Byte} (h : s.rxRemain - 1 = 0) (hs : s.rxState = .payload) :
    s.takeRxByte b = { s with rxbuf := s.rxbuf.write s.rxPos b, rxState := .footer, rxRemain := 8 } := by
  rw [State.takeRxByte_of_last h]
  unfold State.completeState
  rw [show (s.storeRxByte b).rxState = .payload from hs]
  rfl

/-- The stored byte completes FOOTER. -/
theorem State.takeRxByte_footer {s : State} {b : Byte} (h : s.rxRemain - 1 = 0) (hs : s.rxState = .footer) :
    s.takeRxByte b = (s.storeRxByte b).completeFooter := by
  rw [State.takeRxByte_of_last h]
  unfold State.completeState
  rw [show (s.storeRxByte b).rxState = .footer from hs]

/-- The fields of rxbuf depend on rxbuf and the byte order only. -/
theorem State.rxField_congr {s t : State} (h1 : t.rxbuf = s.rxbuf) (h2 : t.params = s.params) (o : Nat) :
    t.rxField o = s.rxField o := by rw [State.rxField, State.rxField, h1, h2]

/-- `HeaderChecks` reads rxbuf, the parameters, CONNECTED and RX_EXPECT only. -/
theorem HeaderChecks.congr {s t : State} (h : HeaderChecks s) (h1 : t.rxbuf = s.rxbuf) (h2 : t.params = s.params)
    (h3 : t.connected = s.connected) (h4 : t.rxExpect = s.rxExpect) : HeaderChecks t := by
  obtain ⟨a, b, c, d, e⟩ := h
  have hf := State.rxField_congr h1 h2
  constructor
  · rw [hf, h2]; exact a
  · rw [hf, h2]; exact b
  · rw [hf, h2]; exact c
  · rw [hf, h3, h4]; exact d
  · rw [hf, h2]; exact e

/-- `FooterChecks` reads rxbuf, RX_PLEN and the parameters only. -/
theorem FooterChecks.congr {s t : State} (h : FooterChecks s) (h1 : t.rxbuf = s.rxbuf) (h2 : t.params = s.params)
    (h3 : t.rxPlen = s.rxPlen) : FooterChecks t := by
  obtain ⟨a, b⟩ := h
  have hf := State.rxField_congr h1 h2
  constructor
  · rw [h1, h3, hf]; exact a
  · rw [hf, h2, h3]; exact b

/-- `HeaderAdmitted` reads rxbuf, RX_PLEN and the parameters only. -/
theorem HeaderAdmitted.congr {s t : State} (h : HeaderAdmitted s) (h1 : t.rxbuf = s.rxbuf) (h2 : t.params = s.params)
    (h3 : t.rxPlen = s.rxPlen) : HeaderAdmitted t := by
  obtain ⟨a, b, c, d⟩ := h
  have hf := State.rxField_congr h1 h2
  constructor
  · rw [hf, h2]; exact a
  · rw [hf, h3]; exact b
  · rw [hf, h2]; exact c
  · rw [hf, h2]; exact d

/-- `RxInv` reads the receive machine's registers and the parameters only. -/
theorem RxInv.congr {s t : State} (h : RxInv s) (h1 : t.rxState = s.rxState) (h2 : t.rxRemain = s.rxRemain)
    (h3 : t.rxPlen = s.rxPlen) (h5 : t.params = s.params) (h4 : t.pktReady = true → s.pktReady = true) : RxInv t := by
  obtain ⟨a, b, c, d⟩ := h
  refine ⟨h2 ▸ a, ?_, by rw [h3, h5]; exact c, fun hp => ?_⟩
  · unfold State.rxTarget at b ⊢; rw [h1, h2, h3]; exact b
  · rw [h1, h2]; exact d (h4 hp)

/-! ## Positions (R141) -/

/-- Under R27 and R28 the next byte lies inside rxbuf. -/
theorem State.rxPos_lt {s : State} (hw : s.params.wf) (h : RxInv s) : s.rxPos < s.params.bufSize := by
  have h1 := h.low
  have h2 := h.high
  have h3 := h.plen
  have h4 := hw.2.2.2.2.1
  unfold State.rxTarget at h2
  unfold State.rxPos
  simp only [Params.maxPayload] at h3
  cases hs : s.rxState <;> simp only [hs, Config.hdrSize, Config.ftrSize] at h2 h3 h4 ⊢ <;> omega

end Sys2Proof.Machine
end

