-- ==== Sys2Proof/Laws/Step.lean ====
section
/-! SUPPORT. What a step can do, said once: `step_cases` takes the move off the schedule, `Move` and `runTurn_cases` list
every next state a move can answer. -/

namespace Sys2Proof.Machine

/-- What one move has done, when it answered `t`. -/
inductive Move (s t : State) : Turn → Prop where
  /-- A command whose word decodes (R86). -/
  | command (c : Command) (i : Instr) (hd : decode (.command c.cmd) = .ok i) (h : exec i (s.present c) = .next t) :
      Move s t (.command c)
  /-- A command whose word no row matches (R93). -/
  | illegal (c : Command) (e : DecodeError) (hd : decode (.command c.cmd) = .error e)
      (h : t = (s.present c).finish .illegal 0) : Move s t (.command c)
  /-- The RX port took the head of the line (R142). -/
  | rxTaken (b : Byte) (line : List Byte) (hl : s.rxLine = b :: line) (hh : s.halted = false) (hp : s.pktReady = false)
      (h : t = { s with rxLine := line }.takeRxByte b) : Move s t .rx
  /-- Nothing is offered, or the port is disabled (R140). -/
  | rxIdle (hn : s.rxLine = [] ∨ s.halted = true ∨ s.pktReady = true) (h : t = s) : Move s t .rx
  | access (a : Access) (x : ExtAccess) (hx : s.translate a = .ok x) (h : t = { s with extOut := s.extOut ++ [x] }) :
      Move s t (.windowAccess a)
  | txTake (h : t = s.takeTx) : Move s t .txTake
  | transportFault (h : t = s.transportFault) : Move s t .transportFault
  | reset (h : t = s.applyReset) : Move s t .reset

/-- Everything a move can do. -/
theorem runTurn_cases {s t : State} {m : Turn} (h : s.runTurn m = .next t) : Move s t m := by
  cases m with
  | rx =>
    simp only [State.runTurn, State.offerRx] at h
    split at h
    · next hl => exact .rxIdle (.inl hl) (Host.Outcome.next.inj h).symm
    · next b line hl =>
      by_cases he : s.rxEnabled = true
      · rw [if_pos he] at h
        have hd : s.halted = false ∧ s.pktReady = false := by simpa [State.rxEnabled] using he
        refine .rxTaken b line hl hd.1 hd.2 ?_
        have h := Host.Outcome.next.inj h
        rw [if_pos (show State.rxEnabled { s with rxLine := line } = true from he)] at h
        exact h.symm
      · rw [if_neg he] at h
        have hd : s.halted = true ∨ s.pktReady = true := by
          cases hh : s.halted <;> cases hp : s.pktReady <;> simp_all [State.rxEnabled]
        exact .rxIdle (.inr hd) (Host.Outcome.next.inj h).symm
  | command c =>
    simp only [State.runTurn, State.runCommand] at h
    split at h
    · next i hd => exact .command c i hd h
    · next e hd => exact .illegal c e hd (Host.Outcome.next.inj h).symm
  | windowAccess a =>
    simp only [State.runTurn, State.windowAccess] at h
    split at h
    · cases h
    · next x hx => exact .access a x hx (Host.Outcome.next.inj h).symm
  | txTake => exact .txTake (Host.Outcome.next.inj h).symm
  | transportFault => exact .transportFault (Host.Outcome.next.inj h).symm
  | reset => exact .reset (Host.Outcome.next.inj h).symm

/-- A step runs the head of the schedule, or is idle. -/
theorem step_cases {s t : State} (h : step s = .next t) :
    (s.schedule = [] ∧ t = s) ∨
    ∃ m rest, s.schedule = m :: rest ∧ Move { s with schedule := rest } t m := by
  unfold step at h
  split at h
  · next hs => exact .inl ⟨hs, (Host.Outcome.next.inj h).symm⟩
  · next m rest hs => exact .inr ⟨m, rest, hs, runTurn_cases h⟩

theorem step_of_schedule {s : State} {m : Turn} {rest : List Turn} (h : s.schedule = m :: rest) :
    step s = { s with schedule := rest }.runTurn m := by
  unfold step; rw [h]

/-- A property of a state that no change of the schedule touches and that every move keeps is kept by every step. -/
theorem step_keeps {P : State → Prop} (hs : ∀ (s : State) l, P s → P { s with schedule := l })
    (hm : ∀ s t m, P s → Move s t m → P t) {s t : State} (hp : P s) (h : step s = .next t) : P t := by
  rcases step_cases h with ⟨-, rfl⟩ | ⟨m, rest, -, hmv⟩
  · exact hp
  · exact hm _ _ m (hs s rest hp) hmv

end Sys2Proof.Machine
end

