-- ==== Sys2Proof/Laws/Run.lean ====
section
/-! SUPPORT. Runs of the RX port: how `Core.run` composes, and what the bytes of an incomplete state leave
(spec/41_receive.md R142). -/

namespace Sys2Proof.Machine

/-- A run takes its first step first. -/
theorem run_succ {n : Nat} {s u : State} (h : step s = .next u) :
    Sys2Proof.core.run (n + 1) s = Sys2Proof.core.run n u := by
  have e : ∀ (M : Host.Core) (n : Nat) (s u : M.State), M.step s = .next u → M.run (n + 1) s = M.run n u := by
    intro M n s u h
    simp only [Host.Core.run, h]
  exact e Sys2Proof.core n s u h

/-- A run that ends in a next state took a first step. -/
theorem run_succ_next {n : Nat} {s t : State} (h : Sys2Proof.core.run (n + 1) s = .next t) :
    ∃ u, step s = .next u ∧ Sys2Proof.core.run n u = .next t := by
  have e : ∀ (M : Host.Core) (n : Nat) (s t : M.State), M.run (n + 1) s = .next t →
      ∃ u, M.step s = .next u ∧ M.run n u = .next t := by
    intro M n s t h
    simp only [Host.Core.run] at h
    cases hs : M.step s with
    | next u => rw [hs] at h; exact ⟨u, rfl, h⟩
    | fault r => rw [hs] at h; cases h
    | refused r => rw [hs] at h; cases h
  exact e Sys2Proof.core n s t h

/-- A run of `m + n` steps is a run of `n` steps from where `m` steps lead. -/
theorem run_add {m n : Nat} {s t : State} (h : Sys2Proof.core.run m s = .next t) :
    Sys2Proof.core.run (m + n) s = Sys2Proof.core.run n t := by
  induction m generalizing s with
  | zero =>
    have : s = t := Host.Outcome.next.inj h
    rw [this, Nat.zero_add]
  | succ m ih =>
    obtain ⟨u, hs, hu⟩ := run_succ_next h
    rw [Nat.add_right_comm, run_succ hs]
    exact ih hu

/-- One step of an enabled RX port that is offered a byte. -/
theorem step_rx {s : State} {b : Byte} {line : List Byte} {rest : List Turn} (hs : s.schedule = .rx :: rest)
    (hl : s.rxLine = b :: line) (hh : s.halted = false) (hp : s.pktReady = false) :
    step s = .next (State.takeRxByte { s with schedule := rest, rxLine := line } b) := by
  rw [step_of_schedule hs]
  simp [State.runTurn, State.offerRx, hl, exec, execRxByte, State.rxEnabled, hh, hp]

/-- The position does not depend on the agents' side. -/
theorem rxPos_congr {s t : State} (h1 : t.rxState = s.rxState) (h2 : t.rxRemain = s.rxRemain)
    (h3 : t.rxPlen = s.rxPlen) : t.rxPos = s.rxPos := by
  unfold State.rxPos; rw [h1, h2, h3]

/-- The position moves on by one byte while the state is not completed. -/
theorem rxPos_succ {s t : State} (hlow : 1 ≤ s.rxRemain.toNat) (hhigh : s.rxRemain.toNat ≤ s.rxTarget)
    (h1 : t.rxState = s.rxState) (h2 : t.rxRemain = s.rxRemain - 1) (h3 : t.rxPlen = s.rxPlen) :
    t.rxPos = s.rxPos + 1 := by
  have d : (s.rxRemain - 1).toNat = s.rxRemain.toNat - 1 :=
    BitVec.toNat_sub_of_le (by simp only [BitVec.le_def]; exact hlow)
  unfold State.rxTarget at hhigh
  unfold State.rxPos
  rw [h1, h2, h3, d]
  cases hs : s.rxState <;> simp only [hs, Config.hdrSize, Config.ftrSize] at hhigh ⊢ <;> omega

/-- Bytes that do not complete the current state are stored, in order, and counted. -/
theorem run_rx_store {s : State} (bs line : List Byte) (rest : List Turn) (hi : s.rxRemain.toNat ≤ s.rxTarget)
    (hh : s.halted = false) (hp : s.pktReady = false) (hn : bs.length < s.rxRemain.toNat)
    (hl : s.rxLine = bs ++ line) (hs : s.schedule = List.replicate bs.length .rx ++ rest) :
    Sys2Proof.core.run bs.length s = .next { s with
      rxbuf := s.rxbuf.writeBytes s.rxPos bs, rxRemain := s.rxRemain - BitVec.ofNat 32 bs.length, rxLine := line,
      schedule := rest } := by
  induction bs generalizing s with
  | nil =>
    simp only [List.nil_append, List.length_nil, List.replicate_zero] at hl hs
    subst hl hs
    have e : s.rxRemain - BitVec.ofNat 32 0 = s.rxRemain := BitVec.sub_zero _
    rw [List.length_nil, e]
    rfl
  | cons b bs ih =>
    simp only [List.length_cons] at hn
    have hst := step_rx (rest := List.replicate bs.length .rx ++ rest) (line := bs ++ line) (b := b) hs hl hh hp
    have hd : (s.rxRemain - 1).toNat = s.rxRemain.toNat - 1 :=
      BitVec.toNat_sub_of_le (by simp only [BitVec.le_def]; show 1 ≤ s.rxRemain.toNat; omega)
    have hmore : s.rxRemain - 1 ≠ 0 := fun h0 => by
      have := congrArg BitVec.toNat h0
      rw [hd] at this
      simp at this
      omega
    rw [State.takeRxByte_of_more (s := { s with
      schedule := List.replicate bs.length .rx ++ rest, rxLine := bs ++ line }) hmore] at hst
    have hrun := ih (s := { s with
        schedule := List.replicate bs.length .rx ++ rest, rxLine := bs ++ line,
        rxbuf := s.rxbuf.write s.rxPos b, rxRemain := s.rxRemain - 1 })
      (show (s.rxRemain - 1).toNat ≤ s.rxTarget by omega) hh hp
      (by show bs.length < (s.rxRemain - 1).toNat; omega) rfl rfl
    rw [List.length_cons, run_succ hst]
    refine hrun.trans ?_
    congr 1
    have hpos := rxPos_succ (by omega) hi (t := { s with
        schedule := List.replicate bs.length .rx ++ rest, rxLine := bs ++ line,
        rxbuf := s.rxbuf.write s.rxPos b, rxRemain := s.rxRemain - 1 }) rfl rfl rfl
    rw [hpos]
    have hrem : s.rxRemain - 1 - BitVec.ofNat 32 bs.length = s.rxRemain - BitVec.ofNat 32 (bs.length + 1) := by
      rw [BitVec.ofNat_add, sub_sub, add_comm]; rfl
    simp only [hrem, Memory.writeBytes]
    rfl

/-- The bytes that complete the current state: all are stored, and the state's completion runs (R142). -/
theorem run_rx_complete {s : State} (bs line : List Byte) (rest : List Turn) (hlow : 1 ≤ s.rxRemain.toNat)
    (hi : s.rxRemain.toNat ≤ s.rxTarget) (hh : s.halted = false) (hp : s.pktReady = false)
    (hn : bs.length = s.rxRemain.toNat) (hl : s.rxLine = bs ++ line)
    (hs : s.schedule = List.replicate bs.length .rx ++ rest) :
    Sys2Proof.core.run bs.length s = .next (State.completeState { s with
      rxbuf := s.rxbuf.writeBytes s.rxPos bs, rxRemain := 0, rxLine := line, schedule := rest }) := by
  rcases List.eq_nil_or_concat bs with rfl | ⟨cs, b, rfl⟩
  · simp at hn; omega
  · simp only [List.concat_eq_append, List.length_append, List.length_singleton] at *
    have h1 := run_rx_store (s := s) cs (b :: line) (.rx :: rest) hi hh hp (by omega) (by rw [hl]; simp)
      (by rw [hs, List.replicate_succ']; simp)
    have hr : s.rxRemain - BitVec.ofNat 32 cs.length = 1 := by
      have hlt := s.rxRemain.isLt
      apply BitVec.eq_of_toNat_eq
      rw [BitVec.toNat_sub_of_le (by simp only [BitVec.le_def, BitVec.toNat_ofNat]; omega), BitVec.toNat_ofNat]
      simp; omega
    rw [hr] at h1
    have hst := step_rx (s := { s with
      rxbuf := s.rxbuf.writeBytes s.rxPos cs, rxRemain := 1, rxLine := b :: line, schedule := .rx :: rest })
      (b := b) (line := line) (rest := rest) rfl rfl hh hp
    have hpos : State.rxPos { s with
        rxbuf := s.rxbuf.writeBytes s.rxPos cs, rxRemain := 1, rxLine := line, schedule := rest } =
        s.rxPos + cs.length := by
      unfold State.rxTarget at hi
      unfold State.rxPos
      cases hq : s.rxState <;> simp only [hq, Config.hdrSize, Config.ftrSize] at hi ⊢ <;> simp <;> omega
    have hone : (1 : Word) - 1 = 0 := by decide
    rw [run_add h1, show (1 : Nat) = 0 + 1 from rfl, run_succ hst]
    have hlast := State.takeRxByte_of_last (s := { s with
      rxbuf := s.rxbuf.writeBytes s.rxPos cs, rxRemain := 1, rxLine := line, schedule := rest }) (b := b) hone
    refine (congrArg Host.Outcome.next hlast).trans ?_
    congr 2
    rw [State.storeRxByte, hpos, Memory.writeBytes_append]
    simp only [hone]
    rfl

/-! ## A packet that lies in rxbuf -/

/-- Byte `k` of a packet whose first `n` bytes were stored from offset 0. -/
theorem read_stored {size : Nat} {m : Memory} (h : Memory.wf size m) {pkt : List Byte} (hl : pkt.length ≤ size)
    {n k : Nat} (hk : k < n) (hn : n ≤ pkt.length) : (m.writeBytes 0 (pkt.take n)).read k = pkt.getD k 0 := by
  rw [Memory.read_writeBytes h _ (by simp; omega), if_pos (by simp; omega)]
  simp [List.getD, hk]
  rfl

/-- The field at offset `o` of such a packet. -/
theorem read32_stored {size : Nat} {m : Memory} (h : Memory.wf size m) {pkt : List Byte} (hl : pkt.length ≤ size)
    {n o : Nat} (ho : o + 4 ≤ n) (hn : n ≤ pkt.length) (e : ByteOrder) :
    (m.writeBytes 0 (pkt.take n)).read32 e o = packetField e pkt o := by
  have r := fun k hk => read_stored h hl (n := n) (k := k) hk hn
  rw [Memory.read32, r _ (by omega), r _ (by omega), r _ (by omega), r _ (by omega), packetField_eq]

/-- The first `q` bytes of such a packet. -/
theorem bytes_stored {size : Nat} {m : Memory} (h : Memory.wf size m) {pkt : List Byte} (hl : pkt.length ≤ size)
    {n q : Nat} (hq : q ≤ n) (hn : n ≤ pkt.length) : (m.writeBytes 0 (pkt.take n)).bytes 0 q = pkt.take q := by
  apply List.ext_getElem (by simp; omega)
  intro k h1 h2
  rw [Memory.getElem_bytes, Nat.zero_add, read_stored h hl (by simp at h1; omega) hn]
  simp at h1
  simp [List.getD, List.getElem_take, List.getElem?_eq_getElem (show k < pkt.length by omega)]

end Sys2Proof.Machine
end

