-- ==== Sys2Proof/Tests/Slice0.lean ====
section
/-! SUPPORT. Tests of the model and witnesses of the statements' hypotheses. Expected values are the spec's: the formats of
spec/30_encoding.md, the examples in the instruction rules, and the vectors of spec/95_test_vectors.md under the test
assignment of spec/00_scope.md R8. -/

namespace Sys2Proof.Tests

open Sys2Proof Sys2Proof.Machine

/-! ## Helpers -/

/-- The test assignment of R8. -/
def testParams : Params where
  magicH2dSom := 0x48324453
  magicH2dEom := 0x48324445
  magicD2hSom := 0x44324853
  magicD2hEom := 0x44324845
  reqIdMin := 1
  reqIdMax := 11
  nSubdev := 2
  localBaseHp := 0x04000000
  localBaseSas := 0x01000000
  rxSeqMode := .adopt
  releaseAlign := .anywhere

/-- The reset state under the test assignment. -/
def base : State := { State.reset with params := testParams }

/-- After a transport fault. -/
def stopped : State := { base with halted := true }

/-- The next state of an outcome. -/
def after : Host.Outcome State Fault Refusal → Option State
  | .next t => some t
  | .fault _ | .refused _ => none

/-- The fault of an outcome. -/
def faultOf : Host.Outcome State Fault Refusal → Option Fault
  | .fault f => some f
  | .next _ | .refused _ => none

/-- One command step. -/
def issue (s : State) (w a0 a1 a2 a3 now : Word) : Option State :=
  after (step { s with schedule := [.command ⟨w, a0, a1, a2, a3, now⟩] })

/-- One step that offers a byte. -/
def offer (s : State) (b : Byte) : Option State := after (step { s with schedule := [.rx], rxLine := [b] })

/-- RSTAT and RESULT. -/
def report (o : Option State) : Option (Byte × Word) := o.map fun t => (t.rstat, t.result)

/-- PK-CONN7 of spec/95_test_vectors.md. -/
def conn7 : List Byte :=
  [0x53, 0x44, 0x32, 0x48, 0x07, 0x00, 0x00, 0x00, 0x01, 0x00, 0x00, 0x00] ++
  [0x00, 0x00, 0x00, 0x00, 0x00, 0x00, 0x00, 0x00, 0x00, 0x00, 0x00, 0x00] ++
  [0x05, 0x00, 0x00, 0x00, 0xE2, 0xFE, 0xFF, 0xFF, 0x45, 0x44, 0x32, 0x48]

/-- PK-HP8 of spec/95_test_vectors.md. -/
def hp8 : List Byte :=
  [0x53, 0x44, 0x32, 0x48, 0x08, 0x00, 0x00, 0x00, 0x08, 0x00, 0x00, 0x00, 0x01, 0x00] ++
  [0x00, 0x00, 0x00, 0x00, 0x00, 0x00, 0x04, 0x00, 0x00, 0x00, 0x64, 0x00, 0x00, 0x00] ++
  [0x00, 0x10, 0x00, 0x00, 0x66, 0xFE, 0xFF, 0xFF, 0x45, 0x44, 0x32, 0x48]

/-- The first `n` bytes of `pkt` received, `r` bytes of the current state to come. -/
def partway (pkt : List Byte) (n : Nat) (st : RxState) (r plen : Word) : State :=
  { base with rxbuf := Memory.writeBytes [] 0 (pkt.take n), rxState := st, rxRemain := r, rxPlen := plen }

/-- V-RX-1's end state: PK-CONN7 is held. -/
def held : State := { partway conn7 36 .header 28 0 with pktReady := true, rxExpect := 8 }

/-- Program P2 after its step 1, with `r` references: base 0xFC000000 and tag REG in slot 0. -/
def liveHp (r : Word) : State :=
  { base with hpSlots := base.hpSlots.set 0 ⟨0xFC000000, .reg, r⟩, hpWin := base.hpWin.set 0 ⟨0xFC000003, 0⟩ }

/-- V-W-12's slot 31, with `r` references: base 0x01F00000. -/
def liveSas (r : Word) : State :=
  { base with sasSlots := base.sasSlots.set 31 ⟨0x01F00000, r⟩, sasWin := base.sasWin.set 31 0x01F00001 }

/-- Program P3 with its first `n` slots filled. -/
def filledHp (n : Nat) : State :=
  { base with
    hpSlots := (List.range 15).map fun k =>
      if k < n then ⟨BitVec.ofNat 64 (k * 0x04000000), .mem, 1⟩ else HpSlot.free }

/-- The SAS pool with its first `n` slots filled. -/
def filledSas (n : Nat) : State :=
  { base with
    sasSlots := (List.range 32).map fun k => if k < n then ⟨BitVec.ofNat 32 (k * 0x00100000), 1⟩ else SasSlot.free }

/-! ## Well-formedness: the check refuses an ill-formed term -/

/-- V-CSR-4: 0x10F, 0x007 and 0x260 name no CSR; V-CSR-3: 0x10E and 0x25F do. -/
theorem test_wf_refuses_reserved_csr :
    (Instr.csrrd 0x10F).wf testParams = false ∧ (Instr.csrrd 0x007).wf testParams = false ∧
    (Instr.csrwr 0x260).wf testParams = false ∧ (Instr.csrwr 0x1BF).wf testParams = false ∧
    (Instr.csrrd 0x10E).wf testParams = true ∧ (Instr.csrwr 0x25F).wf testParams = true := by decide

/-! ## Decoding, from the formats of R88 to R90 -/

/-- Format CT: eight, twelve and three zero bits, TAG, OP 0x01 (R89). -/
theorem test_decode_wacq_hp :
    decodeTableWord 32 0b00000000_000000000000_000_0_00000001 = some (.wacqHp .mem) ∧
    decodeTableWord 32 0b00000000_000000000000_000_1_00000001 = some (.wacqHp .reg) := by decide

/-- Format C: eight, twelve and four zero bits, OP 0x02 to 0x0A (R88). -/
theorem test_decode_format_c :
    decodeTableWord 32 0b00000000_000000000000_0000_00000010 = some .wacqSas ∧
    decodeTableWord 32 0b00000000_000000000000_0000_00000011 = some .wrelHp ∧
    decodeTableWord 32 0b00000000_000000000000_0000_00000100 = some .wrelSas ∧
    decodeTableWord 32 0b00000000_000000000000_0000_00000101 = some .txbuild ∧
    decodeTableWord 32 0b00000000_000000000000_0000_00000110 = some .txwr8 ∧
    decodeTableWord 32 0b00000000_000000000000_0000_00000111 = some .txwr32 ∧
    decodeTableWord 32 0b00000000_000000000000_0000_00001000 = some .rxack ∧
    decodeTableWord 32 0b00000000_000000000000_0000_00001001 = some .rxrd8 ∧
    decodeTableWord 32 0b00000000_000000000000_0000_00001010 = some .rxrd32 := by decide

/-- Format CC: eight zero bits, CSRN, four zero bits, OP 0x0B or 0x0C (R90). -/
theorem test_decode_format_cc :
    decodeTableWord 32 0b00000000_001001011111_0000_00001011 = some (.csrrd 0x25F) ∧
    decodeTableWord 32 0b00000000_000000000101_0000_00001100 = some (.csrwr 0x005) := by decide

/-- R94: the port's byte is the instruction's operand. -/
theorem test_decode_rx_byte : decodeTableWord 8 0b01010011 = some (.rxByte 0x53) := by decide

/-- V-DEC-1 to V-DEC-11, and each word's reason (R93). -/
theorem test_decode_rejects_by_name :
    decode (.command 0x00000000) = .error .reservedOpcode ∧ decode (.command 0x0000000D) = .error .reservedOpcode ∧
    decode (.command 0x000000FF) = .error .reservedOpcode ∧ decode (.command 0x01000005) = .error .nonzeroRsv ∧
    decode (.command 0x80000008) = .error .nonzeroRsv ∧ decode (.command 0x00000105) = .error .nonzeroF ∧
    decode (.command 0x00001005) = .error .nonzeroCsrn ∧ decode (.command 0x00000201) = .error .nonzeroF ∧
    decode (.command 0x00001001) = .error .nonzeroCsrn ∧ decode (.command 0x0000010B) = .error .nonzeroF ∧
    decode (.command 0x0000010C) = .error .nonzeroF ∧ decode (.command 0x00000102) = .error .nonzeroF := by decide

/-- The host's question: the word placed by `withFetchWord` runs as the first instruction after reset. -/
theorem test_fetch_word_runs_first :
    (after (step (State.reset.withFetchWord 8 0x53))).map (fun t => (t.rxbuf, t.rxRemain)) = some ([(0, 0x53)], 27) ∧
    report (after (step (State.reset.withFetchWord 32 0x0000200B))) = some (0x00, 28) ∧
    report (after (step (State.reset.withFetchWord 32 0x00000005))) = some (0x00, 1) := by decide

/-! ## Windows -/

/-- The example of R179. -/
theorem test_wacq_hp_allocates :
    (issue base 0x00000001 0x23456789 0x1 0 0 0).map (fun t => (t.result, t.hpSlot 0, t.hpReg 0)) =
      some (0x07456789, ⟨0x120000000, .mem, 1⟩, ⟨0x20000001, 0x00000001⟩) := by decide

/-- Program P2, steps 2 and 4: the same base and tag share slot 0; another tag takes slot 1. -/
theorem test_wacq_hp_matches_base_and_tag :
    (issue (liveHp 1) 0x00000101 0xFEE00010 0 0 0 0).map (fun t => (t.result, (t.hpSlot 0).ref, t.hpSlot 1)) =
      some (0x06E00010, 2, HpSlot.free) ∧
    (issue (liveHp 1) 0x00000001 0xFEE00000 0 0 0 0).map (fun t => (t.result, (t.hpSlot 0).ref, t.hpSlot 1)) =
      some (0x0AE00000, 1, ⟨0xFC000000, .mem, 1⟩) := by decide

/-- V-W-11, and V-W-9 where ARG1 is not 0. -/
theorem test_wacq_sas :
    (issue base 0x00000002 0xFFFFFFFF 0 0 0 0).map (fun t => (t.result, t.sasSlot 0, t.sasReg 0)) =
      some (0x010FFFFF, ⟨0xFFF00000, 1⟩, 0xFFF00001) ∧
    report (issue base 0x00000002 0x12345678 1 0 0 0) = some (0x07, 0) := by decide

/-- Program P3, steps 16 and 18: a full pool refuses a new base and still serves reuse. -/
theorem test_full_pool_refuses :
    report (issue (filledHp 15) 0x00000001 0x3C000000 0 0 0 0) = some (0x03, 0) ∧
    report (issue (filledHp 15) 0x00000001 4 0 0 0 0) = some (0x00, 0x04000004) := by decide

/-- V-W-6: the two ends of the range, and two pointers into free slots. -/
theorem test_wrel_hp_range :
    report (issue base 0x00000003 0x03FFFFFF 0 0 0 0) = some (0x04, 0) ∧
    report (issue base 0x00000003 0x40000000 0 0 0 0) = some (0x04, 0) ∧
    report (issue base 0x00000003 0x04000000 0 0 0 0) = some (0x05, 0) ∧
    report (issue base 0x00000003 0x3FFFFFFF 0 0 0 0) = some (0x05, 0) := by decide

/-- V-W-7 and V-W-8: an inner pointer releases under NONE and is misaligned under BASE. -/
theorem test_wrel_hp_align :
    (issue (liveHp 1) 0x00000003 0x06E00010 0 0 0 0).map (fun t => (t.rstat, t.hpSlot 0, t.hpReg 0)) =
      some (0x00, ⟨0xFFFFFFFFFFFFFFFF, .mem, 0⟩, ⟨0, 0⟩) ∧
    report (issue { liveHp 1 with params := { testParams with releaseAlign := .base } } 0x00000003 0x06E00010 0 0 0 0) =
      some (0x04, 0) := by decide

/-- V-W-15 and V-W-16: an HP pointer is refused; the last byte of slot 31 releases it. -/
theorem test_wrel_sas :
    report (issue (liveSas 1) 0x00000004 0x04000000 0 0 0 0) = some (0x04, 0) ∧
    (issue (liveSas 1) 0x00000004 0x02FFFFFF 0 0 0 0).map (fun t => (t.rstat, t.sasSlot 31, t.sasReg 31)) =
      some (0x00, ⟨0xFFFFFFFF, 0⟩, 0) := by decide

/-! ## Transmit -/

/-- V-TX-2: payload, negative status, non-zero timestamp. -/
theorem test_txbuild_emits_the_packet :
    (issue { base with txSent := 5, txbuf := [(0, 0xEF), (1, 0xBE), (2, 0xAD), (3, 0xDE)] } 0x00000005
      0xFFFFFFFF 1 0x80000008 4 0x12345678).map (fun t => (t.result, t.txSent, t.txout)) =
      some (6, 6,
        [0x53, 0x48, 0x32, 0x44, 0x06, 0x00, 0x00, 0x00, 0x08, 0x00, 0x00, 0x80, 0x01, 0x00, 0x00, 0x00] ++
        [0xFF, 0xFF, 0xFF, 0xFF, 0x04, 0x00, 0x00, 0x00, 0x78, 0x56, 0x34, 0x12, 0xEF, 0xBE, 0xAD, 0xDE] ++
        [0x14, 0xF6, 0xFF, 0xFF, 0x45, 0x48, 0x32, 0x44]) := by decide

/-- V-TX-4 and V-TX-5: one byte too many, and the counter's wrap. -/
theorem test_txbuild_range_and_wrap :
    (issue { base with txSent := 3 } 0x00000005 0 0 0 4061 0).map (fun t => (t.rstat, t.txSent, t.txout)) =
      some (0x07, 3, []) ∧
    (issue { base with txSent := 0xFFFFFFFF } 0x00000005 0 0 0x80000100 0 0).map (fun t => (t.result, t.txSent)) =
      some (0, 0) := by decide

/-- V-TX-6 and V-TX-7. -/
theorem test_txwr8 :
    (issue base 0x00000006 3 0x1AB 0 0 0).map (fun t => (t.rstat, t.txbuf)) = some (0x00, [(3, 0xAB)]) ∧
    (issue base 0x00000006 4059 7 0 0 0).map (fun t => (t.rstat, t.txbuf)) = some (0x00, [(4059, 7)]) ∧
    report (issue base 0x00000006 4060 7 0 0 0) = some (0x07, 0) ∧
    report (issue base 0x00000006 0xFFFFFFFF 7 0 0 0) = some (0x07, 0) := by decide

/-- V-TX-8 and V-TX-9. -/
theorem test_txwr32 :
    (issue { base with txbuf := [(3, 0xAB)] } 0x00000007 1 0x11223344 0 0 0).map (fun t => t.txbuf.bytes 0 6) =
      some [0x00, 0x44, 0x33, 0x22, 0x11, 0x00] ∧
    (issue base 0x00000007 4056 1 0 0 0).map (fun t => t.txbuf) = some [(4056, 1)] ∧
    (issue base 0x00000007 4057 1 0 0 0).map (fun t => (t.rstat, t.txbuf)) = some (0x07, []) ∧
    report (issue base 0x00000007 0xFFFFFFFD 1 0 0 0) = some (0x07, 0) := by decide

/-! ## Receive -/

/-- V-RX-1, first and last byte. -/
theorem test_rx_byte_first_and_last :
    (offer base 0x53).map (fun t => (t.rxbuf, t.rxState, t.rxRemain)) = some ([(0, 0x53)], .header, 27) ∧
    (offer (partway conn7 35 .footer 1 0) 0x48).map (fun t => (t.pktReady, t.rxExpect, t.rxState, t.rxRemain)) =
      some (true, 8, .header, 28) := by decide

/-- V-RX-2, the byte that completes the header and the byte that completes the payload; V-VH-12's drop. -/
theorem test_rx_byte_completes_a_state :
    (offer (partway hp8 27 .header 1 0) 0x00).map (fun t => (t.rxState, t.rxRemain, t.rxPlen)) =
      some (.payload, 4, 4) ∧
    (offer (partway hp8 31 .payload 1 4) 0x00).map (fun t => (t.rxState, t.rxRemain)) = some (.footer, 8) ∧
    (offer (partway (hp8.set 12 2) 27 .header 1 0) 0x00).map (fun t => (t.rxState, t.rxRemain, t.rxPlen)) =
      some (.header, 28, 0) := by decide

/-- V-RX-9. -/
theorem test_rxack :
    (issue held 0x00000008 0 0 0 0 0).map (fun t => (t.rstat, t.pktReady)) = some (0x00, false) ∧
    report (issue base 0x00000008 0 0 0 0 0) = some (0x08, 0) := by decide

/-- V-RX-1's read, V-RD-1 and V-RD-2. -/
theorem test_rxrd8 :
    report (issue held 0x00000009 4 0 0 0 0) = some (0x00, 0x07) ∧
    report (issue held 0x00000009 4095 0 0 0 0) = some (0x00, 0) ∧
    report (issue held 0x00000009 4096 0 0 0 0) = some (0x07, 0) := by decide

/-- V-RD-5, V-RD-3, V-RD-4, V-RD-6 and V-RD-8. -/
theorem test_rxrd32 :
    report (issue held 0x0000000A 1 0 0 0 0) = some (0x00, 0x07483244) ∧
    report (issue held 0x0000000A 28 0 0 0 0) = some (0x00, 0xFFFFFEE2) ∧
    report (issue held 0x0000000A 4092 0 0 0 0) = some (0x00, 0) ∧
    report (issue held 0x0000000A 4093 0 0 0 0) = some (0x07, 0) ∧
    report (issue held 0x0000000A 0xFFFFFFFE 0 0 0 0) = some (0x07, 0) := by decide

/-! ## Control registers, halt, events -/

/-- V-CSR-1 (STATUS after V-RX-1 too) and V-CSR-2's slot registers. -/
theorem test_csrrd :
    report (issue base 0x0000200B 0 0 0 0 0) = some (0x00, 28) ∧
    report (issue base 0x0000400B 0 0 0 0 0) = some (0x00, 1) ∧
    report (issue held 0x0000100B 0 0 0 0 0) = some (0x00, 0x00000004) ∧
    report (issue base 0x0012000B 0 0 0 0 0) = some (0x00, 0xFFFFFFFF) ∧
    report (issue base 0x0014000B 0 0 0 0 0) = some (0x00, 0) ∧
    report (issue base 0x0010F00B 0 0 0 0 0) = some (0x01, 0) := by decide

/-- V-CSR-5 to V-CSR-8. -/
theorem test_csrwr :
    (issue base 0x0000000C 0xFFFFFFFE 0 0 0 0).map (fun t => t.connected) = some false ∧
    (issue base 0x0000000C 3 0 0 0 0).map (fun t => t.connected) = some true ∧
    (issue base 0x0000400C 0x1234 0 0 0 0).map (fun t => t.rxExpect) = some 0x1234 ∧
    report (issue base 0x0016000C 5 0 0 0 0) = some (0x09, 0) ∧
    report (issue base 0x0000700C 0 0 0 0 0) = some (0x01, 0) := by decide

/-- V-HALT-1 to V-HALT-5: the order of the checks. -/
theorem test_halted_machine :
    report (issue stopped 0x00000000 0 0 0 0 0) = some (0x01, 0) ∧
    report (issue stopped 0x00000005 0 0 0 4061 0) = some (0x02, 0) ∧
    report (issue stopped 0x0000100C 0 0 0 0 0) = some (0x02, 0) ∧
    report (issue stopped 0x0000000B 0 0 0 0 0) = some (0x00, 0) ∧
    report (issue stopped 0x0000000A 4093 0 0 0 0) = some (0x07, 0) ∧
    (offer stopped 0x53).map (fun t => (t.rxLine, t.rxRemain)) = some ([0x53], 28) := by decide

/-- R186, R257, R258: an access reaches base + x; a cleared, a crossed and a reprogrammed window fault. -/
theorem test_window_access :
    (after (step { liveHp 1 with schedule := [.windowAccess ⟨.hp, 0x06E00010, 4, 0xFEE00010⟩] })).map (·.extOut) =
      some [⟨.hp, .reg, 0xFEE00010, 4⟩] ∧
    faultOf (step { base with schedule := [.windowAccess ⟨.hp, 0x06E00010, 4, 0xFEE00010⟩] }) =
      some .clearedWindow ∧
    faultOf (step { liveHp 1 with schedule := [.windowAccess ⟨.hp, 0x07FFFFFD, 4, 0xFFFFFFFD⟩] }) =
      some .windowCrossing ∧
    faultOf (step { liveHp 1 with schedule := [.windowAccess ⟨.hp, 0x06E00010, 4, 0x1EE00010⟩] }) =
      some .reprogrammedWindow := by decide

/-- V-RST-1: RESET keeps the stream and the byte on offer. -/
theorem test_reset_keeps_what_lies_outside :
    (after (step { held with halted := true, txout := [0x53], rxLine := [0x44], schedule := [.reset] })).map
      (fun t => (t.halted, t.pktReady, t.rxExpect, t.txout, t.rxLine)) =
      some (false, false, 1, [0x53], [0x44]) := by decide

/-! ## Other values of the parameters (R7): expected values by hand from the rules they stand in -/

/-- The smallest buffer, two HP slots of 128 MiB, and big-endian order. -/
def small : State :=
  { base with
    params := { testParams with bufSize := 40, nHp := 2, wHpLog2 := 27, localBaseHp := 0x08000000, byteOrder := .big } }

/-- R170, R171, R175 (slot 1 starts at 0x10000000), R40 (index 2 is reserved), R174. -/
theorem test_other_pool_size :
    small.params.wf ∧
    (let s := { small with hpSlots := [⟨0x08000000, .mem, 1⟩, HpSlot.free], hpWin := [⟨0x08000001, 0⟩, ⟨0, 0⟩] }
     (issue s 0x00000001 0x1C000004 0 0 0 0).map (fun t => (t.result, t.hpSlot 1, t.hpReg 1)) =
       some (0x14000004, ⟨0x18000000, .mem, 1⟩, ⟨0x18000001, 0⟩) ∧
     report (issue s 0x0010100B 0 0 0 0 0) = some (0x00, 0xFFFFFFFF) ∧
     report (issue s 0x0010200B 0 0 0 0 0) = some (0x01, 0)) ∧
    report (issue { small with hpSlots := List.replicate 2 ⟨0, .mem, 1⟩ } 0x00000001 0x18000000 0 0 0 0) =
      some (0x03, 0) := by decide

/-- R61, R121, R122, R154: MAX_PAYLOAD is 4 and the high byte lies first. -/
theorem test_other_buffer_and_byte_order :
    (issue small 0x00000007 0 0x11223344 0 0 0).map (fun t => t.txbuf.bytes 0 4) = some [0x11, 0x22, 0x33, 0x44] ∧
    report (issue small 0x00000007 1 0 0 0 0) = some (0x07, 0) ∧
    report (issue { small with rxbuf := [(36, 0x11), (37, 0x22), (38, 0x33), (39, 0x44)] } 0x0000000A 36 0 0 0 0) =
      some (0x00, 0x11223344) ∧
    report (issue small 0x0000000A 37 0 0 0 0) = some (0x07, 0) := by decide

/-! ## The spec's notation (R96, R97) -/

/-- The words of vectors V-W-1, V-CSR-1 and V-CSR-7, and the packets PK-CONN7 and PK-HP8. -/
theorem test_notation :
    (assemble 0 [.now 20, .wacqHp .reg 0x1_23456789, .csrrd 0x002, .csrwr 0x006 7]).1 =
      [.command ⟨0x00000101, 0x23456789, 1, 0, 0, 20⟩, .command ⟨0x0000200B, 0, 0, 0, 0, 20⟩,
       .command ⟨0x0000600C, 7, 0, 0, 0, 20⟩] ∧
    inboundPacket testParams 7 1 0 0 5 [] = conn7 ∧ inboundPacket testParams 8 8 1 0 0x64 [0x00, 0x10, 0, 0] = hp8 := by
  decide

/-! ## Invariants hold in the states the witnesses use -/

theorem paramsWf_base : base.params.wf := by decide

theorem windowInv_base : WindowInv base := by
  refine ⟨by decide, by decide, ?_, ?_, ?_, ?_⟩ <;> decide

theorem windowInv_liveHp : WindowInv (liveHp 1) :=
  windowInv_base.setHp 0 ⟨0xFC000000, .reg, 1⟩ ⟨0xFC000003, 0⟩ (by decide) (by decide)

theorem windowInv_liveSas : WindowInv (liveSas 1) :=
  windowInv_base.setSas 31 ⟨0x01F00000, 1⟩ 0x01F00001 (by decide) (by decide)

theorem uniqueInv_base : UniqueInv base := by
  have h1 : ∀ i < 15, (base.hpSlot i).ref = 0 := by decide
  have h2 : ∀ i < 32, (base.sasSlot i).ref = 0 := by decide
  exact ⟨fun i hi _ _ h => absurd (h1 i hi) h, fun i hi _ _ h => absurd (h2 i hi) h⟩

theorem rxInv_partway :
    RxInv base ∧ RxInv held ∧ RxInv (partway conn7 27 .header 1 0) ∧ RxInv (partway hp8 27 .header 1 0) ∧
    RxInv (partway hp8 28 .payload 4 4) ∧ RxInv (partway hp8 31 .payload 1 4) ∧ RxInv (partway hp8 32 .footer 8 4) ∧
    RxInv (partway hp8 39 .footer 1 4) := by
  refine ⟨?_, ?_, ?_, ?_, ?_, ?_, ?_, ?_⟩ <;> exact ⟨by decide, by decide, by decide, by decide⟩

theorem bufferInv_partway :
    BufferInv base ∧ BufferInv held ∧ BufferInv (partway conn7 27 .header 1 0) ∧ BufferInv (partway hp8 27 .header 1 0) ∧
    BufferInv (partway hp8 31 .payload 1 4) ∧ BufferInv (partway hp8 40 .footer 8 4) := by
  refine ⟨?_, ?_, ?_, ?_, ?_, ?_⟩ <;> exact ⟨by decide, by decide⟩

theorem listening_base : Listening base := ⟨by decide, by decide, by decide, by decide⟩

/-- PK-CONN7 and PK-HP8 are packets of the inbound magic pair (R80 to R83, R112). -/
theorem wellFramed_packets :
    WellFramed testParams testParams.magicH2dSom testParams.magicH2dEom conn7 ∧
    WellFramed testParams testParams.magicH2dSom testParams.magicH2dEom hp8 := by
  constructor <;> exact ⟨by decide, by decide, by decide, by decide, by decide⟩

theorem headerAdmitted_hp8 : HeaderAdmitted (partway hp8 28 .payload 4 4) ∧ HeaderAdmitted held := by
  constructor <;> exact ⟨by decide, by decide, by decide, by decide⟩

theorem heldInv_held : HeldInv held :=
  ⟨fun h => absurd rfl h, fun _ => ⟨headerAdmitted_hp8.2, ⟨by decide, by decide⟩⟩⟩

/-! ## Witnesses: a state and operands that meet a statement's hypotheses, clause by clause -/

theorem witness_EncodeOfDecodeIsIdentity : decode (.command 0x00000101) = .ok (.wacqHp .reg) := by decide

theorem witness_DecoderAgreesWithOpcodeTable :
    (⟨"WACQ.HP", 0x00000001, 0xFFFFFEFF⟩ : OpRow) ∈ opcodeTable ∧ (0x00000101 : Word) &&& 0xFFFFFEFF = 0x00000001 ∧
    ∀ r ∈ opcodeTable, ¬ (0x0000000D : Word) &&& r.mask = r.pattern := by decide

/-- Each clause, at the edge of its range. -/
theorem witness_IllegalWordsFinishIllegal :
    (0x00000000 : Word).toNat % 2 ^ 8 = 0 ∧ 0x0D ≤ (0x0000000D : Word).toNat % 2 ^ 8 ∧
    0x0D ≤ (0x000000FF : Word).toNat % 2 ^ 8 ∧ (0x01000005 : Word).toNat / 2 ^ 24 ≠ 0 ∧
    ((0x00000201 : Word).toNat % 2 ^ 8 = 0x01 ∧ (0x00000201 : Word).toNat / 2 ^ 9 % 2 ^ 3 ≠ 0) ∧
    ((0x00000102 : Word).toNat % 2 ^ 8 ≠ 0x01 ∧ (0x00000102 : Word).toNat / 2 ^ 8 % 2 ^ 4 ≠ 0) ∧
    ((0x00001001 : Word).toNat % 2 ^ 8 ≠ 0x0B ∧ (0x00001001 : Word).toNat / 2 ^ 12 % 2 ^ 12 ≠ 0) ∧
    ((0x0010F00B : Word).toNat % 2 ^ 8 = 0x0B ∧ ¬ csrListed testParams ((0x0010F00B : Word).toNat / 2 ^ 12 % 2 ^ 12)) ∧
    ((0x0000700C : Word).toNat % 2 ^ 8 = 0x0C ∧ ¬ csrListed testParams ((0x0000700C : Word).toNat / 2 ^ 12 % 2 ^ 12)) ∧
    { base with schedule := [.command ⟨0, 0, 0, 0, 0, 0⟩] }.schedule = [.command ⟨0, 0, 0, 0, 0, 0⟩] := by
  unfold csrListed; decide

theorem witness_StepRunsTheDecodedInstruction :
    decode (.command 0x00000008) = .ok .rxack ∧
    (let s : State := { base with schedule := [.rx], rxLine := [0x53] }
     s.schedule = [.rx] ∧ s.rxLine = [0x53] ∧ s.halted = false ∧ s.pktReady = false) ∧
    { base with schedule := [.rx] }.rxLine = [] ∧ base.schedule = [] := by decide

theorem witness_DisabledPortTakesNoByte :
    stopped.halted = true ∧ held.pktReady = true ∧ { held with schedule := [.rx] }.schedule = [.rx] := by decide

theorem witness_ResetEstablishesResetValues : { held with schedule := [.reset] }.schedule = [.reset] := by decide

theorem witness_TransportFaultOnlySetsHalted :
    { held with schedule := [.transportFault] }.schedule = [.transportFault] := by decide

theorem witness_HaltedMachineRefusesCommands :
    stopped.halted = true ∧
    ((Instr.csrwr 0x001).isCommand = true ∧ (Instr.csrwr 0x001).readOnly = false ∧ (Instr.csrwr 0x001).wf stopped.params = true) ∧
    (Instr.rxrd8.readOnly = true ∧ Instr.rxrd8 ≠ .csrrd 0x001 ∧
      ∃ t, exec .rxrd8 { stopped with halted := false } = .next t) :=
  ⟨rfl, by decide, rfl, by decide, _, rfl⟩

theorem witness_OnlyFaultAndResetWriteHalted :
    (∃ t, base.runTurn .transportFault = .next t ∧ base.halted = false ∧ t.halted = true) ∧
    ∃ t, stopped.runTurn .reset = .next t ∧ stopped.halted = true ∧ t.halted = false :=
  ⟨⟨_, rfl, rfl, rfl⟩, _, rfl, rfl, rfl⟩

theorem witness_ElementsChangeOnlyByTheirWriters :
    ∃ t, exec (.csrwr 0x000) { base with arg0 := 1 } = .next t ∧ t.connected ≠ base.connected :=
  ⟨_, rfl, by decide⟩

theorem witness_NonOkCommandChangesNothing :
    Instr.rxack.isCommand = true ∧ ∃ t, exec .rxack base = .next t ∧ t.rstat ≠ 0x00 := ⟨rfl, _, rfl, by decide⟩

theorem witness_CommandsRaiseOnlyTheirCodes :
    (∃ t, exec (.wacqHp .mem) base = .next t) ∧ (∃ t, exec .wrelSas base = .next t) ∧
    Instr.rxack.isCommand = true ∧ Instr.rxack.wf base.params = true := ⟨⟨_, rfl⟩, ⟨_, rfl⟩, rfl, rfl⟩

theorem witness_ReadsAndErrorsAreIdempotent :
    (Instr.rxrd32.isCommand = true ∧ Instr.rxrd32.readOnly = true ∧ ∃ t, exec .rxrd32 held = .next t) ∧
    Instr.rxack.isCommand = true ∧ ∃ t, exec .rxack base = .next t ∧ t.rstat ≠ 0x00 :=
  ⟨⟨rfl, rfl, _, rfl⟩, rfl, _, rfl, by decide⟩

theorem witness_OnlyWindowAccessesFault :
    faultOf (step { base with schedule := [.windowAccess ⟨.sas, 0x03000000, 1, 0⟩] }) = some .outsidePool := by decide

theorem witness_StepKeepsParametersAndExtendsTxStream :
    ∃ t, step { base with schedule := [.txTake], txout := [0x53] } = .next t ∧ base.rstat.toNat ≤ 9 ∧
      base.txTaken ≤ base.txout.length := ⟨_, rfl, by decide, by decide⟩

/-- Both sides of the length bound. -/
theorem witness_TxbuildEmitsOnePacket :
    base.halted = false ∧ ({ base with arg3 := 4060 } : State).arg3.toNat ≤ base.params.maxPayload ∧
    base.params.maxPayload < ({ base with arg3 := 4061 } : State).arg3.toNat := by decide

/-- The last legal offset and the first illegal one, for each width. -/
theorem witness_TxWritesStoreTheirBytes :
    BufferInv base ∧ base.halted = false ∧
    ({ base with arg0 := 4059 } : State).arg0.toNat + 1 ≤ base.params.txbufSize ∧
    base.params.txbufSize < ({ base with arg0 := 4060 } : State).arg0.toNat + 1 ∧
    ({ base with arg0 := 4056 } : State).arg0.toNat + 4 ≤ base.params.txbufSize ∧
    base.params.txbufSize < ({ base with arg0 := 4057 } : State).arg0.toNat + 4 := ⟨bufferInv_partway.1, by decide⟩

theorem witness_RxackReleasesTheHeldPacket :
    held.halted = false ∧ held.pktReady = true ∧ base.halted = false ∧ base.pktReady = false := by decide

theorem witness_RxReadsReturnTheBuffersBytes :
    ({ held with arg0 := 4095 } : State).arg0.toNat + 1 ≤ held.params.bufSize ∧
    held.params.bufSize < ({ held with arg0 := 4096 } : State).arg0.toNat + 1 ∧
    ({ held with arg0 := 4092 } : State).arg0.toNat + 4 ≤ held.params.bufSize ∧
    held.params.bufSize < ({ held with arg0 := 4093 } : State).arg0.toNat + 4 ∧
    byteWeight held.params.byteOrder 3 = 2 ^ 24 ∧ byteWeight .big 0 = 2 ^ 24 := by decide

/-- The first position of each state, and the last one of the footer. -/
theorem witness_RxPositionsFollowTheWireLayout :
    base.params.wf ∧ (RxInv base ∧ base.rxState = .header) ∧
    (RxInv (partway hp8 28 .payload 4 4) ∧ (partway hp8 28 .payload 4 4).rxState = .payload) ∧
    (RxInv (partway hp8 32 .footer 8 4) ∧ (partway hp8 32 .footer 8 4).rxState = .footer) ∧
    (RxInv (partway hp8 39 .footer 1 4) ∧ (partway hp8 39 .footer 1 4).rxState = .footer) := by
  obtain ⟨a, _, _, _, b, _, c, d⟩ := rxInv_partway
  exact ⟨paramsWf_base, ⟨a, rfl⟩, ⟨b, rfl⟩, ⟨c, rfl⟩, d, rfl⟩

theorem witness_RxByteStoresOneByte :
    RxInv (partway hp8 31 .payload 1 4) ∧ BufferInv (partway hp8 31 .payload 1 4) ∧
    (partway hp8 31 .payload 1 4).halted = false ∧ (partway hp8 31 .payload 1 4).pktReady = false :=
  ⟨rxInv_partway.2.2.2.2.2.1, bufferInv_partway.2.2.2.2.1, by decide⟩

/-- The state with the byte stored, as the statement of the transitions has it. -/
def stored (s : State) (b : Byte) : State := { s with rxbuf := s.rxbuf.write s.rxPos b }

/-- Each clause: more to come; a header with payload, without, and refused; a payload; a footer that passes, and not. -/
theorem witness_RxByteTakesTheTransitionOfItsState :
    (RxInv base ∧ 1 < base.rxRemain.toNat ∧ base.halted = false ∧ base.pktReady = false) ∧
    (let s := partway hp8 27 .header 1 0
     RxInv s ∧ s.rxState = .header ∧ HeaderChecks (stored s 0) ∧ 0 < ((stored s 0).rxField 20).toNat) ∧
    (let s := partway conn7 27 .header 1 0
     RxInv s ∧ s.rxState = .header ∧ HeaderChecks (stored s 0) ∧ ((stored s 0).rxField 20).toNat = 0) ∧
    (let s := partway (hp8.set 12 2) 27 .header 1 0
     RxInv s ∧ s.rxState = .header ∧ ¬ HeaderChecks (stored s 0)) ∧
    (let s := partway hp8 31 .payload 1 4
     RxInv s ∧ s.rxState = .payload ∧ s.rxRemain.toNat = 1) ∧
    (let s := partway hp8 39 .footer 1 4
     RxInv s ∧ s.rxState = .footer ∧ FooterChecks (stored s 0x48) ∧ ¬ FooterChecks (stored s 0x44)) := by
  obtain ⟨a, _, b, c, _, d, _, e⟩ := rxInv_partway
  exact ⟨⟨a, by decide⟩, ⟨c, rfl, ⟨by decide, by decide, by decide, by decide, by decide⟩, by decide⟩,
    ⟨b, rfl, ⟨by decide, by decide, by decide, by decide, by decide⟩, by decide⟩,
    ⟨⟨by decide, by decide, by decide, by decide⟩, rfl, fun h => absurd h.subDevice (by decide)⟩,
    ⟨d, rfl, by decide⟩, e, rfl, ⟨by decide, by decide⟩, fun h => absurd h.endMagic (by decide)⟩

theorem witness_WholePacketIsReceived :
    let s : State := { base with rxLine := hp8 ++ [0xFF], schedule := List.replicate 40 .rx ++ [.reset] }
    s.params.wf ∧ BufferInv s ∧ Listening s ∧ WellFramed s.params s.params.magicH2dSom s.params.magicH2dEom hp8 ∧
      Admissible s hp8 ∧ s.rxLine = hp8 ++ [0xFF] ∧ s.schedule = List.replicate hp8.length .rx ++ [.reset] :=
  ⟨paramsWf_base, ⟨by decide, by decide⟩, ⟨by decide, by decide, by decide, by decide⟩, wellFramed_packets.2,
    ⟨by decide, by decide, by decide⟩, rfl, rfl⟩

theorem witness_RxpktWritesAWellFramedPacket :
    (List.replicate 4060 (0xFF : Byte)).length ≤ testParams.maxPayload ∧ testParams.bufSize ≤ 2 ^ 32 := by
  rw [List.length_replicate]; decide

/-- The receiver is the host's view: the D2H pair and the response identifiers (R123). -/
theorem witness_HostReceiverYieldsWhatTxbuildSent :
    let s : State := { base with arg2 := 0x80000008, arg1 := 1, arg3 := 4060 }
    let r : State := { base with
      params := { testParams with
        magicH2dSom := 0x44324853, magicH2dEom := 0x44324845, magicD2hSom := 0x48324453, magicD2hEom := 0x48324445,
        reqIdMin := 0x80000001, reqIdMax := 0x80000101 } }
    s.halted = false ∧ s.arg3.toNat ≤ s.params.maxPayload ∧ s.arg3.toNat ≤ r.params.maxPayload ∧
      r.params.byteOrder = s.params.byteOrder ∧ r.params.wf ∧ BufferInv r ∧ Listening r ∧
      r.params.magicH2dSom = s.params.magicD2hSom ∧ r.params.magicH2dEom = s.params.magicD2hEom ∧
      r.params.reqIdMin.toNat ≤ s.arg2.toNat ∧ s.arg2.toNat ≤ r.params.reqIdMax.toNat ∧
      s.arg1.toNat < r.params.nSubdev ∧ (r.connected = true → r.rxExpect = s.txSent + 1) :=
  ⟨by decide, by decide, by decide, by decide, by decide, ⟨by decide, by decide⟩,
    ⟨by decide, by decide, by decide, by decide⟩, by decide⟩

theorem witness_OwnPacketIsDropped :
    base.halted = false ∧ base.arg3.toNat ≤ base.params.maxPayload ∧ base.params.wf ∧ BufferInv base ∧ Listening base :=
  ⟨by decide, by decide, paramsWf_base, bufferInv_partway.1, listening_base⟩

theorem witness_AcceptedPacketsAreInSequence :
    (let s : State := { partway hp8 27 .header 1 0 with connected := true }
     RxInv s ∧ BufferInv s ∧ (∃ t, exec (.rxByte 0) s = .next t) ∧ s.rxField 4 ≠ s.rxExpect) ∧
    ∃ t, exec (.rxByte 0x48) (partway hp8 39 .footer 1 4) = .next t ∧ t.pktReady = true :=
  ⟨⟨⟨by decide, by decide, by decide, by decide⟩, ⟨by decide, by decide⟩, ⟨_, rfl⟩, by decide⟩, _, rfl, by decide⟩

theorem witness_HeaderIsNotValidatedAgain :
    (partway hp8 39 .footer 1 4).rxState ≠ .header ∧ ∃ t, exec (.rxByte 0x48) (partway hp8 39 .footer 1 4) = .next t :=
  ⟨by decide, _, rfl⟩

theorem witness_StatusAndTimestampAreNotChecked :
    BufferInv base ∧ ((16 : Nat) ≤ 16 ∧ 16 < 20) ∧ ((24 : Nat) ≤ 27 ∧ 27 < 28) := ⟨bufferInv_partway.1, by decide⟩

/-- V-RX-5 and V-RX-6: the last payload byte and a header byte. -/
theorem witness_SingleByteChangeFailsTheFooter :
    let s := partway hp8 40 .footer 8 4
    BufferInv s ∧ s.rxPlen.toNat ≤ s.params.maxPayload ∧ 31 < 28 + s.rxPlen.toNat ∧ (0x11 : Byte) ≠ s.rxbuf.read 31 ∧
      (0x65 : Byte) ≠ s.rxbuf.read 24 ∧ s.footerValid = true := ⟨bufferInv_partway.2.2.2.2.2, by decide⟩

theorem witness_StepKeepsReceiveInvariant : RxInv held ∧ ∃ t, step { held with schedule := [.rx] } = .next t :=
  ⟨rxInv_partway.2.1, _, rfl⟩

theorem witness_StepKeepsBuffersCanonical :
    base.params.wf ∧ RxInv base ∧ BufferInv base ∧
    ∃ t, step { base with schedule := [.rx], rxLine := [0x53] } = .next t :=
  ⟨paramsWf_base, rxInv_partway.1, bufferInv_partway.1, _, rfl⟩

theorem witness_StepKeepsHeldPacketValid :
    RxInv held ∧ BufferInv held ∧ HeldInv held ∧ ∃ t, step { held with schedule := [.transportFault] } = .next t :=
  ⟨rxInv_partway.2.1, bufferInv_partway.2.1, heldInv_held, _, rfl⟩

/-- The base WACQ.HP splits off its operands (R171). -/
def hpBase (s : State) : Nat :=
  let a := s.arg1.toNat * 2 ^ 32 + s.arg0.toNat
  a - a % s.params.wHp

/-- The base WACQ.SAS splits off its operand. -/
def sasBase (s : State) : Nat := s.arg0.toNat - s.arg0.toNat % s.params.wSas

/-- Reuse, overflow, allocation of the last slot and exhaustion, in each pool; and WACQ.SAS's RANGE. -/
theorem witness_AcquireFollowsTheScans :
    (let s := { liveHp 1 with arg0 := 0xFEE00010 }
     s.holdsHp (hpBase s) .reg 0 ∧ (∀ j < 0, ¬ s.holdsHp (hpBase s) .reg j) ∧ (s.hpSlot 0).ref.toNat < 2 ^ 32 - 1) ∧
    (let s := { liveHp 0xFFFFFFFF with arg0 := 0xFEE00010 }
     s.holdsHp (hpBase s) .reg 0 ∧ (s.hpSlot 0).ref.toNat = 2 ^ 32 - 1) ∧
    (let s := { filledHp 14 with arg0 := 0x3C000000 }
     (∀ j < 15, ¬ s.holdsHp (hpBase s) .mem j) ∧ (s.hpSlot 14).ref = 0 ∧ ∀ j < 14, (s.hpSlot j).ref ≠ 0) ∧
    (let s := { filledHp 15 with arg0 := 0x3C000000 }
     (∀ j < 15, ¬ s.holdsHp (hpBase s) .mem j) ∧ ∀ j < 15, (s.hpSlot j).ref ≠ 0) ∧
    (let s := { liveSas 1 with arg0 := 0x01F00005 }
     s.arg1 = 0 ∧ s.holdsSas (sasBase s) 31 ∧ (∀ j < 31, ¬ s.holdsSas (sasBase s) j) ∧
       (s.sasSlot 31).ref.toNat < 2 ^ 32 - 1) ∧
    (let s := { liveSas 0xFFFFFFFF with arg0 := 0x01F00005 }
     s.holdsSas (sasBase s) 31 ∧ (s.sasSlot 31).ref.toNat = 2 ^ 32 - 1) ∧
    (let s := { filledSas 31 with arg0 := 0x02000000 }
     (∀ j < 32, ¬ s.holdsSas (sasBase s) j) ∧ (s.sasSlot 31).ref = 0 ∧ ∀ j < 31, (s.sasSlot j).ref ≠ 0) ∧
    (let s := { filledSas 32 with arg0 := 0x02000000 }
     (∀ j < 32, ¬ s.holdsSas (sasBase s) j) ∧ ∀ j < 32, (s.sasSlot j).ref ≠ 0) ∧
    ({ base with arg1 := 1 } : State).arg1 ≠ 0 ∧ base.halted = false ∧ base.params.nHp = 15 ∧ base.params.nSas = 32 := by
  unfold State.holdsHp State.holdsSas
  refine ⟨?_, ?_, ?_, ?_, ?_, ?_, ?_, ?_, ?_⟩ <;> dsimp only <;> decide

/-- The edges of each pool's range, a misaligned pointer, and slots with 0, 1 and 2 references. -/
theorem witness_ReleaseFollowsThePointer :
    let lb := testParams.localBaseHp.toNat
    let ls := testParams.localBaseSas.toNat
    let w := testParams.wHp
    let v := testParams.wSas
    (base.halted = false ∧ (0x03FFFFFF < lb ∧ lb + testParams.nHp * w ≤ 0x40000000) ∧ (0x06E00010 - lb) % w ≠ 0) ∧
    ({ testParams with releaseAlign := .base } : Params).releaseAlign = .base ∧
    (0x2E00010 < w ∧ 0x06E00010 = lb + 0 * w + 0x2E00010 ∧ testParams.releaseAlign = .anywhere ∧
      (base.hpSlot 0).ref.toNat = 0 ∧ ((liveHp 1).hpSlot 0).ref.toNat = 1 ∧ 2 ≤ ((liveHp 2).hpSlot 0).ref.toNat) ∧
    ((0x00FFFFFF < ls ∧ ls + testParams.nSas * v ≤ 0x03000000) ∧ (0x02FFFFFF - ls) % v ≠ 0) ∧
    (0xFFFFF < v ∧ 0x02FFFFFF = ls + 31 * v + 0xFFFFF ∧ (base.sasSlot 31).ref.toNat = 0 ∧
      ((liveSas 1).sasSlot 31).ref.toNat = 1 ∧ 2 ≤ ((liveSas 2).sasSlot 31).ref.toNat) := by
  refine ⟨?_, ?_, ?_, ?_, ?_⟩ <;> decide

theorem witness_StepKeepsWindowInvariant : WindowInv (liveHp 1) ∧ ∃ t, step (liveHp 1) = .next t :=
  ⟨windowInv_liveHp, _, rfl⟩

theorem witness_StepKeepsSlotsUnique : UniqueInv base ∧ ∃ t, step base = .next t := ⟨uniqueInv_base, _, rfl⟩

/-- An access of every byte from the pointer to the window's end. -/
theorem witness_AcquiredPointerReachesItsTarget :
    base.params.wf ∧ WindowInv base ∧ 2 ^ 26 ≤ base.params.wHp ∧ 2 ^ 20 ≤ base.params.wSas ∧
    (∃ t, exec (.wacqHp .reg) { base with arg0 := 0xFEE00010 } = .next t ∧ t.rstat = 0x00) ∧
    ((0 : Word) ++ (0xFEE00010 : Word)).toNat % base.params.wHp + 0x11FFFF0 ≤ base.params.wHp ∧
    (∃ t, exec .wacqSas { base with arg0 := 0x12345678 } = .next t ∧ t.rstat = 0x00) ∧
    (0x12345678 : Word).toNat % base.params.wSas + 0xBA988 ≤ base.params.wSas :=
  ⟨paramsWf_base, windowInv_base, by decide, by decide, ⟨_, rfl, by decide⟩, by decide, ⟨_, rfl, by decide⟩, by decide⟩

/-- One past each pool's range, a free slot, one byte past the end, and another base, in each pool. -/
theorem witness_BadWindowAccessesFault :
    let lb := testParams.localBaseHp.toNat
    let ls := testParams.localBaseSas.toNat
    let w := testParams.wHp
    let v := testParams.wSas
    (base.params.wf ∧ WindowInv base ∧ WindowInv (liveHp 1) ∧ WindowInv (liveSas 1)) ∧
    (lb + testParams.nHp * w ≤ (0x40000000 : Word).toNat ∧ ls + testParams.nSas * v ≤ (0x03000000 : Word).toNat) ∧
    ((0x07FFFFFD : Word).toNat = lb + 0 * w + 0x3FFFFFD ∧ (base.hpSlot 0).ref = 0 ∧ ((liveHp 1).hpSlot 0).ref ≠ 0 ∧
      w < 0x3FFFFFD + 4 ∧ 2 ^ 26 ≤ w ∧ 0x3FFFFFD + 3 ≤ w ∧
      ((liveHp 1).hpSlot 0).base.toNat + 0x3FFFFFD ≠ (0x03FFFFFD : Word64).toNat) ∧
    ((0x02FFFFFD : Word).toNat = ls + 31 * v + 0xFFFFD ∧ (base.sasSlot 31).ref = 0 ∧
      ((liveSas 1).sasSlot 31).ref ≠ 0 ∧ v < 0xFFFFD + 4 ∧ 2 ^ 20 ≤ v ∧ 0xFFFFD + 3 ≤ v ∧
      ((liveSas 1).sasSlot 31).base.toNat + 0xFFFFD ≠ (0x000FFFFD : Word64).toNat) := by
  refine ⟨⟨paramsWf_base, windowInv_base, windowInv_liveHp, windowInv_liveSas⟩, ?_, ?_, ?_⟩ <;> decide

/-- A reset machine with RELEASE_ALIGN = BASE. -/
def baseAligned : State := { base with params := { testParams with releaseAlign := .base } }

theorem windowInv_baseAligned : WindowInv baseAligned := by
  refine ⟨by decide, by decide, ?_, ?_, ?_, ?_⟩ <;> decide

/-- Program P2's two addresses; under BASE, one slot base twice. -/
theorem witness_AcquiringTwiceSharesOneSlot :
    let a := ((0 : Word) ++ (0xFEE00010 : Word)).toNat
    let a' := ((0 : Word) ++ (0xFEE00000 : Word)).toNat
    let c := ((0 : Word) ++ (0xFC000000 : Word)).toNat
    let w := testParams.wHp
    (base.params.wf ∧ WindowInv base ∧ baseAligned.params.wf ∧ WindowInv baseAligned) ∧
    (base.halted = false ∧ base.params.wHp = w ∧ a' / w = a / w ∧ base.params.releaseAlign = .anywhere ∧
      (∀ j < 15, ¬ base.holdsHp (a - a % w) .reg j) ∧ 0 < base.params.nHp ∧ (base.hpSlot 0).ref = 0 ∧
      ∀ j < 0, (base.hpSlot j).ref ≠ 0) ∧
    (baseAligned.halted = false ∧ baseAligned.params.wHp = w ∧ baseAligned.params.releaseAlign = .base ∧ c % w = 0 ∧
      (∀ j < 15, ¬ baseAligned.holdsHp (c - c % w) .mem j) ∧ 0 < baseAligned.params.nHp ∧
      (baseAligned.hpSlot 0).ref = 0 ∧ ∀ j < 0, (baseAligned.hpSlot j).ref ≠ 0) := by
  unfold State.holdsHp
  refine ⟨⟨paramsWf_base, windowInv_base, paramsWf_base, windowInv_baseAligned⟩, ?_, ?_⟩ <;> decide

/-- The last byte of a window and its first; under BASE, one slot base twice. -/
theorem witness_AcquiringTwiceSharesOneSasSlot :
    let a := (0x123FFFFF : Word).toNat
    let a' := (0x12300000 : Word).toNat
    let w := testParams.wSas
    (base.params.wf ∧ WindowInv base ∧ baseAligned.params.wf ∧ WindowInv baseAligned) ∧
    (base.halted = false ∧ base.params.wSas = w ∧ a' / w = a / w ∧ base.params.releaseAlign = .anywhere ∧
      (∀ j < 32, ¬ base.holdsSas (a - a % w) j) ∧ 0 < base.params.nSas ∧ (base.sasSlot 0).ref = 0 ∧
      ∀ j < 0, (base.sasSlot j).ref ≠ 0) ∧
    (baseAligned.halted = false ∧ baseAligned.params.wSas = w ∧ baseAligned.params.releaseAlign = .base ∧ a' % w = 0 ∧
      (∀ j < 32, ¬ baseAligned.holdsSas (a' - a' % w) j) ∧ 0 < baseAligned.params.nSas ∧
      (baseAligned.sasSlot 0).ref = 0 ∧ ∀ j < 0, (baseAligned.sasSlot j).ref ≠ 0) := by
  unfold State.holdsSas
  refine ⟨⟨paramsWf_base, windowInv_base, paramsWf_base, windowInv_baseAligned⟩, ?_, ?_⟩ <;> decide

theorem witness_ProgrammingNeverEnablesHalfABase : 14 < base.hpWin.length ∧ base.hpReg 14 = ⟨0, 0⟩ := by decide

/-- The last byte of each pool's range. -/
theorem witness_PointerOfTheOtherPoolIsBad :
    base.params.wf ∧ base.halted = false ∧
    (∃ x < base.params.nHp * base.params.wHp, (0x3FFFFFFF : Word).toNat = base.params.localBaseHp.toNat + x) ∧
    ∃ x < base.params.nSas * base.params.wSas, (0x02FFFFFF : Word).toNat = base.params.localBaseSas.toNat + x :=
  ⟨paramsWf_base, by decide, ⟨0x3BFFFFFF, by decide⟩, 0x1FFFFFF, by decide⟩

/-! ## Control and status registers -/

/-- The last index of each bank. -/
theorem witness_CsrReadsShowTheState : base.params.wf ∧ 14 < base.params.nHp ∧ 31 < base.params.nSas :=
  ⟨paramsWf_base, by decide, by decide⟩

theorem witness_ReservedCsrIsIllegal :
    ¬ csrListed testParams (0x10F : BitVec 12).toNat ∧ ¬ csrListed testParams (0x007 : BitVec 12).toNat ∧
    ¬ csrListed testParams (0x260 : BitVec 12).toNat := by unfold csrListed; decide

theorem witness_CsrWritesHaveTheirEffect : base.halted = false := by decide

theorem witness_ReadOnlyCsrsRefuseWrites :
    base.halted = false ∧
    (let n : BitVec 12 := 0x001
     csrListed base.params n.toNat ∧ n ≠ 0x000 ∧ n ≠ 0x004 ∧ n ≠ 0x005 ∧ n ≠ 0x006) ∧
    (let n : BitVec 12 := 0x25F
     csrListed base.params n.toNat ∧ n ≠ 0x000 ∧ n ≠ 0x004 ∧ n ≠ 0x005 ∧ n ≠ 0x006) := by
  unfold csrListed
  refine ⟨rfl, ?_, ?_⟩ <;> decide

end Sys2Proof.Tests
end

section
/-! PROOFS. The state elements of spec/10_state.md: the pools' invariant of R34 at reset and over every step, and the
reserved CSR numbers of R49. -/

namespace Sys2Proof.Machine

/-! ## The invariant at reset (R34, R50) -/

/-- Pools whose slots are all free and whose registers are all cleared meet the invariant. -/
theorem WindowInv.of_replicate {s : State} (h1 : s.hpSlots = List.replicate s.params.nHp HpSlot.free)
    (h2 : s.hpWin = List.replicate s.params.nHp HpWin.cleared)
    (h3 : s.sasSlots = List.replicate s.params.nSas SasSlot.free)
    (h4 : s.sasWin = List.replicate s.params.nSas 0) : WindowInv s := by
  have hs : ∀ i < s.params.nHp, s.hpSlot i = HpSlot.free := fun i hi => by
    rw [State.hpSlot, h1, List.getD_replicate _ hi]
  have hw : ∀ i < s.params.nHp, s.hpReg i = HpWin.cleared := fun i hi => by
    rw [State.hpReg, h2, List.getD_replicate _ hi]
  have ss : ∀ i < s.params.nSas, s.sasSlot i = SasSlot.free := fun i hi => by
    rw [State.sasSlot, h3, List.getD_replicate _ hi]
  have sw : ∀ i < s.params.nSas, s.sasReg i = 0 := fun i hi => by
    rw [State.sasReg, h4, List.getD_replicate _ hi]
  constructor
  case hpCount => exact ⟨by rw [h1, List.length_replicate], by rw [h2, List.length_replicate]⟩
  case sasCount => exact ⟨by rw [h3, List.length_replicate], by rw [h4, List.length_replicate]⟩
  case hpLive => exact fun i hi hr => absurd (congrArg HpSlot.ref (hs i hi)) hr
  case sasLive => exact fun i hi hr => absurd (congrArg SasSlot.ref (ss i hi)) hr
  case hpFree => exact fun i hi _ => by rw [hs i hi, hw i hi]; exact ⟨rfl, rfl, rfl⟩
  case sasFree => exact fun i hi _ => by rw [ss i hi, sw i hi]; exact ⟨rfl, rfl⟩

theorem windowInv_reset : WindowInv State.reset := .of_replicate rfl rfl rfl rfl

theorem windowInv_applyReset (s : State) : WindowInv s.applyReset := .of_replicate rfl rfl rfl rfl

/-! ## The invariant under the pools' operations (R172 to R178) -/

theorem WindowInv.finish {s : State} (h : WindowInv s) (c : Status) (v : Word) : WindowInv (s.finish c v) :=
  h.congr rfl rfl rfl rfl rfl

/-- Counting a live HP slot's references up or down, as long as it stays live. -/
theorem WindowInv.setHpRef {s : State} (h : WindowInv s) {i : Nat} (hi : i < s.params.nHp) {r : Word}
    (hlive : (s.hpSlot i).ref ≠ 0) (hr : r ≠ 0) : WindowInv (s.setHpSlot i { s.hpSlot i with ref := r }) := by
  have key := h.setHp i { s.hpSlot i with ref := r } (s.hpReg i) (fun _ => h.hpLive i hi hlive) (absurd · hr)
  have hlen : i < s.hpWin.length := h.hpCount.2 ▸ hi
  have hreg : s.hpWin.set i (s.hpReg i) = s.hpWin := by
    rw [State.hpReg, List.getD_eq_getElem _ _ hlen, List.set_getElem_self]
  exact key.congr rfl rfl hreg.symm rfl rfl

/-- Counting a live SAS slot's references up or down, as long as it stays live. -/
theorem WindowInv.setSasRef {s : State} (h : WindowInv s) {i : Nat} (hi : i < s.params.nSas) {r : Word}
    (hlive : (s.sasSlot i).ref ≠ 0) (hr : r ≠ 0) : WindowInv (s.setSasSlot i { s.sasSlot i with ref := r }) := by
  have key := h.setSas i { s.sasSlot i with ref := r } (s.sasReg i) (fun _ => h.sasLive i hi hlive) (absurd · hr)
  have hlen : i < s.sasWin.length := h.sasCount.2 ▸ hi
  have hreg : s.sasWin.set i (s.sasReg i) = s.sasWin := by
    rw [State.sasReg, List.getD_eq_getElem _ _ hlen, List.set_getElem_self]
  exact key.congr rfl rfl rfl rfl hreg.symm

theorem WindowInv.acquireHp {s : State} (h : WindowInv s) (a : Word64) (t : Tag) : WindowInv (s.acquireHp a t) := by
  rcases s.acquireHp_cases a t rfl with
    ⟨i, hi, hold, -, ⟨-, e⟩ | ⟨hmax, e⟩⟩ | ⟨-, ⟨i, -, -, -, e⟩ | ⟨-, e⟩⟩ <;> rw [e]
  case inl.inl => exact h.finish _ _
  case inl.inr => exact (h.setHpRef hi hold.1 (ref_add_one_ne_zero hmax)).finish _ _
  case inr.inl =>
    rw [State.writeWins_programHp]
    exact (h.setHp i ⟨alignTo s.params.wHp a, t, 1⟩ (programmedHp (alignTo s.params.wHp a) t)
      (fun _ => ⟨alignTo_aligned _ _, rfl⟩) (absurd · (by decide : (1 : Word) ≠ 0))).finish _ _
  case inr.inr => exact h.finish _ _

theorem WindowInv.acquireSas {s : State} (h : WindowInv s) (a : Word) : WindowInv (s.acquireSas a) := by
  rcases s.acquireSas_cases a rfl with
    ⟨i, hi, hold, -, ⟨-, e⟩ | ⟨hmax, e⟩⟩ | ⟨-, ⟨i, -, -, -, e⟩ | ⟨-, e⟩⟩ <;> rw [e]
  case inl.inl => exact h.finish _ _
  case inl.inr => exact (h.setSasRef hi hold.1 (ref_add_one_ne_zero hmax)).finish _ _
  case inr.inl =>
    rw [State.writeWins_programSas]
    exact (h.setSas i ⟨alignTo s.params.wSas a, 1⟩ (programmedSas (alignTo s.params.wSas a))
      (fun _ => ⟨alignTo_aligned _ _, rfl⟩) (absurd · (by decide : (1 : Word) ≠ 0))).finish _ _
  case inr.inr => exact h.finish _ _

theorem WindowInv.releaseHp {s : State} (h : WindowInv s) (p : Word) : WindowInv (s.releaseHp p) := by
  rcases s.releaseHp_cases p with ⟨-, e⟩ | ⟨i, hslot, ⟨-, e⟩ | ⟨-, e⟩ | ⟨h0, h1, e⟩⟩ <;> rw [e]
  · exact h.finish _ _
  · exact h.finish _ _
  · rw [State.writeWins_clearHp]
    exact (h.setHp i HpSlot.free HpWin.cleared (absurd rfl) (fun _ => ⟨rfl, rfl, rfl⟩)).finish _ _
  · have hi := ((releaseSlot_eq_some s.params.wHp_pos).mp hslot).1
    exact (h.setHpRef hi h0 (ref_sub_one_ne_zero h1)).finish _ _

theorem WindowInv.releaseSas {s : State} (h : WindowInv s) (p : Word) : WindowInv (s.releaseSas p) := by
  rcases s.releaseSas_cases p with ⟨-, e⟩ | ⟨i, hslot, ⟨-, e⟩ | ⟨-, e⟩ | ⟨h0, h1, e⟩⟩ <;> rw [e]
  · exact h.finish _ _
  · exact h.finish _ _
  · rw [State.writeWins_clearSas]
    exact (h.setSas i SasSlot.free 0 (absurd rfl) (fun _ => ⟨rfl, rfl⟩)).finish _ _
  · have hi := ((releaseSlot_eq_some s.params.wSas_pos).mp hslot).1
    exact (h.setSasRef hi h0 (ref_sub_one_ne_zero h1)).finish _ _

/-! ## The invariant under every instruction, move and step -/

theorem WindowInv.takeRxByte {s : State} (h : WindowInv s) (b : Byte) : WindowInv (s.takeRxByte b) := by
  obtain ⟨_, _, _, _, _, _, e⟩ := s.takeRxByte_frame b
  rw [e]; exact h.congr rfl rfl rfl rfl rfl

theorem WindowInv.buildPacket {s : State} (h : WindowInv s) : WindowInv s.buildPacket := by
  rcases s.buildPacket_cases with ⟨-, e⟩ | ⟨-, e⟩ <;> rw [e] <;> exact h.congr rfl rfl rfl rfl rfl

theorem WindowInv.takeTx {s : State} (h : WindowInv s) : WindowInv s.takeTx := by
  unfold State.takeTx
  split
  · exact h.congr rfl rfl rfl rfl rfl
  · exact h

/-- Only the four window commands write a slot or a window register. -/
theorem exec_keeps_windowInv {i : Instr} {s t : State} (h : WindowInv s) (he : exec i s = .next t) : WindowInv t := by
  cases exec_cases he with
  | wacqHp g e => rw [e]; exact h.acquireHp _ _
  | wacqSas e => rw [e]; exact h.acquireSas _
  | wrelHp e => rw [e]; exact h.releaseHp _
  | wrelSas e => rw [e]; exact h.releaseSas _
  | txbuild e => rw [e]; exact h.buildPacket
  | rxTaken b _ e => rw [e]; exact h.takeRxByte b
  | rxDisabled b _ e => rw [e]; exact h
  | plain _ _ e | txwr8 e | txwr32 e | rxack e | csrCtrl e | csrExpect e | csrSent e | csrBeacon e =>
    rw [e]; exact h.congr rfl rfl rfl rfl rfl

theorem move_keeps_windowInv (s t : State) (m : Turn) (h : WindowInv s) (hm : Move s t m) : WindowInv t := by
  have presented : ∀ c, WindowInv (s.present c) := fun _ => h.congr rfl rfl rfl rfl rfl
  cases hm with
  | command c i _ he => exact exec_keeps_windowInv (presented c) he
  | illegal c _ _ e => rw [e]; exact (presented c).finish _ _
  | rxTaken b line _ _ _ e =>
    rw [e]
    have offered : WindowInv { s with rxLine := line } := h.congr rfl rfl rfl rfl rfl
    exact offered.takeRxByte b
  | rxIdle _ e => rw [e]; exact h
  | txTake e => rw [e]; exact h.takeTx
  | reset e => rw [e]; exact windowInv_applyReset s
  | access _ _ _ e | transportFault e => rw [e]; exact h.congr rfl rfl rfl rfl rfl

end Sys2Proof.Machine

open Sys2Proof Sys2Proof.Machine

/-- Settles O40: reset frees every slot and clears every register; each move then keeps the invariant, the window
commands because they write a slot and its registers together. -/
theorem stepKeepsWindowInvariant : Obligations.StepKeepsWindowInvariant :=
  ⟨windowInv_reset, fun _ _ => step_keeps (fun _ _ h => h.congr rfl rfl rfl rfl rfl) move_keeps_windowInv⟩

/-- Settles O48: a number outside R40's ranges names no CSR, and both commands test for that before the halt check. -/
theorem reservedCsrIsIllegal : Obligations.ReservedCsrIsIllegal := by
  intro s n hn
  have hnone : csrOfNumber s.params n = none := csrOfNumber_eq_none.mpr hn
  constructor
  · change execCsrrd n s = _
    rw [execCsrrd, hnone]
    rfl
  · change execCsrwr n s = _
    rw [execCsrwr, hnone]
    rfl

end

section
/-! PROOFS. The PDU codec of spec/40_codec.md: the packet TXBUILD emits, laid out as the wire format of
spec/30_encoding.md R80 to R82 with the checksum of R111, and the fields header validation reads (R114, R116). -/

namespace Sys2Proof.Machine

/-! ## A packet laid out from its fields (R80 to R82) -/

/-- The header fields and the payload, in order, and then the footer: the checksum of both (R111) and the end magic. -/
def wirePacket (e : ByteOrder) (fields : List Word) (payload : List Byte) (eom : Word) : List Byte :=
  let body := fields.flatMap (bytes32 e) ++ payload
  body ++ (bytes32 e (checksum body) ++ bytes32 e eom)

section
variable (e : ByteOrder) (fields : List Word) (payload : List Byte) (eom : Word)

theorem length_wirePacket :
    (wirePacket e fields payload eom).length = 4 * fields.length + payload.length + 8 := by
  simp [wirePacket]; omega

theorem packetField_wirePacket {k : Nat} (hk : k < fields.length) :
    packetField e (wirePacket e fields payload eom) (4 * k) = fields[k] := by
  rw [wirePacket, List.append_assoc]
  exact packetField_flatMap e fields _ hk

/-- The header and payload bytes are the ones the checksum was taken of. -/
theorem take_wirePacket :
    (wirePacket e fields payload eom).take (4 * fields.length + payload.length) =
      fields.flatMap (bytes32 e) ++ payload :=
  List.take_left' (by rw [List.length_append, length_flatMap_bytes32])

theorem checksum_wirePacket :
    packetField e (wirePacket e fields payload eom) (4 * fields.length + payload.length) =
      checksum (fields.flatMap (bytes32 e) ++ payload) := by
  have h := packetField_bytes32 e (fields.flatMap (bytes32 e) ++ payload)
    (checksum (fields.flatMap (bytes32 e) ++ payload)) (bytes32 e eom)
  rwa [List.length_append, length_flatMap_bytes32] at h

theorem endMagic_wirePacket :
    packetField e (wirePacket e fields payload eom) (4 * fields.length + payload.length + 4) = eom := by
  let body := fields.flatMap (bytes32 e) ++ payload
  have h := packetField_bytes32 e (body ++ bytes32 e (checksum body)) eom []
  rwa [List.append_nil, List.append_assoc, List.length_append, length_bytes32, List.length_append,
    length_flatMap_bytes32] at h

theorem payload_wirePacket {k : Nat} (hk : k < payload.length) :
    (wirePacket e fields payload eom).getD (4 * fields.length + k) 0 = payload.getD k 0 := by
  have hlen := length_flatMap_bytes32 e fields
  rw [wirePacket, List.append_assoc, List.getD_append_right _ _ _ _ (by omega), hlen, Nat.add_sub_cancel_left,
    List.getD_append _ _ _ _ hk]

end

/-- Seven header fields whose sixth is the payload's length make a well-framed packet. -/
theorem wellFramed_wirePacket {p : Params} {fields : List Word} {payload : List Byte} (eom : Word)
    (hn : fields.length = 7) (hlen : fields[5].toNat = payload.length) (hfit : payload.length ≤ p.maxPayload) :
    WellFramed p fields[0] eom (wirePacket p.byteOrder fields payload eom) := by
  have hplen : packetPlen p.byteOrder (wirePacket p.byteOrder fields payload eom) = payload.length :=
    (congrArg BitVec.toNat (packetField_wirePacket _ fields payload eom (k := 5) (by omega))).trans hlen
  have hbody : 28 + payload.length = 4 * fields.length + payload.length := by omega
  constructor
  case length => rw [hplen, length_wirePacket]; omega
  case fits => rw [hplen]; exact hfit
  case startMagic => exact packetField_wirePacket _ fields payload eom (k := 0) (by omega)
  case sum =>
    rw [hplen, hbody, take_wirePacket, checksum_wirePacket]
    exact (sum_rule_iff _ _).mp (byteSum_add_checksum _)
  case endMagic =>
    rw [hplen, show 32 + payload.length = 4 * fields.length + payload.length + 4 by omega]
    exact endMagic_wirePacket ..

/-! ## TXBUILD (R118 to R120) -/

/-- The header fields TXBUILD stamps with sequence number `seq`, in the order of R81. -/
def State.outFields (s : State) (seq : Word) : List Word :=
  [s.params.magicD2hSom, seq, s.txRequestId, s.txSubDevice, s.txStatus, s.txPayloadLen, s.nowMs]

/-- The packet TXBUILD emits with sequence number `seq`. -/
def State.outPacket (s : State) (seq : Word) : List Byte :=
  wirePacket s.params.byteOrder (s.outFields seq) s.outPayload s.params.magicD2hEom

theorem State.outHeader_eq_flatMap (s : State) (seq : Word) :
    s.outHeader seq = (s.outFields seq).flatMap (bytes32 s.params.byteOrder) := by
  simp [State.outHeader, State.outFields, State.bytesOf]

/-- The three parts the framer emits are the packet. -/
theorem State.outPacket_eq (s : State) (seq : Word) :
    s.outPacket seq = s.outHeader seq ++ s.outPayload ++ s.outFooter (s.outHeader seq ++ s.outPayload) := by
  rw [State.outHeader_eq_flatMap]; rfl

theorem State.length_outPayload (s : State) : s.outPayload.length = s.txPayloadLen.toNat :=
  Memory.length_bytes ..

theorem State.wellFramed_outPacket {s : State} (h : s.txPayloadLen.toNat ≤ s.params.maxPayload) (seq : Word) :
    WellFramed s.params s.params.magicD2hSom s.params.magicD2hEom (s.outPacket seq) :=
  wellFramed_wirePacket (fields := s.outFields seq) s.params.magicD2hEom rfl s.length_outPayload.symm
    (s.length_outPayload.trans_le h)

theorem State.packetField_outPacket (s : State) (seq : Word) {k : Nat} (hk : k < 7) :
    packetField s.params.byteOrder (s.outPacket seq) (4 * k) = (s.outFields seq)[k] :=
  packetField_wirePacket _ (s.outFields seq) _ _ hk

/-- The payload of the packet is the start of txbuf. -/
theorem State.payload_outPacket (s : State) (seq : Word) {k : Nat} (hk : k < s.txPayloadLen.toNat) :
    (s.outPacket seq).getD (28 + k) 0 = s.txbuf.read k := by
  have hlen : k < s.outPayload.length := s.length_outPayload.symm ▸ hk
  calc (s.outPacket seq).getD (28 + k) 0
    _ = s.outPayload.getD k 0 := payload_wirePacket _ (s.outFields seq) _ _ hlen
    _ = s.outPayload[k] := List.getD_eq_getElem _ 0 hlen
    _ = s.txbuf.read (0 + k) := Memory.getElem_bytes _ 0 _ k hlen
    _ = s.txbuf.read k := by rw [Nat.zero_add]

theorem exec_txbuild_of_running {s : State} (h : s.halted = false) : exec .txbuild s = .next s.buildPacket :=
  congrArg Host.Outcome.next (State.unlessHalted_of_running h _)

/-! ## Header validation (R114, R116) -/

/-- Header validation reads the magic, seq, requestId, subDeviceId and payloadLen fields of the header, and no other
byte of rxbuf. -/
theorem State.headerValid_write {s : State} (h : BufferInv s) {k : Nat} (v : Byte)
    (hk : 16 ≤ k ∧ k < 20 ∨ 24 ≤ k) : { s with rxbuf := s.rxbuf.write k v }.headerValid = s.headerValid := by
  have hfield : ∀ o, o + 4 ≤ k ∨ k < o → State.rxField { s with rxbuf := s.rxbuf.write k v } o = s.rxField o :=
    fun o ho => Memory.read32_write h.rx v ho.symm _
  simp only [State.headerValid, State.magicOk, State.plenOk, State.requestOk, State.seqOk, State.subDeviceOk,
    hfield 0 (by omega), hfield 4 (by omega), hfield 8 (by omega), hfield 12 (by omega), hfield 20 (by omega)]

end Sys2Proof.Machine

open Sys2Proof Sys2Proof.Machine

/-- Settles O19: what TXBUILD appends is the wire packet of its stamped fields, whose checksum cancels the byte sum. -/
theorem txbuildEmitsOnePacket : Obligations.TxbuildEmitsOnePacket := by
  rintro s _ rfl hrun
  rw [exec_txbuild_of_running hrun]
  rcases s.buildPacket_cases with ⟨hlong, hb⟩ | ⟨hfit, hb⟩
  · exact ⟨fun hle => absurd hlong (Nat.not_lt.mpr hle), fun _ => congrArg _ hb⟩
  · refine ⟨fun _ => ?_, fun hlt => absurd hfit (Nat.not_le.mpr hlt)⟩
    rw [← State.outPacket_eq] at hb
    have field := fun k => s.packetField_outPacket (s.txSent + 1) (k := k)
    exact ⟨s.outPacket (s.txSent + 1), congrArg _ hb, State.wellFramed_outPacket hfit _, field 1 (by decide),
      field 2 (by decide), field 3 (by decide), field 4 (by decide), field 5 (by decide), field 6 (by decide),
      fun k hk => s.payload_outPacket _ hk⟩

/-- Settles O33: neither field overlaps one that validation reads. -/
theorem statusAndTimestampAreNotChecked : Obligations.StatusAndTimestampAreNotChecked :=
  fun _ _ v h hk => State.headerValid_write h v (hk.imp_right And.left)

end

section
/-! PROOFS. The receive state machine of spec/41_receive.md: the position of the next byte (R141) and the nine transitions
of R155. -/

namespace Sys2Proof.Machine

variable {s : State} {b : Byte}

/-! ## Positions and targets by state (R27, R141) -/

theorem State.rxPos_of_header (h : s.rxState = .header) : s.rxPos = 28 - s.rxRemain.toNat := by
  rw [State.rxPos, h]

theorem State.rxPos_of_payload (h : s.rxState = .payload) :
    s.rxPos = 28 + s.rxPlen.toNat - s.rxRemain.toNat := by
  rw [State.rxPos, h]

theorem State.rxPos_of_footer (h : s.rxState = .footer) :
    s.rxPos = 28 + s.rxPlen.toNat + 8 - s.rxRemain.toNat := by
  rw [State.rxPos, h]

theorem State.rxTarget_of_payload (h : s.rxState = .payload) : s.rxTarget = s.rxPlen.toNat := by
  rw [State.rxTarget, h]

theorem State.rxTarget_of_footer (h : s.rxState = .footer) : s.rxTarget = 8 := by
  rw [State.rxTarget, h]

/-! ## Completion by the outcome of the checks (R143, R145) -/

theorem State.completeHeader_of_payload (h : HeaderChecks s) (hlen : 0 < (s.rxField 20).toNat) :
    s.completeHeader = { s with rxState := .payload, rxRemain := s.rxField 20, rxPlen := s.rxField 20 } := by
  rcases s.completeHeader_cases with ⟨-, -, e⟩ | ⟨-, h0, -⟩ | ⟨hn, -⟩
  · exact e
  · exact absurd h0 hlen.ne'
  · exact absurd h hn

theorem State.completeHeader_of_noPayload (h : HeaderChecks s) (hlen : (s.rxField 20).toNat = 0) :
    s.completeHeader = { s with rxState := .footer, rxRemain := 8, rxPlen := 0 } := by
  rcases s.completeHeader_cases with ⟨-, hne, -⟩ | ⟨-, -, e⟩ | ⟨hn, -⟩
  · exact absurd hlen hne
  · rwa [show s.rxField 20 = 0 from BitVec.eq_of_toNat_eq hlen] at e
  · exact absurd h hn

theorem State.completeHeader_of_invalid (h : ¬ HeaderChecks s) :
    s.completeHeader = { s with rxState := .header, rxRemain := 28 } := by
  rcases s.completeHeader_cases with ⟨hv, -⟩ | ⟨hv, -⟩ | ⟨-, e⟩
  · exact absurd hv h
  · exact absurd hv h
  · exact e

theorem State.completeFooter_of_valid (h : FooterChecks s) :
    s.completeFooter =
      { s with rxState := .header, rxRemain := 28, rxExpect := expectAfter s (s.rxField 4), pktReady := true } :=
  (s.completeFooter_cases.resolve_right fun hn => hn.1 h).2

theorem State.completeFooter_of_invalid (h : ¬ FooterChecks s) :
    s.completeFooter = { s with rxState := .header, rxRemain := 28 } :=
  (s.completeFooter_cases.resolve_left fun hv => h hv.1).2

/-! ## The stored byte (R142) -/

/-- An enabled port takes its byte. -/
theorem exec_rxByte_of_enabled (hrun : s.halted = false) (hfree : s.pktReady = false) :
    exec (.rxByte b) s = .next (s.takeRxByte b) :=
  congrArg Host.Outcome.next (if_pos (by rw [State.rxEnabled, hrun, hfree]; rfl))

/-- Header validation reads the stored byte, and not the count. -/
theorem headerChecks_storeRxByte :
    HeaderChecks (s.storeRxByte b) ↔ HeaderChecks { s with rxbuf := s.rxbuf.write s.rxPos b } :=
  ⟨fun h => h.congr rfl rfl rfl rfl, fun h => h.congr rfl rfl rfl rfl⟩

/-- Footer validation reads the stored byte, and not the count. -/
theorem footerChecks_storeRxByte :
    FooterChecks (s.storeRxByte b) ↔ FooterChecks { s with rxbuf := s.rxbuf.write s.rxPos b } :=
  ⟨fun h => h.congr rfl rfl rfl, fun h => h.congr rfl rfl rfl⟩

end Sys2Proof.Machine

open Sys2Proof Sys2Proof.Machine

/-- Settles O25: the byte is stored, and the last one of a state runs the state's completion, whose outcome is the one of
the checks on rxbuf with the byte in it. -/
theorem rxByteTakesTheTransitionOfItsState : Obligations.RxByteTakesTheTransitionOfItsState := by
  rintro s b _ _ - hrun hfree rfl rfl
  have hlast (h : s.rxRemain.toNat = 1) : s.rxRemain - 1 = 0 := by
    rw [show s.rxRemain = 1 from BitVec.eq_of_toNat_eq h]; rfl
  rw [exec_rxByte_of_enabled hrun hfree, ← headerChecks_storeRxByte, ← footerChecks_storeRxByte]
  refine ⟨fun hmore => ?more, fun h1 hs hc hlen => ?headerPayload, fun h1 hs hc hlen => ?headerNoPayload,
    fun h1 hs hc => ?headerInvalid, fun h1 hs => ?payload, fun h1 hs hc => ?footerValid,
    fun h1 hs hc => ?footerInvalid⟩
  case more =>
    have hne : s.rxRemain - 1 ≠ 0 := by bv_omega
    rw [State.takeRxByte_of_more hne]
  case headerPayload =>
    rw [State.takeRxByte_header (hlast h1) hs, State.completeHeader_of_payload hc hlen]
    rfl
  case headerNoPayload =>
    rw [State.takeRxByte_header (hlast h1) hs, State.completeHeader_of_noPayload hc hlen]
    rfl
  case headerInvalid =>
    rw [State.takeRxByte_header (hlast h1) hs, State.completeHeader_of_invalid hc, ← hs]
    rfl
  case payload => rw [State.takeRxByte_payload (hlast h1) hs]
  case footerValid =>
    rw [State.takeRxByte_footer (hlast h1) hs, State.completeFooter_of_valid hc]
    rfl
  case footerInvalid =>
    rw [State.takeRxByte_footer (hlast h1) hs, State.completeFooter_of_invalid hc]
    rfl

/-- Settles O23: RX_REMAIN counts down from its state's target to 1 (R27), so the position runs through the state's part
of the packet. -/
theorem rxPositionsFollowTheWireLayout : Obligations.RxPositionsFollowTheWireLayout := by
  intro s hw hi
  have hlow := hi.low
  have hhigh := hi.high
  refine ⟨fun hs => ?header, fun hs => ?payload, fun hs => ?footer, State.rxPos_lt hw hi⟩
  case header => rw [State.rxPos_of_header hs]; omega
  case payload => rw [State.rxTarget_of_payload hs] at hhigh; rw [State.rxPos_of_payload hs]; omega
  case footer => rw [State.rxTarget_of_footer hs] at hhigh; rw [State.rxPos_of_footer hs]; omega

end

section
/-! PROOFS. The window pool manager of spec/42_window.md: what Acquire does at each result of its scans (R171 to R175,
R177), and what Release does at each pointer and count (R176). -/

namespace Sys2Proof.Machine

variable {s : State} {i : Nat}

/-! ## The window commands while not halted (R179 to R182) -/

theorem exec_wacqHp_of_running (h : s.halted = false) (g : Tag) :
    exec (.wacqHp g) s = .next (s.acquireHp s.hpAddr g) :=
  congrArg Host.Outcome.next (State.unlessHalted_of_running h _)

theorem exec_wacqSas_of_running (h : s.halted = false) : exec .wacqSas s = .next s.acquireSasChecked :=
  congrArg Host.Outcome.next (State.unlessHalted_of_running h _)

theorem exec_wrelHp_of_running (h : s.halted = false) : exec .wrelHp s = .next (s.releaseHp s.ptr) :=
  congrArg Host.Outcome.next (State.unlessHalted_of_running h _)

theorem exec_wrelSas_of_running (h : s.halted = false) : exec .wrelSas s = .next (s.releaseSas s.ptr) :=
  congrArg Host.Outcome.next (State.unlessHalted_of_running h _)

/-! ## The scans, by what the slots hold (R171) -/

section
variable {a : Word64} {g : Tag} {b : Nat} (hb : b = a.toNat - a.toNat % s.params.wHp)
include hb

theorem State.acquireHp_of_match (hi : i < s.params.nHp) (hold : s.holdsHp b g i)
    (hlow : ∀ j < i, ¬ s.holdsHp b g j) : s.acquireHp a g = s.takeHp a g (.reuse i) := by
  rw [State.acquireHp, scanPool_eq_reuse.mpr]
  simp only [← Bool.not_eq_true, HpSlot.holds_iff s a g _ hb]
  exact ⟨hi, hold, hlow⟩

theorem State.acquireHp_of_free (hi : i < s.params.nHp) (hnone : ∀ j < s.params.nHp, ¬ s.holdsHp b g j)
    (hfree : (s.hpSlot i).ref = 0) (hlow : ∀ j < i, (s.hpSlot j).ref ≠ 0) :
    s.acquireHp a g = s.takeHp a g (.allocate i) := by
  rw [State.acquireHp, scanPool_eq_allocate.mpr]
  simp only [← Bool.not_eq_true, HpSlot.holds_iff s a g _ hb, beq_iff_eq]
  exact ⟨hnone, hi, hfree, hlow⟩

theorem State.acquireHp_of_full (hnone : ∀ j < s.params.nHp, ¬ s.holdsHp b g j)
    (hfull : ∀ j < s.params.nHp, (s.hpSlot j).ref ≠ 0) : s.acquireHp a g = s.takeHp a g .exhausted := by
  rw [State.acquireHp, scanPool_eq_exhausted.mpr]
  simp only [← Bool.not_eq_true, HpSlot.holds_iff s a g _ hb, beq_iff_eq]
  exact ⟨hnone, hfull⟩

end

section
variable {a : Word} {b : Nat} (hb : b = a.toNat - a.toNat % s.params.wSas)
include hb

theorem State.acquireSas_of_match (hi : i < s.params.nSas) (hold : s.holdsSas b i)
    (hlow : ∀ j < i, ¬ s.holdsSas b j) : s.acquireSas a = s.takeSas a (.reuse i) := by
  rw [State.acquireSas, scanPool_eq_reuse.mpr]
  simp only [← Bool.not_eq_true, SasSlot.holds_iff s a _ hb]
  exact ⟨hi, hold, hlow⟩

theorem State.acquireSas_of_free (hi : i < s.params.nSas) (hnone : ∀ j < s.params.nSas, ¬ s.holdsSas b j)
    (hfree : (s.sasSlot i).ref = 0) (hlow : ∀ j < i, (s.sasSlot j).ref ≠ 0) :
    s.acquireSas a = s.takeSas a (.allocate i) := by
  rw [State.acquireSas, scanPool_eq_allocate.mpr]
  simp only [← Bool.not_eq_true, SasSlot.holds_iff s a _ hb, beq_iff_eq]
  exact ⟨hnone, hi, hfree, hlow⟩

theorem State.acquireSas_of_full (hnone : ∀ j < s.params.nSas, ¬ s.holdsSas b j)
    (hfull : ∀ j < s.params.nSas, (s.sasSlot j).ref ≠ 0) : s.acquireSas a = s.takeSas a .exhausted := by
  rw [State.acquireSas, scanPool_eq_exhausted.mpr]
  simp only [← Bool.not_eq_true, SasSlot.holds_iff s a _ hb, beq_iff_eq]
  exact ⟨hnone, hfull⟩

end

/-! ## What follows a scan (R172 to R175, R177) -/

theorem ne_maxRef_of_lt {r : Word} (h : r.toNat < 2 ^ 32 - 1) : r ≠ maxRef :=
  fun e => absurd (eq_maxRef_iff.mp e) h.ne

/-- The allocated HP slot, and its registers as numbers (R32). -/
theorem State.takeHp_allocate (s : State) (a : Word64) (g : Tag) (i : Nat) {b : Nat}
    (hb : b = a.toNat - a.toNat % s.params.wHp) :
    s.takeHp a g (.allocate i) = { s with
      hpSlots := s.hpSlots.set i ⟨BitVec.ofNat 64 b, g, 1⟩,
      hpWin := s.hpWin.set i
        ⟨BitVec.ofNat 32 (b / 2 ^ 26 % 2 ^ 6 * 2 ^ 26 + (if g = .reg then 2 else 0) + 1),
          BitVec.ofNat 32 (b / 2 ^ 32)⟩,
      rstat := 0x00,
      result := localPtr s.params.localBaseHp s.params.wHp i (offIn s.params.wHp a) } := by
  rw [State.takeHp, State.writeWins_programHp, programmedHp, hpLoImage_eq, hpHiImage_eq, toNat_alignTo, ← hb, alignTo,
    ← hb]
  rfl

/-- The allocated SAS slot, and its register as a number (R33). -/
theorem State.takeSas_allocate (s : State) (a : Word) (i : Nat) {b : Nat}
    (hb : b = a.toNat - a.toNat % s.params.wSas) :
    s.takeSas a (.allocate i) = { s with
      sasSlots := s.sasSlots.set i ⟨BitVec.ofNat 32 b, 1⟩,
      sasWin := s.sasWin.set i (BitVec.ofNat 32 (b / 2 ^ 20 * 2 ^ 20 + 1)),
      rstat := 0x00,
      result := localPtr s.params.localBaseSas s.params.wSas i (offIn s.params.wSas a) } := by
  rw [State.takeSas, State.writeWins_programSas, programmedSas_eq, toNat_alignTo, ← hb, alignTo, ← hb]
  rfl

/-! ## Release, by its pointer and the slot's count (R176) -/

theorem State.releaseHp_of_bad {p : Word}
    (h : releaseSlot s.params.releaseAlign s.params.localBaseHp s.params.wHp s.params.nHp p = none) :
    s.releaseHp p = s.finish .badPointer 0 := by
  simp only [State.releaseHp, h]

theorem State.releaseSas_of_bad {p : Word}
    (h : releaseSlot s.params.releaseAlign s.params.localBaseSas s.params.wSas s.params.nSas p = none) :
    s.releaseSas p = s.finish .badPointer 0 := by
  simp only [State.releaseSas, h]

section
variable {p : Word}
  (h : releaseSlot s.params.releaseAlign s.params.localBaseHp s.params.wHp s.params.nHp p = some i)
include h

theorem State.releaseHp_of_free (h0 : (s.hpSlot i).ref.toNat = 0) : s.releaseHp p = s.finish .notAcquired 0 := by
  have e0 : (s.hpSlot i).ref = 0 := BitVec.eq_of_toNat_eq h0
  simp only [State.releaseHp, h, if_pos e0]

theorem State.releaseHp_of_last (h1 : (s.hpSlot i).ref.toNat = 1) :
    s.releaseHp p =
      { s with hpSlots := s.hpSlots.set i HpSlot.free, hpWin := s.hpWin.set i HpWin.cleared }.finish .ok 0 := by
  have e1 : (s.hpSlot i).ref = 1 := BitVec.eq_of_toNat_eq h1
  have e0 : (s.hpSlot i).ref ≠ 0 := by rw [e1]; decide
  simp only [State.releaseHp, h, if_neg e0, if_pos e1, State.writeWins_clearHp]
  rfl

theorem State.releaseHp_of_shared (h2 : 2 ≤ (s.hpSlot i).ref.toNat) :
    s.releaseHp p = (s.setHpSlot i { s.hpSlot i with ref := (s.hpSlot i).ref - 1 }).finish .ok 0 := by
  have e0 : (s.hpSlot i).ref ≠ 0 := by bv_omega
  have e1 : (s.hpSlot i).ref ≠ 1 := by bv_omega
  simp only [State.releaseHp, h, if_neg e0, if_neg e1]

end

section
variable {p : Word}
  (h : releaseSlot s.params.releaseAlign s.params.localBaseSas s.params.wSas s.params.nSas p = some i)
include h

theorem State.releaseSas_of_free (h0 : (s.sasSlot i).ref.toNat = 0) : s.releaseSas p = s.finish .notAcquired 0 := by
  have e0 : (s.sasSlot i).ref = 0 := BitVec.eq_of_toNat_eq h0
  simp only [State.releaseSas, h, if_pos e0]

theorem State.releaseSas_of_last (h1 : (s.sasSlot i).ref.toNat = 1) :
    s.releaseSas p =
      { s with sasSlots := s.sasSlots.set i SasSlot.free, sasWin := s.sasWin.set i 0 }.finish .ok 0 := by
  have e1 : (s.sasSlot i).ref = 1 := BitVec.eq_of_toNat_eq h1
  have e0 : (s.sasSlot i).ref ≠ 0 := by rw [e1]; decide
  simp only [State.releaseSas, h, if_neg e0, if_pos e1, State.writeWins_clearSas]
  rfl

theorem State.releaseSas_of_shared (h2 : 2 ≤ (s.sasSlot i).ref.toNat) :
    s.releaseSas p = (s.setSasSlot i { s.sasSlot i with ref := (s.sasSlot i).ref - 1 }).finish .ok 0 := by
  have e0 : (s.sasSlot i).ref ≠ 0 := by bv_omega
  have e1 : (s.sasSlot i).ref ≠ 1 := by bv_omega
  simp only [State.releaseSas, h, if_neg e0, if_neg e1]

end

end Sys2Proof.Machine

open Sys2Proof Sys2Proof.Machine

/-- Settles O38: what the slots hold fixes the scans' choice, and each choice has one outcome. -/
theorem acquireFollowsTheScans : Obligations.AcquireFollowsTheScans := by
  refine ⟨?hp, ?sas, ?range⟩
  case hp =>
    rintro s g _ _ a _ rfl rfl hrun ha rfl
    obtain rfl : a = s.hpAddr.toNat := ha.trans s.toNat_hpAddr.symm
    rw [exec_wacqHp_of_running hrun]
    refine ⟨fun i hi hold hlow => ?_, fun i hi hnone hfree hlow => ?_, fun hnone hfull => ?_⟩
    · rw [State.acquireHp_of_match rfl hi hold hlow]
      exact ⟨fun hlt => congrArg _ (if_neg (ne_maxRef_of_lt hlt)),
        fun hmax => congrArg _ (if_pos (eq_maxRef_iff.mpr hmax))⟩
    · rw [State.acquireHp_of_free rfl hi hnone hfree hlow, State.takeHp_allocate s _ g i rfl]
      rfl
    · rw [State.acquireHp_of_full rfl hnone hfull]
      rfl
  case sas =>
    rintro s _ _ _ _ rfl rfl hrun harg rfl rfl
    have hchecked : s.acquireSasChecked = s.acquireSas s.arg0 := if_neg (not_not.mpr harg)
    rw [exec_wacqSas_of_running hrun, hchecked]
    refine ⟨fun i hi hold hlow => ?_, fun i hi hnone hfree hlow => ?_, fun hnone hfull => ?_⟩
    · rw [State.acquireSas_of_match rfl hi hold hlow]
      exact ⟨fun hlt => congrArg _ (if_neg (ne_maxRef_of_lt hlt)),
        fun hmax => congrArg _ (if_pos (eq_maxRef_iff.mpr hmax))⟩
    · rw [State.acquireSas_of_free rfl hi hnone hfree hlow, State.takeSas_allocate s _ i rfl]
      rfl
    · rw [State.acquireSas_of_full rfl hnone hfull]
      rfl
  case range =>
    intro s hrun harg
    rw [exec_wacqSas_of_running hrun]
    exact congrArg _ (if_pos harg)

/-- Settles O39: the pointer fixes the slot, or that there is none, and the slot's count fixes the outcome. -/
theorem releaseFollowsThePointer : Obligations.ReleaseFollowsThePointer := by
  constructor
  case left =>
    rintro s _ _ _ _ rfl rfl hrun rfl rfl
    have hbad := releaseSlot_eq_none (m := s.params.releaseAlign) (lb := s.params.localBaseHp) (p := s.ptr)
      (n := s.params.nHp) s.params.wHp_pos
    rw [exec_wrelHp_of_running hrun]
    refine ⟨fun hout => ?_, fun hmode hoff => ?_, fun i hi x hx hp hmode => ?_⟩
    · exact congrArg _ (State.releaseHp_of_bad (hbad.mpr (.inl hout)))
    · exact congrArg _ (State.releaseHp_of_bad (hbad.mpr (.inr ⟨hmode, hoff⟩)))
    · have hslot := (releaseSlot_eq_some s.params.wHp_pos).mpr ⟨hi, x, hx, hp, hmode⟩
      exact ⟨fun h0 => congrArg _ (State.releaseHp_of_free hslot h0),
        fun h1 => congrArg _ (State.releaseHp_of_last hslot h1),
        fun h2 => congrArg _ (State.releaseHp_of_shared hslot h2)⟩
  case right =>
    rintro s _ _ _ _ rfl rfl hrun rfl rfl
    have hbad := releaseSlot_eq_none (m := s.params.releaseAlign) (lb := s.params.localBaseSas) (p := s.ptr)
      (n := s.params.nSas) s.params.wSas_pos
    rw [exec_wrelSas_of_running hrun]
    refine ⟨fun hout => ?_, fun hmode hoff => ?_, fun i hi x hx hp hmode => ?_⟩
    · exact congrArg _ (State.releaseSas_of_bad (hbad.mpr (.inl hout)))
    · exact congrArg _ (State.releaseSas_of_bad (hbad.mpr (.inr ⟨hmode, hoff⟩)))
    · have hslot := (releaseSlot_eq_some s.params.wSas_pos).mpr ⟨hi, x, hx, hp, hmode⟩
      exact ⟨fun h0 => congrArg _ (State.releaseSas_of_free hslot h0),
        fun h1 => congrArg _ (State.releaseSas_of_last hslot h1),
        fun h2 => congrArg _ (State.releaseSas_of_shared hslot h2)⟩

end

section
/-! PROOFS. Control and status register access of spec/43_control.md: what CSRWR does while not halted (R201), and the
effect of a write to each writable CSR (R202). -/

namespace Sys2Proof.Machine

variable {s t : State} {n : BitVec 12} {c : Csr}

/-- A listed number passes the check of R49, and a running machine the one of R222; the write itself is left (R201). -/
theorem exec_csrwr_of_running (h : s.halted = false) (hn : csrOfNumber s.params n = some c) :
    exec (.csrwr n) s = .next (s.writeCsr c) := by
  change execCsrwr n s = _
  rw [execCsrwr, hn]
  exact congrArg Host.Outcome.next (State.unlessHalted_of_running h _)

/-- A writable CSR takes the value, and the command finishes with OK (R202). -/
theorem exec_csrwr_of_writable (h : s.halted = false) (hn : csrOfNumber s.params n = some c)
    (hw : s.csrWrite c s.csrValue = some t) : exec (.csrwr n) s = .next (t.finish .ok 0) := by
  rw [exec_csrwr_of_running h hn, State.writeCsr, hw]

/-- The bit CTRL takes (R41), as arithmetic on the written value. -/
theorem getLsbD_zero_eq_mod_two (v : Word) : v.getLsbD 0 = (v.toNat % 2 == 1) :=
  Nat.testBit_zero v.toNat

end Sys2Proof.Machine

open Sys2Proof Sys2Proof.Machine

/-- Settles O49: each of the four numbers names its writable CSR, whose write sets the one element and then finishes. -/
theorem csrWritesHaveTheirEffect : Obligations.CsrWritesHaveTheirEffect := by
  intro s hrun
  refine ⟨?ctrl, ?rxExpect, ?txSent, ?beaconCnt⟩
  case ctrl =>
    rw [exec_csrwr_of_writable (c := .ctrl) hrun rfl rfl, getLsbD_zero_eq_mod_two]
    rfl
  case rxExpect => exact exec_csrwr_of_writable (c := .rxExpect) hrun rfl rfl
  case txSent => exact exec_csrwr_of_writable (c := .txSent) hrun rfl rfl
  case beaconCnt => exact exec_csrwr_of_writable (c := .beaconCnt) hrun rfl rfl

end

section
/-! PROOFS. Exceptions of spec/60_exceptions.md: the TRANSPORT_FAULT event (R229). -/

namespace Sys2Proof.Machine

/-- R229's effect on a state: the event writes HALTED, whatever the state holds. -/
theorem State.runTurn_transportFault (s : State) : s.runTurn .transportFault = .next { s with halted := true } := rfl

end Sys2Proof.Machine

open Sys2Proof Sys2Proof.Machine

/-- Settles O9: the step takes the event off the schedule and runs it, with no guard on HALTED or on the receiver. -/
theorem transportFaultOnlySetsHalted : Obligations.TransportFaultOnlySetsHalted := by
  intro s rest hs
  calc step s = { s with schedule := rest }.runTurn .transportFault := step_of_schedule hs
    _ = .next { s with schedule := rest, halted := true } := State.runTurn_transportFault _

end

section
/-! PROOFS. The encodings of spec/30_encoding.md: the round trips of the decoder and the encoder (R88 to R91), the
rows of R91 as match and mask, the words that are ILLEGAL (R93), and the words of the assembler's lines (R96). -/

namespace Sys2Proof

variable {w : Word}

/-! ## The fields that a format fixes at 0, as arithmetic (R87) -/

theorem cmdRsv_eq_zero : cmdRsv w = 0 ↔ w.toNat / 2 ^ 24 = 0 := by
  rw [← BitVec.toNat_inj, toNat_cmdRsv]; rfl

theorem cmdF_eq_zero : cmdF w = 0 ↔ w.toNat / 2 ^ 8 % 2 ^ 4 = 0 := by
  rw [← BitVec.toNat_inj, toNat_cmdF]; rfl

theorem cmdFHigh_eq_zero : cmdFHigh w = 0 ↔ w.toNat / 2 ^ 9 % 2 ^ 3 = 0 := by
  rw [← BitVec.toNat_inj, toNat_cmdFHigh]; rfl

theorem cmdCsrn_eq_zero : cmdCsrn w = 0 ↔ w.toNat / 2 ^ 12 % 2 ^ 12 = 0 := by
  rw [← BitVec.toNat_inj, toNat_cmdCsrn]; rfl

/-! ## A word is the encoding of its fields (R88 to R90) -/

theorem encodeC_eq_of_fields {op : BitVec 8} (hr : cmdRsv w = 0) (hf : cmdF w = 0) (hn : cmdCsrn w = 0)
    (ho : (cmdOp w).toNat = op.toNat) : encodeC op = w := by
  have h := (hits_c w op).mpr ⟨hr, hf, hn, BitVec.eq_of_toNat_eq ho⟩
  rw [show (0xFFFFFFFF : Word) = BitVec.allOnes 32 from rfl, BitVec.and_allOnes] at h
  apply BitVec.eq_of_toNat_eq
  rw [h, toNat_encodeC, BitVec.toNat_setWidth]
  have := op.isLt
  omega

theorem encodeCT_eq_of_fields {op : BitVec 8} (hr : cmdRsv w = 0) (hf : cmdFHigh w = 0) (hn : cmdCsrn w = 0)
    (ho : (cmdOp w).toNat = op.toNat) : encodeCT (cmdTag w) op = w := by
  rw [cmdRsv_eq_zero] at hr
  rw [cmdFHigh_eq_zero] at hf
  rw [cmdCsrn_eq_zero] at hn
  rw [toNat_cmdOp] at ho
  apply BitVec.eq_of_toNat_eq
  rw [toNat_encodeCT, cmdTag_eq]
  split <;> simp <;> omega

theorem encodeCC_eq_of_fields {op : BitVec 8} (hr : cmdRsv w = 0) (hf : cmdF w = 0)
    (ho : (cmdOp w).toNat = op.toNat) : encodeCC (cmdCsrn w) op = w := by
  rw [cmdRsv_eq_zero] at hr
  rw [cmdF_eq_zero] at hf
  rw [toNat_cmdOp] at ho
  apply BitVec.eq_of_toNat_eq
  rw [toNat_encodeCC, toNat_cmdCsrn]
  omega

/-- A command word that decodes is the encoding of its instruction. -/
theorem encode_of_decodeCommand {i : Instr} (h : decodeCommand w = .ok i) : encode i = .command w := by
  obtain ⟨hr, ⟨ho, hf, hn, rfl⟩ | ⟨hf, hn, hc⟩ | ⟨hf, ⟨ho, rfl⟩ | ⟨ho, rfl⟩⟩⟩ := decodeCommand_cases h
  case inl => exact congrArg _ (encodeCT_eq_of_fields (op := 0x01) hr hf hn ho)
  case inr.inl =>
    have word (op : BitVec 8) (ho : (cmdOp w).toNat = op.toNat) : PortWord.command (encodeC op) = .command w :=
      congrArg _ (encodeC_eq_of_fields hr hf hn ho)
    rcases hc with ⟨ho, rfl⟩ | ⟨ho, rfl⟩ | ⟨ho, rfl⟩ | ⟨ho, rfl⟩ | ⟨ho, rfl⟩ | ⟨ho, rfl⟩ | ⟨ho, rfl⟩ | ⟨ho, rfl⟩ |
      ⟨ho, rfl⟩ <;> exact word _ ho
  case inr.inr.inl => exact congrArg _ (encodeCC_eq_of_fields (op := 0x0B) hr hf ho)
  case inr.inr.inr => exact congrArg _ (encodeCC_eq_of_fields (op := 0x0C) hr hf ho)

end Sys2Proof

open Sys2Proof Sys2Proof.Machine

/-- Settles O1: the round trip of each constructor, by its format. -/
theorem decodeOfEncodeIsIdentity : Obligations.DecodeOfEncodeIsIdentity := by
  intro i
  cases i with
  | wacqHp tag => exact Laws.RoundTrip.wacqHp tag
  | wacqSas => exact Laws.RoundTrip.wacqSas
  | wrelHp => exact Laws.RoundTrip.wrelHp
  | wrelSas => exact Laws.RoundTrip.wrelSas
  | txbuild => exact Laws.RoundTrip.txbuild
  | txwr8 => exact Laws.RoundTrip.txwr8
  | txwr32 => exact Laws.RoundTrip.txwr32
  | rxack => exact Laws.RoundTrip.rxack
  | rxrd8 => exact Laws.RoundTrip.rxrd8
  | rxrd32 => exact Laws.RoundTrip.rxrd32
  | csrrd n => exact Laws.RoundTrip.csrrd n
  | csrwr n => exact Laws.RoundTrip.csrwr n
  | rxByte b => exact Laws.RoundTrip.rxByte b

/-- Settles O2: a command word's fields make it the encoding of what it decodes to, and every RX byte is its own. -/
theorem encodeOfDecodeIsIdentity : Obligations.EncodeOfDecodeIsIdentity := by
  intro p i h
  cases p with
  | command w => exact encode_of_decodeCommand h
  | rx b => rw [← Except.ok.inj h]; rfl

namespace Sys2Proof

/-! ## The rows of R91 -/

/-- The match test of a row of format C leaves one word. -/
theorem eq_of_hits_c {p : Word} (h : w &&& 0xFFFFFFFF = p) : w = p := by
  rwa [show (0xFFFFFFFF : Word) = BitVec.allOnes 32 from rfl, BitVec.and_allOnes] at h

/-- The match test of format CT leaves two words, one for each tag. -/
theorem eq_of_hits_ct (h : w &&& 0xFFFFFEFF = 1) : w = encodeCT (cmdTag w) 0x01 := by
  obtain ⟨hr, hf, hn, ho⟩ := (hits_ct w).mp h
  exact (encodeCT_eq_of_fields hr hf hn (congrArg _ ho)).symm

/-- The match test of a row of format CC leaves one word for each CSR number. -/
theorem eq_of_hits_cc {op : BitVec 8} (h : w &&& 0xFF000FFF = op.setWidth 32) : w = encodeCC (cmdCsrn w) op := by
  obtain ⟨hr, hf, ho⟩ := (hits_cc w op).mp h
  exact (encodeCC_eq_of_fields hr hf (congrArg _ ho)).symm

theorem encodeCC_hits (n : BitVec 12) (op : BitVec 8) : encodeCC n op &&& 0xFF000FFF = op.setWidth 32 := by
  obtain ⟨hr, hf, -, ho⟩ := Laws.RoundTrip.fields_encodeCC n op
  exact (hits_cc _ op).mpr ⟨hr, hf, BitVec.eq_of_toNat_eq ho⟩

/-- The word of a row is the encoding of an instruction of that row. -/
theorem exists_encode_of_hits {r : OpRow} (hr : r ∈ opcodeTable) (h : r.hits w) :
    ∃ i : Instr, encode i = .command w ∧ i.mnemonic = r.mnemonic := by
  simp only [opcodeTable, List.mem_cons, List.not_mem_nil, or_false] at hr
  rcases hr with rfl | rfl | rfl | rfl | rfl | rfl | rfl | rfl | rfl | rfl | rfl | rfl
  · exact ⟨.wacqHp (cmdTag w), congrArg _ (eq_of_hits_ct h).symm, rfl⟩
  · exact ⟨.wacqSas, congrArg _ (eq_of_hits_c h).symm, rfl⟩
  · exact ⟨.wrelHp, congrArg _ (eq_of_hits_c h).symm, rfl⟩
  · exact ⟨.wrelSas, congrArg _ (eq_of_hits_c h).symm, rfl⟩
  · exact ⟨.txbuild, congrArg _ (eq_of_hits_c h).symm, rfl⟩
  · exact ⟨.txwr8, congrArg _ (eq_of_hits_c h).symm, rfl⟩
  · exact ⟨.txwr32, congrArg _ (eq_of_hits_c h).symm, rfl⟩
  · exact ⟨.rxack, congrArg _ (eq_of_hits_c h).symm, rfl⟩
  · exact ⟨.rxrd8, congrArg _ (eq_of_hits_c h).symm, rfl⟩
  · exact ⟨.rxrd32, congrArg _ (eq_of_hits_c h).symm, rfl⟩
  · exact ⟨.csrrd (cmdCsrn w), congrArg _ (eq_of_hits_cc (op := 0x0B) h).symm, rfl⟩
  · exact ⟨.csrwr (cmdCsrn w), congrArg _ (eq_of_hits_cc (op := 0x0C) h).symm, rfl⟩

/-- The encoding of a command matches the row of its mnemonic. -/
theorem exists_row_of_encode {i : Instr} (h : encode i = .command w) :
    ∃ r ∈ opcodeTable, r.mnemonic = i.mnemonic ∧ r.hits w := by
  cases i with
  | rxByte b => cases h
  | wacqHp tag =>
    obtain rfl := PortWord.command.inj h
    exact ⟨opcodeTable[0], by decide, rfl, by cases tag <;> rfl⟩
  | wacqSas => obtain rfl := PortWord.command.inj h; exact ⟨opcodeTable[1], by decide, rfl, rfl⟩
  | wrelHp => obtain rfl := PortWord.command.inj h; exact ⟨opcodeTable[2], by decide, rfl, rfl⟩
  | wrelSas => obtain rfl := PortWord.command.inj h; exact ⟨opcodeTable[3], by decide, rfl, rfl⟩
  | txbuild => obtain rfl := PortWord.command.inj h; exact ⟨opcodeTable[4], by decide, rfl, rfl⟩
  | txwr8 => obtain rfl := PortWord.command.inj h; exact ⟨opcodeTable[5], by decide, rfl, rfl⟩
  | txwr32 => obtain rfl := PortWord.command.inj h; exact ⟨opcodeTable[6], by decide, rfl, rfl⟩
  | rxack => obtain rfl := PortWord.command.inj h; exact ⟨opcodeTable[7], by decide, rfl, rfl⟩
  | rxrd8 => obtain rfl := PortWord.command.inj h; exact ⟨opcodeTable[8], by decide, rfl, rfl⟩
  | rxrd32 => obtain rfl := PortWord.command.inj h; exact ⟨opcodeTable[9], by decide, rfl, rfl⟩
  | csrrd n => obtain rfl := PortWord.command.inj h; exact ⟨opcodeTable[10], by decide, rfl, encodeCC_hits n 0x0B⟩
  | csrwr n => obtain rfl := PortWord.command.inj h; exact ⟨opcodeTable[11], by decide, rfl, encodeCC_hits n 0x0C⟩

theorem decode_of_encode {i : Instr} (h : encode i = .command w) : decode (.command w) = .ok i :=
  h ▸ decodeOfEncodeIsIdentity i

/-- No two rows share a mnemonic. -/
theorem opcodeTable_mnemonic_inj :
    ∀ r ∈ opcodeTable, ∀ q ∈ opcodeTable, r.mnemonic = q.mnemonic → r = q := by decide

/-- A row matches exactly the words that decode to one of its instructions (R91). -/
theorem hits_iff_decode {r : OpRow} (hr : r ∈ opcodeTable) :
    r.hits w ↔ ∃ i, decode (.command w) = .ok i ∧ i.mnemonic = r.mnemonic := by
  constructor
  · intro h
    obtain ⟨i, hi, hm⟩ := exists_encode_of_hits hr h
    exact ⟨i, decode_of_encode hi, hm⟩
  · rintro ⟨i, hd, hm⟩
    obtain ⟨q, hq, hqm, hqw⟩ := exists_row_of_encode (encode_of_decodeCommand hd)
    rwa [opcodeTable_mnemonic_inj r hr q hq (hm.symm.trans hqm.symm)]

/-- At most one row matches a word, since the word has one decoding. -/
theorem hits_unique {r q : OpRow} (hr : r ∈ opcodeTable) (hq : q ∈ opcodeTable) (hrw : r.hits w) (hqw : q.hits w) :
    r = q := by
  obtain ⟨i, hi, him⟩ := (hits_iff_decode hr).mp hrw
  obtain ⟨j, hj, hjm⟩ := (hits_iff_decode hq).mp hqw
  obtain rfl : i = j := Except.ok.inj (hi.symm.trans hj)
  exact opcodeTable_mnemonic_inj r hr q hq (him.symm.trans hjm)

end Sys2Proof

/-- Settles O3: the words a row matches are the encodings of its instructions; a word that is none has no decoding. -/
theorem decoderAgreesWithOpcodeTable : Obligations.DecoderAgreesWithOpcodeTable := by
  refine ⟨fun w r hr => hits_iff_decode hr, fun w r q hr hq => hits_unique hr hq, fun s c hnone => ?_⟩
  cases hd : decode (.command c.cmd) with
  | error e => rw [State.runCommand, hd]; rfl
  | ok i =>
    obtain ⟨r, hr, -, hw⟩ := exists_row_of_encode (encode_of_decodeCommand hd)
    exact absurd hw (hnone r hr)

/-- Settles O4: a word with a field that no row admits has no decoding, and a reserved CSR number is ILLEGAL (R49). -/
theorem illegalWordsFinishIllegal : Obligations.IllegalWordsFinishIllegal := by
  intro s c rest hs hbad
  rw [step_of_schedule hs]
  change State.runCommand _ c = _
  cases hd : decode (.command c.cmd) with
  | error e => rw [State.runCommand, hd]; rfl
  | ok i =>
    obtain ⟨hr, hrow⟩ := decodeCommand_cases hd
    simp only [cmdRsv_eq_zero, cmdF_eq_zero, cmdFHigh_eq_zero, cmdCsrn_eq_zero, toNat_cmdOp] at hr hrow
    have hcsr : i = .csrrd (cmdCsrn c.cmd) ∨ i = .csrwr (cmdCsrn c.cmd) := by
      rcases hrow with h | h | ⟨-, h | h⟩
      · omega
      · omega
      · exact .inl h.2
      · exact .inr h.2
    have hres : ¬ csrListed s.params (cmdCsrn c.cmd).toNat := by
      rw [toNat_cmdCsrn]
      rcases hbad with h | h | h | h | h | h | h
      · omega
      · omega
      · omega
      · omega
      · omega
      · omega
      · exact h.2
    obtain ⟨hrd, hwr⟩ := reservedCsrIsIllegal (State.present { s with schedule := rest } c) _ hres
    rw [State.runCommand, hd]
    rcases hcsr with rfl | rfl
    · exact hrd
    · exact hwr

/-- Settles O5: each word is the encoding of its instruction. -/
theorem spelledOutWordsDecode : Obligations.SpelledOutWordsDecode :=
  ⟨rfl, rfl, rfl, rfl, rfl, rfl, rfl, rfl, rfl⟩

namespace Sys2Proof

/-! ## The assembler's command lines (R96) -/

/-- The assembler builds a format CC word by shifting the CSR number over the opcode. -/
theorem or_shiftLeft_eq_encodeCC (n : BitVec 12) (op : BitVec 8) :
    op.setWidth 32 ||| (n.setWidth 32 <<< 12) = encodeCC n op := by
  have ho := op.isLt
  have hn := n.isLt
  apply BitVec.eq_of_toNat_eq
  rw [toNat_encodeCC, BitVec.toNat_or, BitVec.toNat_shiftLeft, BitVec.toNat_setWidth, BitVec.toNat_setWidth,
    Nat.mod_eq_of_lt (a := n.toNat) (by omega), Nat.mod_eq_of_lt (a := op.toNat) (by omega), Nat.or_comm,
    Nat.mod_eq_of_lt (by rw [Nat.shiftLeft_eq]; omega), ← Nat.shiftLeft_add_eq_or_of_lt (by omega), Nat.shiftLeft_eq]

/-- The two halves of WACQ.HP's address (R92). -/
theorem toNat_halves (a : BitVec 64) :
    (a.extractLsb' 32 32).toNat * 2 ^ 32 + (a.extractLsb' 0 32).toNat = a.toNat := by
  have := a.isLt
  simp only [BitVec.extractLsb'_toNat, Nat.shiftRight_eq_div_pow]
  omega

end Sys2Proof

/-- Settles O28: each line's word is the encoding of the instruction it names. -/
theorem assembledCommandsDecode : Obligations.AssembledCommandsDecode := by
  intro ms a v s d r l g w n
  have csr (i : Instr) (op : BitVec 8) (h : encode i = .command (encodeCC n op)) :
      decode (.command (op.setWidth 32 ||| (n.setWidth 32 <<< 12))) = .ok i := by
    rw [or_shiftLeft_eq_encodeCC]
    exact decode_of_encode h
  refine ⟨?wacqHp, ⟨_, rfl, decode_of_encode (i := .wacqSas) rfl, rfl, rfl⟩,
    ⟨_, rfl, decode_of_encode (i := .wrelHp) rfl, rfl⟩, ⟨_, rfl, decode_of_encode (i := .wrelSas) rfl, rfl⟩,
    ⟨_, rfl, decode_of_encode (i := .txbuild) rfl, rfl, rfl, rfl, rfl, rfl⟩,
    ⟨_, rfl, decode_of_encode (i := .txwr8) rfl, rfl, rfl⟩, ⟨_, rfl, decode_of_encode (i := .txwr32) rfl, rfl, rfl⟩,
    ⟨_, rfl, decode_of_encode (i := .rxack) rfl⟩, ⟨_, rfl, decode_of_encode (i := .rxrd8) rfl, rfl⟩,
    ⟨_, rfl, decode_of_encode (i := .rxrd32) rfl, rfl⟩, ⟨_, rfl, csr (.csrrd n) 0x0B rfl⟩,
    ⟨_, rfl, csr (.csrwr n) 0x0C rfl, rfl⟩⟩
  case wacqHp => cases g <;> exact ⟨_, rfl, decode_of_encode rfl, toNat_halves w⟩

end

section
/-! PROOFS. What an instruction and a move may do to the state (spec/10_state.md, spec/20_memory.md R66, R67), the codes
a command finishes with (spec/60_exceptions.md R220), the halt (R229, R230) and RESET (spec/70_reset_and_hazards.md). -/

open Sys2Proof Sys2Proof.Machine

/-! ## Which instruction may change which element -/

/-- Settles O12: each effect is one update of the state, which names the elements it writes. -/
theorem elementsChangeOnlyByTheirWriters : Obligations.ElementsChangeOnlyByTheirWriters := by
  intro i s t h
  cases exec_cases h with
  | wacqHp g e =>
    obtain ⟨_, _, _, _, ha, -⟩ := s.acquireHp_frame s.hpAddr g
    rw [e, ha]; simp [Instr.isCommand]
  | wacqSas e =>
    obtain ⟨_, _, _, _, ha, -⟩ := s.acquireSas_frame s.sasAddr
    rw [e, ha]; simp [Instr.isCommand]
  | wrelHp e =>
    obtain ⟨_, _, _, ha, -⟩ := s.releaseHp_frame s.ptr
    rw [e, ha]; simp [Instr.isCommand]
  | wrelSas e =>
    obtain ⟨_, _, _, ha, -⟩ := s.releaseSas_frame s.ptr
    rw [e, ha]; simp [Instr.isCommand]
  | txbuild e =>
    rcases s.buildPacket_cases with ⟨-, ha⟩ | ⟨-, ha⟩ <;> rw [e, ha] <;> simp [Instr.isCommand]
  | rxTaken b _ e =>
    obtain ⟨_, _, _, _, _, _, ha⟩ := s.takeRxByte_frame b
    rw [e, ha]; simp
  | rxDisabled b _ e => rw [e]; simp
  | plain _ _ e hc => rw [e]; simp [hc]
  | txwr8 e | txwr32 e | rxack e | csrCtrl e | csrExpect e | csrSent e | csrBeacon e =>
    rw [e]; simp [Instr.isCommand]

namespace Sys2Proof.Machine

variable {s t : State} {i : Instr}

/-- No instruction writes HALTED, the parameters or the TX consumer's count. -/
theorem exec_unwritten (h : exec i s = .next t) :
    t.halted = s.halted ∧ t.params = s.params ∧ t.txTaken = s.txTaken := by
  obtain ⟨-, -, -, -, -, -, -, -, -, -, -, hhalted, hparams, -, -, -, -, -, -, htaken, -⟩ :=
    elementsChangeOnlyByTheirWriters i s t h
  exact ⟨hhalted, hparams, htaken⟩

/-- Only TXBUILD writes the TX stream, and it appends. -/
theorem exec_txout (h : exec i s = .next t) : ∃ out, t.txout = s.txout ++ out := by
  obtain ⟨-, -, -, -, -, -, -, htx, -⟩ := elementsChangeOnlyByTheirWriters i s t h
  by_cases hi : i = .txbuild
  · subst hi
    cases exec_cases h with
    | plain _ _ e => rw [e]; exact ⟨[], (List.append_nil _).symm⟩
    | txbuild e hl =>
      rcases s.buildPacket_cases with ⟨hlt, -⟩ | ⟨-, ha⟩
      · exact absurd hl (Nat.not_le.mpr hlt)
      · rw [e, ha]; exact ⟨_, rfl⟩
  · exact ⟨[], by rw [not_not.mp (mt htx hi), List.append_nil]⟩

/-! ## Reads and failed commands (R67, R220) -/

/-- A read, or a command with another code than OK, has no effect beside RESULT and RSTAT. -/
theorem exec_plain (hc : i.isCommand = true) (h : exec i s = .next t) (hp : i.readOnly = true ∨ t.rstat ≠ 0x00) :
    ∃ c v, t = s.finish c v ∧ (c ≠ .ok → v = 0) := by
  have ok {u : State} {v : Word} {P : Prop} (e : t = u.finish .ok v) (hr : i.readOnly = false) : P := by
    rcases hp with hp | hp
    · rw [hr] at hp; cases hp
    · exact absurd (congrArg State.rstat e) hp
  cases exec_cases h with
  | plain c v e _ hv => exact ⟨c, v, e, hv⟩
  | wacqHp _ _ hr | wacqSas _ _ hr | wrelHp _ hr | wrelSas _ hr =>
    rcases hp with hp | hp
    · cases hp
    · exact absurd hr hp
  | txbuild e hl =>
    rcases s.buildPacket_cases with ⟨hlt, -⟩ | ⟨-, ha⟩
    · exact absurd hl (Nat.not_le.mpr hlt)
    · exact ok (e.trans ha) rfl
  | txwr8 e | txwr32 e | rxack e | csrCtrl e | csrExpect e | csrSent e | csrBeacon e => exact ok e rfl
  | rxTaken | rxDisabled => cases hc

end Sys2Proof.Machine

/-- Settles O13: the one outcome that is not OK is a plain finish, whose RESULT is 0. -/
theorem nonOkCommandChangesNothing : Obligations.NonOkCommandChangesNothing := by
  intro i s t hc h hr
  obtain ⟨c, v, rfl, hv⟩ := exec_plain hc h (.inr hr)
  have hne : c ≠ .ok := by rintro rfl; exact hr rfl
  rw [hv hne]
  rfl

/-- Settles O15: a plain finish writes RESULT and RSTAT only, which no command reads. -/
theorem readsAndErrorsAreIdempotent : Obligations.ReadsAndErrorsAreIdempotent := by
  intro i s t hc h hp
  obtain ⟨c, v, rfl, -⟩ := exec_plain hc h hp
  exact ⟨rfl, (exec_finish hc s c v).trans h⟩

namespace Sys2Proof

/-! ## The codes of a command (R220) -/

/-- The status codes whose row in R220 names the instruction; ILLEGAL is a reserved CSR number's only one (R222). -/
def Instr.codes (p : Params) : Instr → List Machine.Status
  | .wacqHp _ => [.ok, .halted, .poolExhausted, .refOverflow]
  | .wacqSas => [.ok, .halted, .poolExhausted, .refOverflow, .range]
  | .wrelHp | .wrelSas => [.ok, .halted, .badPointer, .notAcquired]
  | .txbuild | .txwr8 | .txwr32 => [.ok, .halted, .range]
  | .rxack => [.ok, .halted, .noPacket]
  | .rxrd8 | .rxrd32 => [.ok, .range]
  | .csrrd n => if csrNumberNamed p n then [.ok] else [.illegal]
  | .csrwr n => if csrNumberNamed p n then [.ok, .halted, .readOnly] else [.illegal]
  | .rxByte _ => []

namespace Machine

/-- The command has ended in `t` with a code of the list. -/
def EndsIn (t : State) (cs : List Status) : Prop := ∃ c ∈ cs, t.rstat = c.code

variable {s t : State} {i : Instr}

theorem endsIn_finish (s : State) (v : Word) {c : Status} {cs : List Status} (h : c ∈ cs) : EndsIn (s.finish c v) cs :=
  ⟨c, h, rfl⟩

theorem EndsIn.mono {cs ds : List Status} (h : EndsIn t cs) (hs : ∀ c ∈ cs, c ∈ ds) : EndsIn t ds :=
  h.imp fun c hc => ⟨hs c hc.1, hc.2⟩

theorem endsIn_unlessHalted {f : State → State} {cs : List Status} (hh : .halted ∈ cs) (hf : EndsIn (f s) cs) :
    EndsIn (s.unlessHalted f) cs := by
  rcases s.unlessHalted_cases f with ⟨-, e⟩ | ⟨-, e⟩ <;> rw [e]
  · exact endsIn_finish s 0 hh
  · exact hf

/-- Every command ends with one of its own codes. -/
theorem exec_endsIn (hc : i.isCommand = true) (h : exec i s = .next t) : EndsIn t (i.codes s.params) := by
  cases i with
  | rxByte b => cases hc
  | wacqHp g =>
    obtain rfl := Host.Outcome.next.inj h
    obtain ⟨_, _, c, v, ha, hm, -⟩ := s.acquireHp_frame s.hpAddr g
    refine endsIn_unlessHalted (by simp [Instr.codes]) ?_
    rw [ha]
    exact (endsIn_finish _ v hm).mono (by simp [Instr.codes])
  | wacqSas =>
    obtain rfl := Host.Outcome.next.inj h
    obtain ⟨_, _, c, v, ha, hm, -⟩ := s.acquireSas_frame s.sasAddr
    refine endsIn_unlessHalted (by simp [Instr.codes]) ?_
    rw [State.acquireSasChecked]
    split
    · exact endsIn_finish _ 0 (by simp [Instr.codes])
    · rw [ha]
      exact (endsIn_finish _ v hm).mono (by simp [Instr.codes])
  | wrelHp =>
    obtain rfl := Host.Outcome.next.inj h
    obtain ⟨_, _, c, ha, hm, -⟩ := s.releaseHp_frame s.ptr
    refine endsIn_unlessHalted (by simp [Instr.codes]) ?_
    rw [ha]
    exact (endsIn_finish _ 0 hm).mono (by simp [Instr.codes])
  | wrelSas =>
    obtain rfl := Host.Outcome.next.inj h
    obtain ⟨_, _, c, ha, hm, -⟩ := s.releaseSas_frame s.ptr
    refine endsIn_unlessHalted (by simp [Instr.codes]) ?_
    rw [ha]
    exact (endsIn_finish _ 0 hm).mono (by simp [Instr.codes])
  | txbuild =>
    obtain rfl := Host.Outcome.next.inj h
    refine endsIn_unlessHalted (by simp [Instr.codes]) ?_
    rcases s.buildPacket_cases with ⟨-, ha⟩ | ⟨-, ha⟩ <;> rw [ha] <;> exact endsIn_finish _ _ (by simp [Instr.codes])
  | txwr8 =>
    obtain rfl := Host.Outcome.next.inj h
    refine endsIn_unlessHalted (by simp [Instr.codes]) ?_
    rw [State.txWrite8]
    split <;> exact endsIn_finish _ _ (by simp [Instr.codes])
  | txwr32 =>
    obtain rfl := Host.Outcome.next.inj h
    refine endsIn_unlessHalted (by simp [Instr.codes]) ?_
    rw [State.txWrite32]
    split <;> exact endsIn_finish _ _ (by simp [Instr.codes])
  | rxack =>
    obtain rfl := Host.Outcome.next.inj h
    refine endsIn_unlessHalted (by simp [Instr.codes]) ?_
    rw [State.ackPacket]
    split <;> exact endsIn_finish _ _ (by simp [Instr.codes])
  | rxrd8 =>
    obtain rfl := Host.Outcome.next.inj h
    rw [State.rxRead8]
    split <;> exact endsIn_finish _ _ (by simp [Instr.codes])
  | rxrd32 =>
    obtain rfl := Host.Outcome.next.inj h
    rw [State.rxRead32]
    split <;> exact endsIn_finish _ _ (by simp [Instr.codes])
  | csrrd n =>
    obtain rfl := Host.Outcome.next.inj h
    cases hn : csrOfNumber s.params n with
    | none => exact endsIn_finish s 0 (by simp [Instr.codes, csrNumberNamed, hn])
    | some c => exact endsIn_finish s _ (by simp [Instr.codes, csrNumberNamed, hn])
  | csrwr n =>
    obtain rfl := Host.Outcome.next.inj h
    cases hn : csrOfNumber s.params n with
    | none => exact endsIn_finish s 0 (by simp [Instr.codes, csrNumberNamed, hn])
    | some c =>
      refine endsIn_unlessHalted (by simp [Instr.codes, csrNumberNamed, hn]) ?_
      rw [State.writeCsr]
      split <;> exact endsIn_finish _ 0 (by simp [Instr.codes, csrNumberNamed, hn])

/-- A well-formed instruction's codes leave ILLEGAL out. -/
theorem illegal_notMem_codes {p : Params} (h : i.wf p = true) : .illegal ∉ i.codes p := by
  cases i with
  | csrrd n | csrwr n =>
    have hn : csrNumberNamed p n = true := h
    simp [Instr.codes, hn]
  | _ => simp [Instr.codes]

theorem Status.code_le (c : Status) : c.code.toNat ≤ 9 := by cases c <;> decide

end Machine

end Sys2Proof

/-- Settles O14: a command's codes are those of `Instr.codes`, which lists R220's column by instruction. -/
theorem commandsRaiseOnlyTheirCodes : Obligations.CommandsRaiseOnlyTheirCodes := by
  intro i s t h
  have code {ns : List Nat} (hc : i.isCommand = true) (hns : ∀ c ∈ i.codes s.params, c.code.toNat ∈ ns) :
      t.rstat.toNat ∈ ns := by
    obtain ⟨c, hm, e⟩ := exec_endsIn hc h
    exact e ▸ hns c hm
  refine ⟨?_, ?_, ?_, ?_, ?_, ?_, ?_, ?_, fun hc hw hr => ?_⟩
  · rintro ⟨g, rfl⟩; exact code rfl (by simp [Instr.codes, Status.code])
  · rintro rfl; exact code rfl (by simp [Instr.codes, Status.code])
  · rintro (rfl | rfl) <;> exact code rfl (by simp [Instr.codes, Status.code])
  · rintro (rfl | rfl | rfl) <;> exact code rfl (by simp [Instr.codes, Status.code])
  · rintro rfl; exact code rfl (by simp [Instr.codes, Status.code])
  · rintro (rfl | rfl) <;> exact code rfl (by simp [Instr.codes, Status.code])
  · rintro ⟨n, rfl⟩
    refine code rfl ?_
    rw [Instr.codes]
    split <;> simp [Status.code]
  · rintro ⟨n, rfl⟩
    refine code rfl ?_
    rw [Instr.codes]
    split <;> simp [Status.code]
  · obtain ⟨c, hm, e⟩ := exec_endsIn hc h
    have hill : c = .illegal := by rw [e] at hr; revert hr; cases c <;> decide
    exact illegal_notMem_codes hw (hill ▸ hm)

namespace Sys2Proof.Machine

variable {s t : State} {i : Instr}

/-! ## Steps (R66, R86, R140, R221) -/

theorem exec_next (i : Instr) (s : State) : ∃ t, exec i s = .next t := by
  cases i <;> exact ⟨_, rfl⟩

/-- A move answers a next state, unless it is a window access, which may fault. -/
theorem runTurn_total (s : State) (m : Turn) :
    (∃ t, s.runTurn m = .next t) ∨ ∃ a f, m = .windowAccess a ∧ s.runTurn m = .fault f := by
  cases m with
  | rx =>
    refine .inl ?_
    simp only [State.runTurn, State.offerRx]
    split
    · exact ⟨_, rfl⟩
    · split
      · exact exec_next _ _
      · exact ⟨_, rfl⟩
  | command c =>
    refine .inl ?_
    simp only [State.runTurn, State.runCommand]
    split
    · exact exec_next _ _
    · exact ⟨_, rfl⟩
  | windowAccess a =>
    simp only [State.runTurn, State.windowAccess]
    split
    · next f _ => exact .inr ⟨a, f, rfl, rfl⟩
    · exact .inl ⟨_, rfl⟩
  | txTake | transportFault | reset => exact .inl ⟨_, rfl⟩

theorem step_idle (h : s.schedule = []) : step s = .next s := by
  unfold step; rw [h]

/-- A step answers a next state, unless its move is a window access, which may fault. -/
theorem step_total (s : State) :
    (∃ t, step s = .next t) ∨ ∃ a rest f, s.schedule = .windowAccess a :: rest ∧ step s = .fault f := by
  cases hs : s.schedule with
  | nil => exact .inl ⟨s, step_idle hs⟩
  | cons m rest =>
    rw [step_of_schedule hs]
    rcases runTurn_total { s with schedule := rest } m with h | ⟨a, f, rfl, h⟩
    · exact .inl h
    · exact .inr ⟨a, rest, f, rfl, h⟩

theorem State.runCommand_of_decode {c : Command} (h : decode (.command c.cmd) = .ok i) :
    s.runCommand c = exec i (s.present c) := by
  rw [State.runCommand, h]

theorem exec_rxByte_of_disabled {b : Byte} (h : s.halted = true ∨ s.pktReady = true) :
    exec (.rxByte b) s = .next s :=
  congrArg Host.Outcome.next (if_neg (by rcases h with h | h <;> simp [State.rxEnabled, h]))

/-- A disabled port leaves the byte on the line. -/
theorem State.offerRx_of_disabled (h : s.halted = true ∨ s.pktReady = true) : s.offerRx = .next s := by
  rw [State.offerRx]
  split
  · rfl
  · exact if_neg (by rcases h with h | h <;> simp [State.rxEnabled, h])

theorem State.offerRx_of_empty (h : s.rxLine = []) : s.offerRx = .next s := by
  rw [State.offerRx, h]

end Sys2Proof.Machine

/-- Settles O16: every instruction's meaning is a `.next`, and so is every move's but the window access's. -/
theorem onlyWindowAccessesFault : Obligations.OnlyWindowAccessesFault := by
  refine ⟨exec_next, fun s f h => ?_, fun s r h => ?_⟩
  · rcases step_total s with ⟨t, e⟩ | ⟨a, rest, -, hs, -⟩
    · rw [e] at h; cases h
    · exact ⟨a, rest, hs⟩
  · rcases step_total s with ⟨t, e⟩ | ⟨-, -, f, -, e⟩ <;> rw [e] at h <;> cases h

/-- Settles O6: the move fixes what the step runs, and the decoder which instruction that is. -/
theorem stepRunsTheDecodedInstruction : Obligations.StepRunsTheDecodedInstruction := by
  refine ⟨fun s c rest i hs hd => ?command, fun s b line rest hs hl hh hp => ?rx, fun s rest hs hl => ?empty,
    fun s => step_idle⟩
  case command => exact (step_of_schedule hs).trans (State.runCommand_of_decode hd)
  case rx =>
    rw [exec_rxByte_of_enabled (s := { s with schedule := rest, rxLine := line }) hh hp]
    exact step_rx hs hl hh hp
  case empty => exact (step_of_schedule hs).trans (State.offerRx_of_empty hl)

/-- Settles O7: the port's enable is the guard of RX_BYTE and of the RX producer's move. -/
theorem disabledPortTakesNoByte : Obligations.DisabledPortTakesNoByte := fun _ h =>
  ⟨fun _ => exec_rxByte_of_disabled h, fun _ hs => (step_of_schedule hs).trans (State.offerRx_of_disabled h)⟩

namespace Sys2Proof.Machine

variable {s t : State} {i : Instr}

/-- A decoded command word is a command. -/
theorem isCommand_of_decode {w : Word} (h : decode (.command w) = .ok i) : i.isCommand = true := by
  cases i with
  | rxByte b => exact nomatch encode_of_decodeCommand h
  | _ => rfl

/-! ## What every step keeps of the parameters, the TX stream and RSTAT (R20, R59, R220) -/

/-- The parameters stay, the TX stream grows at its end, RSTAT stays in R220's range, and the count of bytes taken rises
within the stream. -/
def StreamKept (s t : State) : Prop :=
  t.params = s.params ∧ (∃ out, t.txout = s.txout ++ out) ∧ (s.rstat.toNat ≤ 9 → t.rstat.toNat ≤ 9) ∧
  (s.txTaken ≤ s.txout.length → s.txTaken ≤ t.txTaken ∧ t.txTaken ≤ t.txout.length)

theorem StreamKept.of_append {out : List Byte} (h1 : t.params = s.params) (h2 : t.txout = s.txout ++ out)
    (h3 : s.rstat.toNat ≤ 9 → t.rstat.toNat ≤ 9) (h4 : t.txTaken = s.txTaken) : StreamKept s t := by
  refine ⟨h1, ⟨out, h2⟩, h3, fun h => ?_⟩
  rw [h4, h2, List.length_append]
  exact ⟨le_refl _, Nat.le_add_right_of_le h⟩

/-- A move that leaves the stream, its count, the parameters and RSTAT alone. -/
theorem StreamKept.of_same (h1 : t.params = s.params) (h2 : t.txout = s.txout) (h3 : t.rstat = s.rstat)
    (h4 : t.txTaken = s.txTaken) : StreamKept s t :=
  .of_append (out := []) h1 (by rw [h2, List.append_nil]) (by rw [h3]; exact id) h4

theorem streamKept_takeTx (s : State) : StreamKept s s.takeTx := by
  rw [State.takeTx]
  split
  · next h => exact ⟨rfl, ⟨[], (List.append_nil _).symm⟩, id, fun _ => ⟨Nat.le_succ _, h⟩⟩
  · exact .of_same rfl rfl rfl rfl

theorem Move.streamKept {m : Turn} (h : Move s t m) : StreamKept s t := by
  cases h with
  | command c i hd he =>
    obtain ⟨-, hp, ht⟩ := exec_unwritten he
    obtain ⟨out, ho⟩ := exec_txout he
    obtain ⟨code, -, hr⟩ := exec_endsIn (isCommand_of_decode hd) he
    exact .of_append hp ho (fun _ => hr ▸ code.code_le) ht
  | illegal _ _ _ e =>
    rw [e]; exact .of_append (out := []) rfl (List.append_nil _).symm (fun _ => Status.illegal.code_le) rfl
  | rxTaken b _ _ _ _ e =>
    obtain ⟨_, _, _, _, _, _, ha⟩ := State.takeRxByte_frame _ b
    rw [e, ha]; exact .of_same rfl rfl rfl rfl
  | txTake e => rw [e]; exact streamKept_takeTx s
  | reset e => rw [e]; exact .of_append (out := []) rfl (List.append_nil _).symm (fun _ => Status.ok.code_le) rfl
  | rxIdle _ e | access _ _ _ e | transportFault e => rw [e]; exact .of_same rfl rfl rfl rfl

end Sys2Proof.Machine

/-- Settles O17: of all moves only TXBUILD and the TX consumer's touch the stream or its count. -/
theorem stepKeepsParametersAndExtendsTxStream : Obligations.StepKeepsParametersAndExtendsTxStream := by
  intro s t h
  rcases step_cases h with ⟨-, rfl⟩ | ⟨m, rest, -, hm⟩
  · exact StreamKept.of_same rfl rfl rfl rfl
  · exact hm.streamKept

/-! ## Halt and reset (R227, R229, R230, R250) -/

/-- Settles O11: no instruction writes HALTED, and of the other moves only the two events do. -/
theorem onlyFaultAndResetWriteHalted : Obligations.OnlyFaultAndResetWriteHalted := by
  intro s t m h
  have same (e : t.halted = s.halted) :
      (s.halted = false → t.halted = true → m = .transportFault) ∧
      (s.halted = true → t.halted = false → m = .reset) := by
    rw [e]
    constructor <;> intro h0 h1 <;> exact nomatch h0.symm.trans h1
  cases runTurn_cases h with
  | command c i _ he => exact same (exec_unwritten he).1
  | rxTaken b _ _ _ _ e =>
    obtain ⟨_, _, _, _, _, _, ha⟩ := State.takeRxByte_frame _ b
    exact same (by rw [e, ha])
  | txTake e => exact same (by rw [e, State.takeTx]; split <;> rfl)
  | transportFault e => exact ⟨fun _ _ => rfl, fun _ h1 => nomatch e ▸ h1⟩
  | reset e => exact ⟨fun _ h1 => (nomatch e ▸ h1), fun _ _ => rfl⟩
  | illegal _ _ _ e | rxIdle _ e | access _ _ _ e => exact same (e ▸ rfl)

namespace Sys2Proof.Machine

variable {s t : State} {i : Instr}

/-- A halted machine refuses every well-formed command that is not read-only (R222, R230). -/
theorem exec_of_halted (h : s.halted = true) (hc : i.isCommand = true) (hr : i.readOnly = false)
    (hw : i.wf s.params = true) : exec i s = .next (s.finish .halted 0) := by
  cases i with
  | csrwr n =>
    obtain ⟨c, hn⟩ := Option.isSome_iff_exists.mp hw
    change execCsrwr n s = _
    rw [execCsrwr, hn]
    exact congrArg Host.Outcome.next (State.unlessHalted_of_halted h _)
  | wacqHp | wacqSas | wrelHp | wrelSas | txbuild | txwr8 | txwr32 | rxack =>
    exact congrArg Host.Outcome.next (State.unlessHalted_of_halted h _)
  | rxByte => cases hc
  | rxrd8 | rxrd32 | csrrd => cases hr

/-- An RXRD8 past the end of rxbuf, and one inside it (R153). -/
theorem exec_rxrd8_of_outside (h : s.params.bufSize < s.offset + 1) :
    exec .rxrd8 s = .next (s.finish .range 0) := congrArg Host.Outcome.next (if_pos h)

theorem exec_rxrd8_of_inside (h : s.offset + 1 ≤ s.params.bufSize) :
    exec .rxrd8 s = .next (s.finish .ok ((s.rxbuf.read s.offset).setWidth 32)) :=
  congrArg Host.Outcome.next (if_neg (Nat.not_lt.mpr h))

/-- An RXRD32 past the end of rxbuf, and one inside it (R154). -/
theorem exec_rxrd32_of_outside (h : s.params.bufSize < s.offset + 4) :
    exec .rxrd32 s = .next (s.finish .range 0) := congrArg Host.Outcome.next (if_pos h)

theorem exec_rxrd32_of_inside (h : s.offset + 4 ≤ s.params.bufSize) :
    exec .rxrd32 s = .next (s.finish .ok (s.rxField s.offset)) :=
  congrArg Host.Outcome.next (if_neg (Nat.not_lt.mpr h))

theorem exec_csrrd_of_reserved {n : BitVec 12} (hn : csrOfNumber s.params n = none) :
    exec (.csrrd n) s = .next (s.finish .illegal 0) := by
  change execCsrrd n s = _
  rw [execCsrrd, hn]

theorem exec_csrrd_of_listed {n : BitVec 12} {c : Csr} (hn : csrOfNumber s.params n = some c) :
    exec (.csrrd n) s = .next (s.finish .ok (s.csrRead c)) := by
  change execCsrrd n s = _
  rw [execCsrrd, hn]

/-- HALTED is not among what a read shows, STATUS apart (R42). -/
theorem State.csrRead_halted (s : State) (x : Bool) {c : Csr} (h : c ≠ .status) :
    State.csrRead { s with halted := x } c = s.csrRead c := by
  cases c with
  | status => exact absurd rfl h
  | _ => rfl

/-- What a read-only command finishes with does not depend on HALTED (R230). -/
theorem exec_readOnly (s : State) (hr : i.readOnly = true) (hi : i ≠ .csrrd 0x001) :
    ∃ c v, ∀ x, exec i { s with halted := x } = .next (State.finish { s with halted := x } c v) := by
  cases i with
  | rxrd8 =>
    rcases Nat.lt_or_ge s.params.bufSize (s.offset + 1) with hlen | hlen
    · exact ⟨.range, 0, fun x => exec_rxrd8_of_outside (s := { s with halted := x }) hlen⟩
    · exact ⟨.ok, (s.rxbuf.read s.offset).setWidth 32, fun x =>
        exec_rxrd8_of_inside (s := { s with halted := x }) hlen⟩
  | rxrd32 =>
    rcases Nat.lt_or_ge s.params.bufSize (s.offset + 4) with hlen | hlen
    · exact ⟨.range, 0, fun x => exec_rxrd32_of_outside (s := { s with halted := x }) hlen⟩
    · exact ⟨.ok, s.rxField s.offset, fun x => exec_rxrd32_of_inside (s := { s with halted := x }) hlen⟩
  | csrrd n =>
    cases hn : csrOfNumber s.params n with
    | none => exact ⟨.illegal, 0, fun x => exec_csrrd_of_reserved (s := { s with halted := x }) hn⟩
    | some c =>
      have hc : c ≠ .status := by
        rintro rfl
        exact hi (congrArg _ (BitVec.eq_of_toNat_eq (csrOfNumber_some hn).1))
      refine ⟨.ok, s.csrRead c, fun x => ?_⟩
      rw [exec_csrrd_of_listed (s := { s with halted := x }) hn, State.csrRead_halted s x hc]
  | _ => cases hr

theorem atReset_applyReset (s : State) : AtReset s.applyReset where
  connected := rfl
  txSent := rfl
  rxExpect := rfl
  beaconCnt := rfl
  halted := rfl
  rxState := rfl
  rxRemain := rfl
  rxPlen := rfl
  pktReady := rfl
  rxbuf _ := rfl
  txbuf _ := rfl
  hpSlots := ⟨List.length_replicate, fun _ => List.eq_of_mem_replicate⟩
  sasSlots := ⟨List.length_replicate, fun _ => List.eq_of_mem_replicate⟩
  hpWin := ⟨List.length_replicate, fun _ => List.eq_of_mem_replicate⟩
  sasWin := ⟨List.length_replicate, fun _ => List.eq_of_mem_replicate⟩
  ports := ⟨rfl, rfl, rfl, rfl, rfl, rfl, rfl⟩

end Sys2Proof.Machine

/-- Settles O10: the halt check stands before every effect; the read-only commands have none and do not read HALTED. -/
theorem haltedMachineRefusesCommands : Obligations.HaltedMachineRefusesCommands := by
  intro s h
  refine ⟨fun _ => exec_rxByte_of_disabled (.inl h), fun _ => exec_of_halted h, fun i t hr hi he => ?_⟩
  obtain ⟨c, v, key⟩ := exec_readOnly s hr hi
  obtain rfl : State.finish { s with halted := false } c v = t := Host.Outcome.next.inj ((key false).symm.trans he)
  have stopped : { s with halted := true } = s := by rw [← h]
  exact stopped ▸ key true

/-- Settles O8: the event writes every element of R50, and the reset state is its own reset. -/
theorem resetEstablishesResetValues : Obligations.ResetEstablishesResetValues :=
  ⟨atReset_applyReset State.reset, fun _ _ hs =>
    ⟨_, step_of_schedule hs, atReset_applyReset _, rfl, rfl, rfl, rfl, rfl, rfl, rfl⟩⟩

/-- Settles O51: the defaults of R7, and what follows from them. -/
theorem resetParametersHaveTheirDefaults : Obligations.ResetParametersHaveTheirDefaults :=
  ⟨rfl, rfl, rfl, rfl, rfl, rfl, rfl, rfl, rfl, rfl⟩

end

section
/-! PROOFS. What a step can do to the receive machine (spec/41_receive.md), said once, and what every step keeps of it:
the counts of R27 and R28, the canonical buffers (R30, R64) and the validity of the packet in rxbuf (R145, R148). -/

namespace Sys2Proof.Machine

variable {s t : State} {b : Byte}

/-! ## A taken byte (R142 to R146, R155) -/

/-- What the RX port's byte `b` makes of `s`, by the state it completes and the outcome of the checks. -/
inductive Taken (s : State) (b : Byte) : State → Prop where
  /-- The byte does not complete its state. -/
  | more (h : s.rxRemain - 1 ≠ 0) : Taken s b (s.storeRxByte b)
  /-- A valid header announces a payload. -/
  | headerPayload (h : s.rxRemain - 1 = 0) (hs : s.rxState = .header) (hc : HeaderChecks (s.storeRxByte b))
      (hl : ((s.storeRxByte b).rxField 20).toNat ≠ 0) : Taken s b { s.storeRxByte b with
        rxState := .payload, rxRemain := (s.storeRxByte b).rxField 20, rxPlen := (s.storeRxByte b).rxField 20 }
  /-- A valid header announces no payload. -/
  | headerFooter (h : s.rxRemain - 1 = 0) (hs : s.rxState = .header) (hc : HeaderChecks (s.storeRxByte b))
      (hl : ((s.storeRxByte b).rxField 20).toNat = 0) : Taken s b { s.storeRxByte b with
        rxState := .footer, rxRemain := 8, rxPlen := (s.storeRxByte b).rxField 20 }
  | headerDropped (h : s.rxRemain - 1 = 0) (hs : s.rxState = .header) (hc : ¬ HeaderChecks (s.storeRxByte b)) :
      Taken s b { s.storeRxByte b with rxState := .header, rxRemain := 28 }
  | payload (h : s.rxRemain - 1 = 0) (hs : s.rxState = .payload) :
      Taken s b { s.storeRxByte b with rxState := .footer, rxRemain := 8 }
  /-- A valid footer yields its packet. -/
  | footerAccepted (h : s.rxRemain - 1 = 0) (hs : s.rxState = .footer) (hc : FooterChecks (s.storeRxByte b)) :
      Taken s b { s.storeRxByte b with
        rxState := .header, rxRemain := 28, rxExpect := expectAfter (s.storeRxByte b) ((s.storeRxByte b).rxField 4),
        pktReady := true }
  | footerDropped (h : s.rxRemain - 1 = 0) (hs : s.rxState = .footer) (hc : ¬ FooterChecks (s.storeRxByte b)) :
      Taken s b { s.storeRxByte b with rxState := .header, rxRemain := 28 }

/-- Everything a taken byte can do. -/
theorem State.takeRxByte_cases (s : State) (b : Byte) : Taken s b (s.takeRxByte b) := by
  by_cases h : s.rxRemain - 1 = 0
  case neg => rw [State.takeRxByte_of_more h]; exact .more h
  case pos =>
    cases hs : s.rxState with
    | header =>
      rw [State.takeRxByte_header h hs]
      rcases (s.storeRxByte b).completeHeader_cases with ⟨hc, hl, e⟩ | ⟨hc, hl, e⟩ | ⟨hc, e⟩ <;> rw [e]
      · exact .headerPayload h hs hc hl
      · exact .headerFooter h hs hc hl
      · exact .headerDropped h hs hc
    | payload => rw [State.takeRxByte_payload h hs]; exact .payload h hs
    | footer =>
      rw [State.takeRxByte_footer h hs]
      rcases (s.storeRxByte b).completeFooter_cases with ⟨hc, e⟩ | ⟨hc, e⟩ <;> rw [e]
      · exact .footerAccepted h hs hc
      · exact .footerDropped h hs hc

/-- Whatever the byte completes, it is stored at the position and no other byte of rxbuf changes (R142, R75). -/
theorem Taken.rxbuf_eq (h : Taken s b t) : t.rxbuf = s.rxbuf.write s.rxPos b := by
  cases h <;> rfl

theorem Taken.txbuf_eq (h : Taken s b t) : t.txbuf = s.txbuf := by
  cases h <;> rfl

theorem Taken.params_eq (h : Taken s b t) : t.params = s.params := by
  cases h <;> rfl

/-! ## The receive machine under every step -/

/-- `t` has the receive machine of `s`, but for RXACK's release of the held packet (R152). -/
structure RxFrame (s t : State) : Prop where
  params : t.params = s.params
  rxState : t.rxState = s.rxState
  rxRemain : t.rxRemain = s.rxRemain
  rxPlen : t.rxPlen = s.rxPlen
  rxbuf : t.rxbuf = s.rxbuf
  pktReady : t.pktReady = true → s.pktReady = true

/-- No command writes the receive machine, and RXACK alone touches PKT_READY. -/
theorem exec_rxFrame {i : Instr} (hi : i.isCommand = true) (h : exec i s = .next t) : RxFrame s t := by
  obtain ⟨-, -, -, -, hready, hrx, -, -, -, -, -, -, hparams, -⟩ := elementsChangeOnlyByTheirWriters i s t h
  have hno : ¬ ∃ b, i = .rxByte b := by rintro ⟨b, rfl⟩; cases hi
  have hsame := mt hrx hno
  simp only [not_or, not_not] at hsame
  obtain ⟨hstate, hremain, hplen, hbuf⟩ := hsame
  refine ⟨hparams, hstate, hremain, hplen, hbuf, fun hp => ?_⟩
  by_contra hs
  obtain rfl : i = .rxack := (hready (fun e => hs (e ▸ hp))).resolve_right hno
  cases exec_cases h with
  | plain _ _ e => rw [e] at hp; exact hs hp
  | rxack _ hr => exact hs hr

/-- Everything a step can do to the receive machine: leave it, feed it one byte, or reset it. -/
theorem step_rx_cases (h : step s = .next t) :
    RxFrame s t ∨
    (∃ b line rest, s.halted = false ∧ s.pktReady = false ∧ Taken { s with schedule := rest, rxLine := line } b t) ∨
    ∃ rest, t = { s with schedule := rest }.applyReset := by
  rcases step_cases h with ⟨-, rfl⟩ | ⟨m, rest, -, hm⟩
  · exact .inl ⟨rfl, rfl, rfl, rfl, rfl, id⟩
  · cases hm with
    | command c i hd he =>
      obtain ⟨h1, h2, h3, h4, h5, h6⟩ := exec_rxFrame (isCommand_of_decode hd) he
      exact .inl ⟨h1, h2, h3, h4, h5, h6⟩
    | rxTaken b line _ hh hp e =>
      exact .inr (.inl ⟨b, line, rest, hh, hp, e ▸ State.takeRxByte_cases _ b⟩)
    | txTake e =>
      rw [e, State.takeTx]
      split <;> exact .inl ⟨rfl, rfl, rfl, rfl, rfl, id⟩
    | reset e => exact .inr (.inr ⟨rest, e⟩)
    | illegal _ _ _ e | rxIdle _ e | access _ _ _ e | transportFault e =>
      rw [e]; exact .inl ⟨rfl, rfl, rfl, rfl, rfl, id⟩

/-! ## The counts (R27, R28) -/

theorem RxInv.of_frame (h : RxInv s) (hf : RxFrame s t) : RxInv t :=
  h.congr hf.rxState hf.rxRemain hf.rxPlen hf.params hf.pktReady

theorem toNat_sub_one {r : Word} (h : r - 1 ≠ 0) (hr : 1 ≤ r.toNat) :
    1 ≤ (r - 1).toNat ∧ (r - 1).toNat ≤ r.toNat := by bv_omega

/-- Each transition sets RX_REMAIN to the target of the state it enters, or lowers it by 1 within its state. -/
theorem RxInv.taken (h : RxInv s) (hp : s.pktReady = false) (ht : Taken s b t) : RxInv t := by
  obtain ⟨low, high, plen, -⟩ := h
  have unheld (P : Prop) (ht : s.pktReady = true) : P := by rw [hp] at ht; cases ht
  cases ht with
  | more h0 =>
    obtain ⟨h1, h2⟩ := toNat_sub_one h0 low
    exact ⟨h1, h2.trans high, plen, unheld _⟩
  | headerPayload _ _ hc hl => exact ⟨Nat.pos_of_ne_zero hl, le_refl _, hc.plen, unheld _⟩
  | headerFooter _ _ hc _ =>
    exact ⟨(by decide : 1 ≤ (8 : Word).toNat), (by decide : (8 : Word).toNat ≤ 8), hc.plen, unheld _⟩
  | payload => exact ⟨(by decide : 1 ≤ (8 : Word).toNat), (by decide : (8 : Word).toNat ≤ 8), plen, unheld _⟩
  | headerDropped | footerDropped =>
    exact ⟨(by decide : 1 ≤ (28 : Word).toNat), (by decide : (28 : Word).toNat ≤ 28), plen, unheld _⟩
  | footerAccepted =>
    exact ⟨(by decide : 1 ≤ (28 : Word).toNat), (by decide : (28 : Word).toNat ≤ 28), plen, fun _ => ⟨rfl, rfl⟩⟩

theorem rxInv_applyReset (s : State) : RxInv s.applyReset :=
  ⟨(by decide : 1 ≤ (28 : Word).toNat), (by decide : (28 : Word).toNat ≤ 28), Nat.zero_le _, fun h => nomatch h⟩

end Sys2Proof.Machine

open Sys2Proof Sys2Proof.Machine

/-- Settles O35: the invariant speaks of the receive machine only, and each transition restores it. -/
theorem stepKeepsReceiveInvariant : Obligations.StepKeepsReceiveInvariant := by
  intro s t h hst
  rcases step_rx_cases hst with hf | ⟨b, line, rest, -, hp, ht⟩ | ⟨rest, rfl⟩
  · exact h.of_frame hf
  · have hrx : RxInv { s with schedule := rest, rxLine := line } := h.congr rfl rfl rfl rfl id
    exact hrx.taken hp ht
  · exact rxInv_applyReset _

namespace Sys2Proof.Machine

variable {s t : State} {b : Byte}

/-! ## The packet in rxbuf (R114, R117) -/

theorem State.rxField_write (hb : BufferInv s) {k o : Nat} (v : Byte) (h : k < o ∨ o + 4 ≤ k) :
    State.rxField { s with rxbuf := s.rxbuf.write k v } o = s.rxField o :=
  Memory.read32_write hb.rx v h _

theorem State.rxField_storeRxByte (hb : BufferInv s) {o : Nat} (h : s.rxPos < o ∨ o + 4 ≤ s.rxPos) :
    (s.storeRxByte b).rxField o = s.rxField o :=
  State.rxField_write hb b h

/-- Past HEADER a byte lies behind the header (R141). -/
theorem RxInv.header_le_rxPos (h : RxInv s) (hs : s.rxState ≠ .header) : 28 ≤ s.rxPos := by
  have high := h.high
  cases hst : s.rxState with
  | header => exact absurd hst hs
  | payload => rw [State.rxTarget_of_payload hst] at high; rw [State.rxPos_of_payload hst]; omega
  | footer => rw [State.rxTarget_of_footer hst] at high; rw [State.rxPos_of_footer hst]; omega

/-- A byte stored behind the header leaves it admitted. -/
theorem HeaderAdmitted.storeRxByte (h : HeaderAdmitted s) (hb : BufferInv s) (hpos : 28 ≤ s.rxPos) :
    HeaderAdmitted (s.storeRxByte b) := by
  have field (o : Nat) (ho : o ≤ 24) : (s.storeRxByte b).rxField o = s.rxField o :=
    State.rxField_storeRxByte hb (.inr (by omega))
  constructor
  case magic => rw [field 0 (by decide)]; exact h.magic
  case plen => rw [field 20 (by decide)]; exact h.plen
  case request => rw [field 8 (by decide)]; exact h.request
  case subDevice => rw [field 12 (by decide)]; exact h.subDevice

/-- A header that passes validation is admitted once RX_PLEN is latched from it (R143). -/
theorem HeaderChecks.admitted (h : HeaderChecks s) (h1 : t.rxbuf = s.rxbuf) (h2 : t.params = s.params)
    (h3 : t.rxPlen = s.rxField 20) : HeaderAdmitted t := by
  have field := State.rxField_congr h1 h2
  constructor
  case magic => rw [field, h2]; exact h.magic
  case plen => rw [field, h3]
  case request => rw [field, h2]; exact h.request
  case subDevice => rw [field, h2]; exact h.subDevice

theorem HeldInv.of_frame (h : HeldInv s) (hf : RxFrame s t) : HeldInv t where
  started hs := (h.started (hf.rxState ▸ hs)).congr hf.rxbuf hf.params hf.rxPlen
  held hp := (h.held (hf.pktReady hp)).imp (fun ha => ha.congr hf.rxbuf hf.params hf.rxPlen)
    (fun hc => hc.congr hf.rxbuf hf.params hf.rxPlen)

/-- The header enters its packet by validation, later bytes lie behind it, and the packet is held by validation of its
footer. -/
theorem HeldInv.taken (h : HeldInv s) (hrx : RxInv s) (hb : BufferInv s) (hp : s.pktReady = false)
    (ht : Taken s b t) : HeldInv t := by
  have unheld (P : Prop) (ht : s.pktReady = true) : P := by rw [hp] at ht; cases ht
  have admitted (hs : s.rxState ≠ .header) : HeaderAdmitted (s.storeRxByte b) :=
    (h.started hs).storeRxByte hb (hrx.header_le_rxPos hs)
  cases ht with
  | more => exact ⟨admitted, unheld _⟩
  | headerPayload _ _ hc _ => exact ⟨fun _ => hc.admitted rfl rfl rfl, unheld _⟩
  | headerFooter _ _ hc _ => exact ⟨fun _ => hc.admitted rfl rfl rfl, unheld _⟩
  | headerDropped | footerDropped => exact ⟨absurd rfl, unheld _⟩
  | payload _ hs => exact ⟨fun _ => (admitted (by simp [hs])).congr rfl rfl rfl, unheld _⟩
  | footerAccepted _ hs hc =>
    exact ⟨absurd rfl, fun _ => ⟨(admitted (by simp [hs])).congr rfl rfl rfl, hc.congr rfl rfl rfl⟩⟩

end Sys2Proof.Machine

/-- Settles O37: a header enters by validation, later bytes lie behind it, and a held packet has passed its footer. -/
theorem stepKeepsHeldPacketValid : Obligations.StepKeepsHeldPacketValid := by
  intro s t hrx hb h hst
  rcases step_rx_cases hst with hf | ⟨b, line, rest, -, hp, ht⟩ | ⟨rest, rfl⟩
  · exact h.of_frame hf
  · let u : State := { s with schedule := rest, rxLine := line }
    have hheld : HeldInv u := h.of_frame ⟨rfl, rfl, rfl, rfl, rfl, id⟩
    exact hheld.taken (hrx.congr rfl rfl rfl rfl id) ⟨hb.rx, hb.tx⟩ hp ht
  · exact ⟨absurd rfl, fun h => nomatch h⟩

namespace Sys2Proof.Machine

variable {s t : State} {b : Byte}

/-! ## The buffers (R30, R64) -/

theorem Memory.write32_wf {size : Nat} {m : Memory} (h : Memory.wf size m) {o : Nat} (ho : o + 4 ≤ size)
    (e : ByteOrder) (v : Word) : Memory.wf size (m.write32 e o v) :=
  Memory.writeBytes_wf h _ (by rw [length_bytes32]; exact ho)

/-- An instruction writes txbuf inside its size, or not at all. -/
theorem exec_keeps_txbuf_wf {i : Instr} (h : Memory.wf s.params.txbufSize s.txbuf) (he : exec i s = .next t) :
    Memory.wf t.params.txbufSize t.txbuf := by
  obtain ⟨-, -, -, -, -, -, hbuf, -⟩ := elementsChangeOnlyByTheirWriters i s t he
  rw [(exec_unwritten he).2.1]
  by_cases hsame : t.txbuf = s.txbuf
  · rw [hsame]; exact h
  · rcases hbuf hsame with rfl | rfl
    · cases exec_cases he with
      | plain _ _ e => rw [e]; exact h
      | txwr8 e ho => rw [e]; exact Memory.write_wf h ho _
    · cases exec_cases he with
      | plain _ _ e => rw [e]; exact h
      | txwr32 e ho => rw [e]; exact Memory.write32_wf h ho _ _

theorem move_keeps_txbuf_wf (s t : State) (m : Turn) (h : Memory.wf s.params.txbufSize s.txbuf) (hm : Move s t m) :
    Memory.wf t.params.txbufSize t.txbuf := by
  cases hm with
  | command c i _ he => exact exec_keeps_txbuf_wf (s := s.present c) h he
  | rxTaken b line _ _ _ e =>
    have ht := State.takeRxByte_cases { s with rxLine := line } b
    rw [e, ht.params_eq, ht.txbuf_eq]; exact h
  | txTake e => rw [e, State.takeTx]; split <;> exact h
  | reset e => rw [e]; exact Memory.nil_wf _
  | illegal _ _ _ e | rxIdle _ e | access _ _ _ e | transportFault e => rw [e]; exact h

theorem step_keeps_txbuf_wf (h : Memory.wf s.params.txbufSize s.txbuf) (hst : step s = .next t) :
    Memory.wf t.params.txbufSize t.txbuf :=
  step_keeps (P := fun s => Memory.wf s.params.txbufSize s.txbuf) (fun _ _ => id) move_keeps_txbuf_wf h hst

/-- The position of a byte lies inside rxbuf, so storing the byte keeps rxbuf canonical. -/
theorem step_keeps_rxbuf_wf (hw : s.params.wf) (hrx : RxInv s) (h : Memory.wf s.params.bufSize s.rxbuf)
    (hst : step s = .next t) : Memory.wf t.params.bufSize t.rxbuf := by
  rcases step_rx_cases hst with hf | ⟨b, line, rest, -, -, ht⟩ | ⟨rest, rfl⟩
  · rw [hf.params, hf.rxbuf]; exact h
  · let u : State := { s with schedule := rest, rxLine := line }
    have hu : RxInv u := hrx.congr rfl rfl rfl rfl id
    rw [ht.params_eq, ht.rxbuf_eq]
    exact Memory.write_wf h (State.rxPos_lt (s := u) hw hu) b
  · exact Memory.nil_wf _

end Sys2Proof.Machine

/-- Settles O36: every write to a buffer lies inside it: a command's by its RANGE check, a received byte's by R141. -/
theorem stepKeepsBuffersCanonical : Obligations.StepKeepsBuffersCanonical := fun _ _ hw hrx h hst =>
  ⟨step_keeps_rxbuf_wf hw hrx h.rx hst, step_keeps_txbuf_wf h.tx hst⟩

namespace Sys2Proof.Machine

variable {s t : State} {b : Byte}

/-! ## RX_BYTE (R142, R156, R260) -/

/-- A taken byte writes the receive machine's elements only. -/
theorem Taken.frame (h : Taken s b t) : t = { s with
    rxbuf := t.rxbuf, rxState := t.rxState, rxRemain := t.rxRemain, rxPlen := t.rxPlen, rxExpect := t.rxExpect,
    pktReady := t.pktReady } := by
  cases h <;> rfl

/-- RX_EXPECT moves with the packet that is yielded, by R149's rule, and with no other byte. -/
theorem Taken.rxExpect (h : Taken s b t) (hp : s.pktReady = false) :
    (t.pktReady = true ∧ t.rxExpect = expectAfter s (t.rxField 4)) ∨
      (t.pktReady = false ∧ t.rxExpect = s.rxExpect) := by
  cases h with
  | footerAccepted => exact .inl ⟨rfl, rfl⟩
  | more | headerPayload | headerFooter | headerDropped | payload | footerDropped => exact .inr ⟨hp, rfl⟩

/-- The last byte of a header whose seq field is not the expected one drops it (R114, R146, R156). -/
theorem State.takeRxByte_of_wrong_seq (hb : BufferInv s) (hc : s.connected = true) (hs : s.rxState = .header)
    (h1 : s.rxRemain.toNat = 1) (hseq : s.rxField 4 ≠ s.rxExpect) :
    s.takeRxByte b = { s with rxbuf := s.rxbuf.write 27 b, rxRemain := 28 } := by
  have hpos : s.rxPos = 27 := by rw [State.rxPos_of_header hs, h1]
  have hone : s.rxRemain = 1 := BitVec.eq_of_toNat_eq h1
  have hinvalid : ¬ HeaderChecks (s.storeRxByte b) := fun h =>
    hseq ((State.rxField_storeRxByte hb (.inr (by omega))).symm.trans (h.seq hc))
  rw [State.takeRxByte_header (by rw [hone]; rfl) hs, State.completeHeader_of_invalid hinvalid, State.storeRxByte, hpos,
    ← hs]

/-- Past HEADER a byte does the same to a machine that differs in CONNECTED and RX_EXPECT only (R260). -/
theorem State.takeRxByte_noninterference (hs : s.rxState ≠ .header) (c : Bool) (e : Word) :
    ∃ x, State.takeRxByte { s with connected := c, rxExpect := e } b =
      { s.takeRxByte b with connected := c, rxExpect := x } := by
  let u : State := { s with connected := c, rxExpect := e }
  change ∃ x, u.takeRxByte b = { s.takeRxByte b with connected := c, rxExpect := x }
  by_cases h : s.rxRemain - 1 = 0
  case neg =>
    rw [State.takeRxByte_of_more h, State.takeRxByte_of_more (s := u) h]
    exact ⟨e, rfl⟩
  case pos =>
    cases hst : s.rxState with
    | header => exact absurd hst hs
    | payload =>
      rw [State.takeRxByte_payload h hst, State.takeRxByte_payload (s := u) h hst]
      exact ⟨e, rfl⟩
    | footer =>
      rw [State.takeRxByte_footer h hst, State.takeRxByte_footer (s := u) h hst]
      by_cases hc : FooterChecks (s.storeRxByte b)
      · have hu : FooterChecks (u.storeRxByte b) := hc.congr rfl rfl rfl
        rw [State.completeFooter_of_valid hc, State.completeFooter_of_valid hu]
        exact ⟨_, rfl⟩
      · have hu : ¬ FooterChecks (u.storeRxByte b) := fun h => hc (h.congr rfl rfl rfl)
        rw [State.completeFooter_of_invalid hc, State.completeFooter_of_invalid hu]
        exact ⟨e, rfl⟩

end Sys2Proof.Machine

/-- Settles O24: whatever the byte completes, it is written at the position first. -/
theorem rxByteStoresOneByte : Obligations.RxByteStoresOneByte := by
  intro s b _ hb hh hp
  have ht := s.takeRxByte_cases b
  refine ⟨s.takeRxByte b, exec_rxByte_of_enabled hh hp, ht.frame, ?_, fun a ha => ?_⟩
  · rw [ht.rxbuf_eq, Memory.read_write hb.rx, if_pos rfl]
  · rw [ht.rxbuf_eq, Memory.read_write hb.rx, if_neg ha]

/-- Settles O31: header validation compares seq with RX_EXPECT while connected, and only a yielded packet moves it. -/
theorem acceptedPacketsAreInSequence : Obligations.AcceptedPacketsAreInSequence := by
  intro s t b _ hb h
  cases exec_cases h with
  | plain _ _ _ hc => cases hc
  | rxDisabled _ he e =>
    obtain rfl := e
    refine ⟨fun _ hh hp => ?_, fun hp hq => ?_, fun _ => rfl⟩
    · rw [State.rxEnabled, hh, hp] at he; cases he
    · exact nomatch hp.symm.trans hq
  | rxTaken _ he e =>
    obtain rfl := e
    have hp : s.pktReady = false := by
      rw [State.rxEnabled, Bool.and_eq_true, Bool.not_eq_true'] at he
      exact Bool.not_eq_true' .. ▸ he.2
    refine ⟨fun hc _ _ hs h1 hseq => State.takeRxByte_of_wrong_seq hb hc hs h1 hseq, fun _ hq => ?_, fun hq => ?_⟩
    · rcases (s.takeRxByte_cases b).rxExpect hp with ⟨-, e⟩ | ⟨hn, -⟩
      · exact e
      · exact nomatch hn.symm.trans hq
    · rcases (s.takeRxByte_cases b).rxExpect hp with ⟨hy, -⟩ | ⟨-, e⟩
      · exact nomatch hy.symm.trans (hq.trans hp)
      · exact e

/-- Settles O32: past HEADER no transition reads CONNECTED, and RX_EXPECT decides RX_EXPECT only. -/
theorem headerIsNotValidatedAgain : Obligations.HeaderIsNotValidatedAgain := by
  intro s t b c e hs h
  refine ⟨_, rfl, ?_⟩
  obtain rfl := Host.Outcome.next.inj h
  by_cases he : s.rxEnabled = true
  · obtain ⟨x, hx⟩ := State.takeRxByte_noninterference (b := b) hs c e
    rw [if_pos he, if_pos (show State.rxEnabled { s with connected := c, rxExpect := e } = true from he), hx]
    exact ⟨rfl, rfl, rfl, rfl, rfl⟩
  · rw [if_neg he, if_neg (show ¬ State.rxEnabled { s with connected := c, rxExpect := e } = true from he)]
    exact ⟨rfl, rfl, rfl, rfl, rfl⟩

end

section
/-! PROOFS. The buffers' commands (spec/40_codec.md R121, R122, spec/41_receive.md R152 to R154) and the checksum
(R110 to R113). -/

namespace Sys2Proof.Machine

variable {s : State}

/-! ## TXWR8 and TXWR32 (R121, R122) -/

theorem exec_txwr8_of_inside (hh : s.halted = false) (h : s.offset + 1 ≤ s.params.txbufSize) :
    exec .txwr8 s = .next (State.finish { s with txbuf := s.txbuf.write s.offset s.data8 } .ok 0) :=
  congrArg Host.Outcome.next ((State.unlessHalted_of_running hh _).trans (if_neg (Nat.not_lt.mpr h)))

theorem exec_txwr8_of_outside (hh : s.halted = false) (h : s.params.txbufSize < s.offset + 1) :
    exec .txwr8 s = .next (s.finish .range 0) :=
  congrArg Host.Outcome.next ((State.unlessHalted_of_running hh _).trans (if_pos h))

theorem exec_txwr32_of_inside (hh : s.halted = false) (h : s.offset + 4 ≤ s.params.txbufSize) :
    exec .txwr32 s =
      .next (State.finish { s with txbuf := s.txbuf.write32 s.params.byteOrder s.offset s.data32 } .ok 0) :=
  congrArg Host.Outcome.next ((State.unlessHalted_of_running hh _).trans (if_neg (Nat.not_lt.mpr h)))

theorem exec_txwr32_of_outside (hh : s.halted = false) (h : s.params.txbufSize < s.offset + 4) :
    exec .txwr32 s = .next (s.finish .range 0) :=
  congrArg Host.Outcome.next ((State.unlessHalted_of_running hh _).trans (if_pos h))

/-- Byte `k` of a word, by its weight (R61). -/
theorem toNat_getD_bytes32_eq_weight (e : ByteOrder) (v : Word) {k : Nat} (hk : k < 4) :
    ((bytes32 e v).getD k 0).toNat = v.toNat / byteWeight e k % 2 ^ 8 := by
  rw [toNat_getD_bytes32 e v hk]
  cases e <;> rfl

/-- The four bytes that a word store leaves, and the others (R122). -/
theorem Memory.read_write32 {size : Nat} {m : Memory} (h : Memory.wf size m) (e : ByteOrder) (v : Word) {o : Nat}
    (ho : o + 4 ≤ size) (k : Nat) :
    (m.write32 e o v).read k = if o ≤ k ∧ k < o + 4 then (bytes32 e v).getD (k - o) 0 else m.read k := by
  rw [Memory.write32, Memory.read_writeBytes h _ (by rw [length_bytes32]; exact ho), length_bytes32]
  rfl

/-- A word read is the weighted sum of its bytes (R62). -/
theorem toNat_word32_eq_weights (e : ByteOrder) (a b c d : Byte) :
    (word32 e a b c d).toNat =
      byteWeight e 0 * a.toNat + byteWeight e 1 * b.toNat + byteWeight e 2 * c.toNat + byteWeight e 3 * d.toNat := by
  rw [toNat_word32]
  cases e <;> simp only [byteWeight] <;> omega

theorem exec_rxack_of_held (hh : s.halted = false) (hp : s.pktReady = true) :
    exec .rxack s = .next (State.finish { s with pktReady := false } .ok 0) :=
  congrArg Host.Outcome.next ((State.unlessHalted_of_running hh _).trans (if_pos hp))

theorem exec_rxack_of_empty (hh : s.halted = false) (hp : s.pktReady = false) :
    exec .rxack s = .next (s.finish .noPacket 0) :=
  congrArg Host.Outcome.next ((State.unlessHalted_of_running hh _).trans (if_neg (by rw [hp]; decide)))

end Sys2Proof.Machine

open Sys2Proof Sys2Proof.Machine

/-- Settles O20: a store inside txbuf changes the bytes it names, and one that passes its end has no effect. -/
theorem txWritesStoreTheirBytes : Obligations.TxWritesStoreTheirBytes := by
  intro s hb hh
  refine ⟨fun hin => ?byte, exec_txwr8_of_outside hh, fun hin => ?word, exec_txwr32_of_outside hh⟩
  case byte =>
    refine ⟨_, exec_txwr8_of_inside hh hin, Memory.write_wf hb.tx hin _, ?_, fun a ha => ?_⟩
    · have hread := Memory.read_write hb.tx s.offset s.data8 s.offset
      rw [if_pos rfl] at hread
      exact (congrArg BitVec.toNat hread).trans (by simp [State.data8, BitVec.extractLsb'_toNat])
    · exact (Memory.read_write hb.tx _ _ a).trans (if_neg ha)
  case word =>
    have hread := Memory.read_write32 hb.tx s.params.byteOrder s.data32 (o := s.offset) hin
    refine ⟨_, exec_txwr32_of_inside hh hin, Memory.write32_wf hb.tx hin _ _, fun k hk => ?_, fun a ha => ?_⟩
    · rw [← toNat_getD_bytes32_eq_weight _ _ hk]
      refine congrArg BitVec.toNat ((hread _).trans ?_)
      rw [if_pos (by change s.offset ≤ s.offset + k ∧ s.offset + k < s.offset + 4; omega)]
      exact congrArg (List.getD _ · 0) (Nat.add_sub_cancel_left ..)
    · exact (hread a).trans (if_neg (by change a < s.offset ∨ s.offset + 4 ≤ a at ha; omega))

/-- Settles O22: a read inside rxbuf shows its bytes, and one that passes its end is RANGE. -/
theorem rxReadsReturnTheBuffersBytes : Obligations.RxReadsReturnTheBuffersBytes := by
  rintro s _ rfl
  refine ⟨fun hin => ⟨_, exec_rxrd8_of_inside hin, ?_⟩, exec_rxrd8_of_outside,
    fun hin => ⟨_, exec_rxrd32_of_inside hin, toNat_word32_eq_weights ..⟩, exec_rxrd32_of_outside⟩
  rw [BitVec.toNat_setWidth]
  exact Nat.mod_eq_of_lt (Nat.lt_of_lt_of_le (BitVec.isLt _) (by decide))

/-- Settles O21: PKT_READY decides what RXACK does. -/
theorem rxackReleasesTheHeldPacket : Obligations.RxackReleasesTheHeldPacket := fun _ hh =>
  ⟨exec_rxack_of_held hh, exec_rxack_of_empty hh⟩

namespace Sys2Proof.Machine

variable {s : State}

/-! ## One changed byte (R113) -/

/-- A write inside a byte range changes one byte of it. -/
theorem Memory.bytes_write {size : Nat} {m : Memory} (h : Memory.wf size m) (k : Nat) (v : Byte) (n : Nat) :
    (m.write k v).bytes 0 n = (m.bytes 0 n).set k v := by
  apply List.ext_getElem (by simp)
  intro i h1 h2
  rw [Memory.getElem_bytes, Memory.read_write h, List.getElem_set, Memory.getElem_bytes, Nat.zero_add]
  exact if_congr eq_comm rfl rfl

/-- The byte sum after one byte changed: the new byte for the old one. -/
theorem sum_set_add (bs : List Byte) {k : Nat} (hk : k < bs.length) (v : Byte) :
    ((bs.set k v).map BitVec.toNat).sum + bs[k].toNat = (bs.map BitVec.toNat).sum + v.toNat := by
  induction bs generalizing k with
  | nil => simp at hk
  | cons b bs ih =>
    cases k with
    | zero => simp; omega
    | succ k =>
      have hrest := ih (Nat.lt_of_succ_lt_succ hk)
      simp only [List.set_cons_succ, List.map_cons, List.sum_cons, List.getElem_cons_succ]
      omega

end Sys2Proof.Machine

/-- Settles O34: a byte's change moves the byte sum by less than 2^32 and leaves the stored checksum. -/
theorem singleByteChangeFailsTheFooter : Obligations.SingleByteChangeFailsTheFooter := by
  intro s k v hb _ hk hv hvalid
  rw [← Bool.not_eq_true, State.footerValid_iff]
  rw [State.footerValid_iff] at hvalid
  intro hvalid'
  have hsum := hvalid.sum
  have hsum' := hvalid'.sum
  have hlen : k < (s.rxbuf.bytes 0 (28 + s.rxPlen.toNat)).length := by rw [Memory.length_bytes]; exact hk
  have hset := sum_set_add _ hlen v
  rw [Memory.getElem_bytes, Nat.zero_add] at hset
  rw [State.rxField_write hb v (.inl hk)] at hsum'
  simp only [Memory.bytes_write hb.rx] at hsum'
  have hne : v.toNat ≠ (s.rxbuf.read k).toNat := fun e => hv (BitVec.eq_of_toNat_eq e)
  have := v.isLt
  have := (s.rxbuf.read k).isLt
  omega

end

section
/-! PROOFS. Whole packets: the assembler's (spec/30_encoding.md R97), what a listening receiver makes of a well-framed
one (spec/41_receive.md R142 to R149), of TXBUILD's (spec/40_codec.md R123) and of its own (R147). -/

namespace Sys2Proof.Machine

/-! ## The assembler's inbound packet (R97) -/

/-- The header fields of `rxpkt`, in the order of R81. -/
def inboundFields (p : Params) (seq req sub status ts : Word) (n : Nat) : List Word :=
  [p.magicH2dSom, seq, req, sub, status, BitVec.ofNat 32 n, ts]

theorem inboundPacket_eq_wirePacket (p : Params) (seq req sub status ts : Word) (payload : List Byte) :
    inboundPacket p seq req sub status ts payload =
      wirePacket p.byteOrder (inboundFields p seq req sub status ts payload.length) payload p.magicH2dEom := by
  simp [inboundPacket, wirePacket, inboundFields]

/-! ## The bytes of a packet, taken in order (R142) -/

/-- `s` with the given receive machine and the moves and bytes still to come: what a run of the RX port changes before a
packet is yielded. -/
def State.receiving (s : State) (m : Memory) (q : RxState) (remain plen : Word) (line : List Byte) (moves : List Turn) :
    State :=
  { s with rxbuf := m, rxState := q, rxRemain := remain, rxPlen := plen, rxLine := line, schedule := moves }

theorem Memory.writeBytes_take_add (m : Memory) (pkt : List Byte) {n k : Nat} (hn : n ≤ pkt.length) :
    (m.writeBytes 0 (pkt.take n)).writeBytes n ((pkt.drop n).take k) = m.writeBytes 0 (pkt.take (n + k)) := by
  rw [List.take_add, Memory.writeBytes_append, List.length_take, Nat.min_eq_left hn, Nat.zero_add]

/-- The `k` bytes of a packet from its byte `n` on complete the current state, which expects them. -/
theorem run_rx_segment {s : State} {m : Memory} {pkt line : List Byte} {rest : List Turn} {n k : Nat}
    (hbuf : s.rxbuf = m.writeBytes 0 (pkt.take n)) (hpos : s.rxPos = n) (hlen : n + k ≤ pkt.length)
    (hk : s.rxRemain.toNat = k) (hlow : 1 ≤ k) (hhigh : k ≤ s.rxTarget) (hh : s.halted = false)
    (hp : s.pktReady = false) (hl : s.rxLine = pkt.drop n ++ line) (hs : s.schedule = List.replicate k .rx ++ rest) :
    Sys2Proof.core.run k s = .next (State.completeState
      (s.receiving (m.writeBytes 0 (pkt.take (n + k))) s.rxState 0 s.rxPlen (pkt.drop (n + k) ++ line) rest)) := by
  have hbs : ((pkt.drop n).take k).length = k := by rw [List.length_take, List.length_drop]; omega
  have hline : s.rxLine = (pkt.drop n).take k ++ (pkt.drop (n + k) ++ line) := by
    rw [hl, ← List.drop_drop, ← List.append_assoc, List.take_append_drop]
  have hrun := run_rx_complete ((pkt.drop n).take k) (pkt.drop (n + k) ++ line) rest (hk ▸ hlow) (hk ▸ hhigh) hh hp
    (hbs.trans hk.symm) hline (by rw [hbs]; exact hs)
  rwa [hbs, hbuf, hpos, Memory.writeBytes_take_add m pkt (by omega)] at hrun

theorem State.completeState_of_header {s : State} (h : s.rxState = .header) :
    s.completeState = s.completeHeader := by
  rw [State.completeState, h]

theorem State.completeState_of_payload {s : State} (h : s.rxState = .payload) :
    s.completeState = s.awaitFooter := by
  rw [State.completeState, h]
  rfl

theorem State.completeState_of_footer {s : State} (h : s.rxState = .footer) :
    s.completeState = s.completeFooter := by
  rw [State.completeState, h]

/-- The header of a packet offered to a listening receiver. -/
theorem run_rx_header {s : State} {pkt line : List Byte} {rest : List Turn} (hs : Listening s) (hlen : 28 ≤ pkt.length)
    (hl : s.rxLine = pkt ++ line) (hsch : s.schedule = List.replicate 28 .rx ++ rest) :
    Sys2Proof.core.run 28 s = .next (State.completeHeader
      (s.receiving (s.rxbuf.writeBytes 0 (pkt.take 28)) .header 0 s.rxPlen (pkt.drop 28 ++ line) rest)) := by
  obtain ⟨hstate, hremain, hh, hp⟩ := hs
  have hpos : s.rxPos = 0 := by rw [State.rxPos_of_header hstate, hremain]; rfl
  have htarget : s.rxTarget = 28 := by rw [State.rxTarget, hstate]
  have hrun := run_rx_segment (m := s.rxbuf) (pkt := pkt) (n := 0) (k := 28) rfl hpos hlen (by rw [hremain]; rfl)
    (by decide) htarget.ge hh hp hl hsch
  rw [Nat.zero_add, hstate] at hrun
  exact hrun.trans (congrArg _ (State.completeState_of_header rfl))

/-! ## The checks on the bytes of a packet (R114, R117) -/

section
variable {s : State} {pkt : List Byte} {som eom : Word}

/-- A well-framed packet fits rxbuf. -/
theorem WellFramed.length_le (h : WellFramed s.params som eom pkt) (hw : s.params.wf) :
    pkt.length ≤ s.params.bufSize := by
  have hfits := h.fits
  have hmin := hw.2.2.2.2.1
  rw [Params.maxPayload] at hfits
  simp only [Config.hdrSize, Config.ftrSize] at hfits hmin
  have := h.length
  omega

theorem WellFramed.headerChecks {u : State} (h : WellFramed s.params s.params.magicH2dSom eom pkt)
    (ha : Admissible s pkt) (hp : u.params = s.params) (hc : u.connected = s.connected) (he : u.rxExpect = s.rxExpect)
    (hfield : ∀ o ≤ 24, u.rxField o = packetField s.params.byteOrder pkt o) : HeaderChecks u := by
  constructor
  case magic => rw [hfield 0 (by decide), hp]; exact h.startMagic
  case plen => rw [hfield 20 (by decide), hp]; exact h.fits
  case request => rw [hfield 8 (by decide), hp]; exact ha.request
  case seq => rw [hfield 4 (by decide), hc, he]; exact ha.seq
  case subDevice => rw [hfield 12 (by decide), hp]; exact ha.subDevice

theorem WellFramed.footerChecks {u : State} (h : WellFramed s.params som s.params.magicH2dEom pkt)
    (hp : u.params = s.params) (hplen : u.rxPlen.toNat = packetPlen s.params.byteOrder pkt)
    (hbytes : ∀ q ≤ pkt.length, u.rxbuf.bytes 0 q = pkt.take q)
    (hfield : ∀ o, o + 4 ≤ pkt.length → u.rxField o = packetField s.params.byteOrder pkt o) : FooterChecks u := by
  have hlen := h.length
  constructor
  case sum => rw [hplen, hbytes _ (by omega), hfield _ (by omega)]; exact h.sum
  case endMagic => rw [hplen, hfield _ (by omega), hp]; exact h.endMagic

end

/-! ## A well-framed admissible packet -/

section
variable {s : State} {pkt line : List Byte} {rest : List Turn} (hw : s.params.wf) (hb : BufferInv s) (hs : Listening s)
  (hf : WellFramed s.params s.params.magicH2dSom s.params.magicH2dEom pkt) (ha : Admissible s pkt)
  (hl : s.rxLine = pkt ++ line)
include hw hb hs hf ha hl

/-- The header and payload bytes bring the receiver to FOOTER, whether there is a payload or not (R143, R144). -/
theorem run_rx_body {n : Nat} (hn : n = packetPlen s.params.byteOrder pkt)
    (hsch : s.schedule = List.replicate (28 + n) .rx ++ rest) :
    Sys2Proof.core.run (28 + n) s = .next (s.receiving (s.rxbuf.writeBytes 0 (pkt.take (28 + n))) .footer 8
      (packetField s.params.byteOrder pkt 20) (pkt.drop (28 + n) ++ line) rest) := by
  have hlen := hf.length
  have hsize := hf.length_le hw
  have hplen : (packetField s.params.byteOrder pkt 20).toNat = n := hn.symm
  rw [List.replicate_add, List.append_assoc] at hsch
  rw [run_add (run_rx_header hs (by omega) hl hsch)]
  generalize hu : s.receiving (s.rxbuf.writeBytes 0 (pkt.take 28)) .header 0 s.rxPlen (pkt.drop 28 ++ line)
    (List.replicate n .rx ++ rest) = u
  have hfield (o : Nat) (ho : o ≤ 24) : u.rxField o = packetField s.params.byteOrder pkt o := by
    rw [← hu]
    exact read32_stored hb.rx hsize (by omega) (by omega) _
  have hchecks : HeaderChecks u :=
    hf.headerChecks ha (by rw [← hu]; rfl) (by rw [← hu]; rfl) (by rw [← hu]; rfl) hfield
  have h20 := hfield 20 (by decide)
  by_cases h0 : n = 0
  · subst h0
    have hzero : packetField s.params.byteOrder pkt 20 = 0 := BitVec.eq_of_toNat_eq hplen
    rw [State.completeHeader_of_noPayload hchecks (by rw [h20, hplen]), hzero, ← hu]
    rfl
  · rw [State.completeHeader_of_payload hchecks (by rw [h20, hplen]; omega), h20, ← hu]
    have hrun := run_rx_segment (m := s.rxbuf) (pkt := pkt) (line := line) (rest := rest) (n := 28) (k := n)
      (s := s.receiving (s.rxbuf.writeBytes 0 (pkt.take 28)) .payload (packetField s.params.byteOrder pkt 20)
        (packetField s.params.byteOrder pkt 20) (pkt.drop 28 ++ line) (List.replicate n .rx ++ rest))
      rfl ((State.rxPos_of_payload rfl).trans (Nat.add_sub_cancel ..)) (by omega) hplen (by omega) hplen.ge hs.running
      hs.free rfl rfl
    exact hrun.trans (congrArg _ (State.completeState_of_payload rfl))

/-- Then the footer's bytes yield it (R145, R148, R149). -/
theorem run_rx_packet (hsch : s.schedule = List.replicate pkt.length .rx ++ rest) :
    Sys2Proof.core.run pkt.length s = .next { s with
      rxbuf := s.rxbuf.writeBytes 0 pkt, rxPlen := packetField s.params.byteOrder pkt 20,
      rxExpect := expectAfter s (packetField s.params.byteOrder pkt 4), pktReady := true, rxLine := line,
      schedule := rest } := by
  have hlen := hf.length
  have hsize := hf.length_le hw
  obtain ⟨n, hn⟩ : ∃ n, n = packetPlen s.params.byteOrder pkt := ⟨_, rfl⟩
  have hsplit : pkt.length = 28 + n + 8 := by omega
  rw [hsplit, List.replicate_add, List.append_assoc] at hsch
  rw [hsplit, run_add (run_rx_body hw hb hs hf ha hl hn hsch)]
  have hrun := run_rx_segment (m := s.rxbuf) (pkt := pkt) (line := line) (rest := rest) (n := 28 + n) (k := 8)
    (s := s.receiving (s.rxbuf.writeBytes 0 (pkt.take (28 + n))) .footer 8 (packetField s.params.byteOrder pkt 20)
      (pkt.drop (28 + n) ++ line) (List.replicate 8 .rx ++ rest))
    rfl ((State.rxPos_of_footer rfl).trans (by change 28 + packetPlen s.params.byteOrder pkt + 8 - 8 = _; omega))
    hsplit.ge rfl (by decide) (le_refl 8) hs.running hs.free rfl rfl
  rw [← hsplit, List.take_length, List.drop_length, List.nil_append, State.completeState_of_footer rfl] at hrun
  generalize hu : State.receiving (s.receiving _ _ _ _ _ _) _ _ _ _ _ _ = u at hrun
  have hbuf : u.rxbuf = s.rxbuf.writeBytes 0 (pkt.take pkt.length) := by rw [← hu, List.take_length]; rfl
  have hfield (o : Nat) (ho : o + 4 ≤ pkt.length) : u.rxField o = packetField s.params.byteOrder pkt o := by
    rw [State.rxField, hbuf, ← hu]
    exact read32_stored hb.rx hsize ho (le_refl _) _
  have hchecks : FooterChecks u :=
    hf.footerChecks (by rw [← hu]; rfl) (by rw [← hu]; rfl)
      (fun q hq => by rw [hbuf]; exact bytes_stored hb.rx hsize hq (le_refl _)) hfield
  rw [hrun, State.completeFooter_of_valid hchecks, hfield 4 (by omega), ← hu]
  change Host.Outcome.next { s with
      rxbuf := s.rxbuf.writeBytes 0 pkt, rxState := .header, rxRemain := 28,
      rxPlen := packetField s.params.byteOrder pkt 20,
      rxExpect := expectAfter s (packetField s.params.byteOrder pkt 4), pktReady := true, rxLine := line,
      schedule := rest } = _
  rw [← hs.state, ← hs.remain]
  rfl

end

end Sys2Proof.Machine

open Sys2Proof Sys2Proof.Machine

/-- Settles O26: the header's, the payload's and the footer's bytes each complete their state; every check passes. -/
theorem wholePacketIsReceived : Obligations.WholePacketIsReceived := by
  intro s pkt line rest hw hb hs hf ha hl hsch
  have hread := Memory.read_writeBytes hb.rx pkt (o := 0) (by rw [Nat.zero_add]; exact hf.length_le hw)
  refine ⟨_, run_rx_packet hw hb hs hf ha hl hsch, fun k hk => ?_, fun k hk => ?_⟩
  · rw [hread, if_pos (by omega)]; rfl
  · rw [hread, if_neg (by omega)]

/-- Settles O27: the assembler lays the packet out as a wire packet of its fields. -/
theorem rxpktWritesAWellFramedPacket : Obligations.RxpktWritesAWellFramedPacket := by
  intro p seq req sub status ts payload hfit hsize
  let fields := inboundFields p seq req sub status ts payload.length
  rw [inboundPacket_eq_wirePacket]
  have hlen : (BitVec.ofNat 32 payload.length).toNat = payload.length := by
    simp only [Params.maxPayload, Config.hdrSize, Config.ftrSize] at hfit
    exact (BitVec.toNat_ofNat ..).trans (Nat.mod_eq_of_lt (by omega))
  have field (k : Nat) (hk : k < 7) := packetField_wirePacket p.byteOrder fields payload p.magicH2dEom (k := k) hk
  refine ⟨wellFramed_wirePacket (fields := fields) p.magicH2dEom rfl hlen hfit, ?_, field 1 (by decide),
    field 2 (by decide), field 3 (by decide), field 4 (by decide), field 6 (by decide),
    fun k hk => payload_wirePacket _ fields _ _ hk⟩
  exact (congrArg BitVec.toNat (field 5 (by decide))).trans hlen

/-- Settles O29: TXBUILD's packet is well-framed and admissible for that receiver, which so receives it whole. -/
theorem hostReceiverYieldsWhatTxbuildSent : Obligations.HostReceiverYieldsWhatTxbuildSent := by
  intro s r line rest hh hfit hroom horder hw hb hr hsom heom hmin hmax hsub hseq
  obtain ⟨pkt, hexec, hf, h4, h8, h12, h16, h20, h24, hpay⟩ := (txbuildEmitsOnePacket s _ rfl hh).1 hfit
  rw [← horder] at h4 h8 h12 h16 h20 h24
  have hplen : packetPlen r.params.byteOrder pkt = s.arg3.toNat := congrArg BitVec.toNat h20
  have hf' : WellFramed r.params r.params.magicH2dSom r.params.magicH2dEom pkt := by
    obtain ⟨hlen, -, hstart, hsum, hend⟩ := hf
    rw [← horder] at hlen hstart hsum hend
    exact ⟨hlen, hplen ▸ hroom, hstart.trans hsom.symm, hsum, hend.trans heom.symm⟩
  let r' : State := { r with rxLine := pkt ++ line, schedule := List.replicate pkt.length .rx ++ rest }
  have ha : Admissible r' pkt := by
    constructor
    case request => exact h8.symm ▸ ⟨hmin, hmax⟩
    case seq => exact fun hc => h4.trans (hseq hc).symm
    case subDevice => exact h12.symm ▸ hsub
  obtain ⟨m, hrun, hread, -⟩ := wholePacketIsReceived r' pkt line rest hw ⟨hb.rx, hb.tx⟩
    ⟨hr.state, hr.remain, hr.running, hr.free⟩ hf' ha rfl rfl
  have hlen : pkt.length = 36 + s.arg3.toNat := hplen ▸ hf'.length
  have field (o : Nat) (ho : o ≤ 24) :
      m.read32 r.params.byteOrder o = packetField r.params.byteOrder pkt o := by
    rw [packetField_eq, Memory.read32, hread _ (by omega), hread _ (by omega), hread _ (by omega), hread _ (by omega)]
  refine ⟨pkt, _, _, hexec, rfl, hrun, rfl, h20, (field 4 (by decide)).trans h4, (field 8 (by decide)).trans h8,
    (field 12 (by decide)).trans h12, (field 16 (by decide)).trans h16, (field 20 (by decide)).trans h20,
    (field 24 (by decide)).trans h24, fun k hk => ?_⟩
  exact (hread _ (by omega)).trans (hpay k hk)

/-- Settles O30: the two start magics differ, so the header fails c1 of R114. -/
theorem ownPacketIsDropped : Obligations.OwnPacketIsDropped := by
  intro s r line rest hh hfit hparams hw hb hr
  obtain ⟨pkt, hexec, hf, -⟩ := (txbuildEmitsOnePacket s _ rfl hh).1 hfit
  have hlen := hf.length
  have hsize : pkt.length ≤ r.params.bufSize := hparams ▸ hf.length_le hw
  let r' : State := { r with rxLine := pkt ++ line, schedule := List.replicate 28 .rx ++ rest }
  have hrun := run_rx_header (s := r') (pkt := pkt) (line := line) (rest := rest)
    ⟨hr.state, hr.remain, hr.running, hr.free⟩ (by omega) rfl rfl
  rw [State.completeHeader_of_invalid] at hrun
  · refine ⟨pkt, _, r.rxbuf.writeBytes 0 (pkt.take 28), hexec, rfl, hrun.trans ?_⟩
    change Host.Outcome.next { r with
      rxbuf := r.rxbuf.writeBytes 0 (pkt.take 28), rxState := .header, rxRemain := 28,
      rxLine := pkt.drop 28 ++ line, schedule := rest } = _
    rw [← hr.state, ← hr.remain]
    rfl
  · intro hc
    have hmagic := hc.magic
    have hfield := read32_stored (n := 28) (o := 0) hb.rx hsize (by decide) (by omega) r.params.byteOrder
    have hsom := hfield.symm.trans hmagic
    change packetField r.params.byteOrder pkt 0 = r.params.magicH2dSom at hsom
    rw [hparams, hf.startMagic] at hsom
    exact hw.1 hsom

end

section
/-! PROOFS. The window pools under every step (spec/10_state.md R35), the windows as the controller's accesses see them
(spec/42_window.md R186, spec/70_reset_and_hazards.md R257, R258) and the order of register writes (R178). -/

namespace Sys2Proof.Machine

variable {s t : State}

/-! ## The uniqueness of live slots (R35) -/

theorem UniqueInv.of_free {s : State} (h1 : s.hpSlots = List.replicate s.params.nHp HpSlot.free)
    (h2 : s.sasSlots = List.replicate s.params.nSas SasSlot.free) : UniqueInv s := by
  constructor
  case hp =>
    intro i hi _ _ hr
    rw [State.hpSlot, h1, List.getD_replicate _ hi] at hr
    exact absurd rfl hr
  case sas =>
    intro i hi _ _ hr
    rw [State.sasSlot, h2, List.getD_replicate _ hi] at hr
    exact absurd rfl hr

theorem uniqueInv_reset : UniqueInv State.reset := .of_free rfl rfl

theorem UniqueInv.finish (h : UniqueInv s) (c : Status) (v : Word) : UniqueInv (s.finish c v) := h.congr rfl rfl rfl

/-- Counting a live HP slot's references keeps what it holds. -/
theorem UniqueInv.setHpRef (h : UniqueInv s) {i : Nat} (hi : i < s.params.nHp) (hlive : (s.hpSlot i).ref ≠ 0)
    (r : Word) : UniqueInv (s.setHpSlot i { s.hpSlot i with ref := r }) :=
  h.setHp i _ fun _ j hj hne hr hb ht => hne (h.hp j hj i hi hr hlive hb ht)

/-- Counting a live SAS slot's references keeps what it holds. -/
theorem UniqueInv.setSasRef (h : UniqueInv s) {i : Nat} (hi : i < s.params.nSas) (hlive : (s.sasSlot i).ref ≠ 0)
    (r : Word) : UniqueInv (s.setSasSlot i { s.sasSlot i with ref := r }) :=
  h.setSas i _ fun _ j hj hne hr hb => hne (h.sas j hj i hi hr hlive hb)

/-- An HP slot is allocated only for a base and tag that no live slot holds (R172, R173). -/
theorem UniqueInv.acquireHp (h : UniqueInv s) (a : Word64) (t : Tag) : UniqueInv (s.acquireHp a t) := by
  rcases s.acquireHp_cases a t rfl with
    ⟨i, hi, hold, -, ⟨-, e⟩ | ⟨-, e⟩⟩ | ⟨hnone, ⟨i, -, -, -, e⟩ | ⟨-, e⟩⟩ <;> rw [e]
  case inl.inl => exact h.finish _ _
  case inl.inr => exact (h.setHpRef hi hold.1 _).finish _ _
  case inr.inl =>
    rw [State.writeWins_programHp]
    have key := h.setHp i ⟨alignTo s.params.wHp a, t, 1⟩ fun _ j hj _ hr hb ht =>
      hnone j hj ⟨hr, by rw [hb, toNat_alignTo], ht⟩
    exact key.congr rfl rfl rfl
  case inr.inr => exact h.finish _ _

/-- A SAS slot is allocated only for a base that no live slot holds (R172, R173). -/
theorem UniqueInv.acquireSas (h : UniqueInv s) (a : Word) : UniqueInv (s.acquireSas a) := by
  rcases s.acquireSas_cases a rfl with
    ⟨i, hi, hold, -, ⟨-, e⟩ | ⟨-, e⟩⟩ | ⟨hnone, ⟨i, -, -, -, e⟩ | ⟨-, e⟩⟩ <;> rw [e]
  case inl.inl => exact h.finish _ _
  case inl.inr => exact (h.setSasRef hi hold.1 _).finish _ _
  case inr.inl =>
    rw [State.writeWins_programSas]
    have key := h.setSas i ⟨alignTo s.params.wSas a, 1⟩ fun _ j hj _ hr hb =>
      hnone j hj ⟨hr, by rw [hb, toNat_alignTo]⟩
    exact key.congr rfl rfl rfl
  case inr.inr => exact h.finish _ _

theorem UniqueInv.releaseHp (h : UniqueInv s) (p : Word) : UniqueInv (s.releaseHp p) := by
  rcases s.releaseHp_cases p with ⟨-, e⟩ | ⟨i, hslot, ⟨-, e⟩ | ⟨-, e⟩ | ⟨h0, -, e⟩⟩ <;> rw [e]
  · exact h.finish _ _
  · exact h.finish _ _
  · rw [State.writeWins_clearHp]
    have key := h.setHp i HpSlot.free (absurd rfl)
    exact key.congr rfl rfl rfl
  · exact (h.setHpRef ((releaseSlot_eq_some s.params.wHp_pos).mp hslot).1 h0 _).finish _ _

theorem UniqueInv.releaseSas (h : UniqueInv s) (p : Word) : UniqueInv (s.releaseSas p) := by
  rcases s.releaseSas_cases p with ⟨-, e⟩ | ⟨i, hslot, ⟨-, e⟩ | ⟨-, e⟩ | ⟨h0, -, e⟩⟩ <;> rw [e]
  · exact h.finish _ _
  · exact h.finish _ _
  · rw [State.writeWins_clearSas]
    have key := h.setSas i SasSlot.free (absurd rfl)
    exact key.congr rfl rfl rfl
  · exact (h.setSasRef ((releaseSlot_eq_some s.params.wSas_pos).mp hslot).1 h0 _).finish _ _

/-- Only the four window commands write a slot. -/
theorem exec_keeps_uniqueInv {i : Instr} (h : UniqueInv s) (he : exec i s = .next t) : UniqueInv t := by
  obtain ⟨-, -, -, -, -, -, -, -, hhp, hsas, -, -, hparams, -⟩ := elementsChangeOnlyByTheirWriters i s t he
  cases exec_cases he with
  | wacqHp g e => rw [e]; exact h.acquireHp _ _
  | wacqSas e => rw [e]; exact h.acquireSas _
  | wrelHp e => rw [e]; exact h.releaseHp _
  | wrelSas e => rw [e]; exact h.releaseSas _
  | plain _ _ e => rw [e]; exact h.finish _ _
  | txbuild | txwr8 | txwr32 | rxack | csrCtrl | csrExpect | csrSent | csrBeacon | rxTaken | rxDisabled =>
    have hp := not_not.mp (mt (hhp ∘ .inl) (by simp))
    have hs := not_not.mp (mt (hsas ∘ .inl) (by simp))
    exact h.congr hparams hp hs

theorem move_keeps_uniqueInv (s t : State) (m : Turn) (h : UniqueInv s) (hm : Move s t m) : UniqueInv t := by
  cases hm with
  | command c i _ he => exact exec_keeps_uniqueInv (s := s.present c) (h.congr rfl rfl rfl) he
  | rxTaken b line _ _ _ e =>
    obtain ⟨_, _, _, _, _, _, ha⟩ := State.takeRxByte_frame { s with rxLine := line } b
    rw [e, ha]; exact h.congr rfl rfl rfl
  | txTake e => rw [e, State.takeTx]; split <;> exact h.congr rfl rfl rfl
  | reset e => rw [e]; exact .of_free rfl rfl
  | illegal _ _ _ e | rxIdle _ e | access _ _ _ e | transportFault e => rw [e]; exact h.congr rfl rfl rfl

/-! ## The reset state (R50) -/

/-- Whatever the OPEN parameters are, those the reset state carries meet R7's constraints. -/
theorem paramsWf_config : Config.params.wf := by
  rw [Config.params, Config.openParams]
  split
  · assumption
  · decide

end Sys2Proof.Machine

open Sys2Proof Sys2Proof.Machine

/-- Settles O41: a slot is allocated only for what no live slot holds; counting references changes no base or tag. -/
theorem stepKeepsSlotsUnique : Obligations.StepKeepsSlotsUnique :=
  ⟨uniqueInv_reset, fun _ _ => step_keeps (fun _ _ h => h.congr rfl rfl rfl) move_keeps_uniqueInv⟩

/-- Settles O18: the reset state is its own reset, and its parameters are R7's. -/
theorem resetMeetsTheInvariants : Obligations.ResetMeetsTheInvariants where
  params := paramsWf_config
  rx := rxInv_applyReset State.reset
  buffers := ⟨Memory.nil_wf _, Memory.nil_wf _⟩
  windows := windowInv_reset
  unique := uniqueInv_reset
  packet := ⟨absurd rfl, fun h => nomatch h⟩
  rstat := Status.ok.code_le
  tx := le_refl 0

namespace Sys2Proof.Machine

variable {s t : State} {i x : Nat}

/-! ## The order of register writes (R178) -/

theorem programHpWrites_take_one (i : Nat) (b : Word64) (g : Tag) :
    (programHpWrites i b g).take 1 = [(.hpHi i, hpHiImage b)] := rfl

theorem clearHpWrites_take_one (i : Nat) : (clearHpWrites i).take 1 = [(.hpLo i, 0)] := rfl

theorem State.writeWins_append (s : State) (ws vs : List (WinReg × Word)) :
    s.writeWins (ws ++ vs) = (s.writeWins ws).writeWins vs := by
  induction ws generalizing s with
  | nil => rfl
  | cons w ws ih => exact ih _

/-- A write to one half of a register pair leaves the other. -/
theorem State.hpReg_writeWin_lo (h : i < s.hpWin.length) (v : Word) :
    (s.writeWin (.hpLo i) v).hpReg i = ⟨v, (s.hpReg i).hi⟩ :=
  (s.hpReg_set i i _).trans (if_pos ⟨rfl, h⟩)

theorem State.hpReg_writeWin_hi (h : i < s.hpWin.length) (v : Word) :
    (s.writeWin (.hpHi i) v).hpReg i = ⟨(s.hpReg i).lo, v⟩ :=
  (s.hpReg_set i i _).trans (if_pos ⟨rfl, h⟩)

theorem State.hpReg_writeWins_programHp (h : i < s.hpWin.length) (b : Word64) (g : Tag) :
    (s.writeWins (programHpWrites i b g)).hpReg i = programmedHp b g := by
  rw [State.writeWins_programHp, State.hpReg_set, if_pos ⟨rfl, h⟩]

theorem programmedHp_eq (b : Word64) (g : Tag) : programmedHp b g =
    ⟨BitVec.ofNat 32 (b.toNat / 2 ^ 26 % 2 ^ 6 * 2 ^ 26 + (if g = .reg then 2 else 0) + 1),
      BitVec.ofNat 32 (b.toNat / 2 ^ 32)⟩ := by
  rw [programmedHp, hpLoImage_eq, hpHiImage_eq]

end Sys2Proof.Machine

/-- Settles O45: Program writes the half without EN first, and Clear the half with it. -/
theorem programmingNeverEnablesHalfABase : Obligations.ProgrammingNeverEnablesHalfABase := by
  intro s i b g hi hclear
  have hprog := State.hpReg_writeWins_programHp hi b g
  have hlen : i < (s.writeWins (programHpWrites i b g)).hpWin.length := by
    rw [State.writeWins_programHp, List.length_set]; exact hi
  rw [State.writeWins_append, State.writeWins_append, ← hpHiImage_eq]
  refine ⟨?_, ?_, ?_, ?_⟩
  · exact (State.hpReg_writeWin_hi hi _).trans (by rw [hclear])
  · rw [hprog, programmedHp_eq, hpHiImage_eq]
  · exact (State.hpReg_writeWin_lo hlen _).trans (by rw [hprog, programmedHp])
  · rw [State.writeWins_clearHp, State.hpReg_set, if_pos ⟨rfl, hlen⟩]
    rfl

/-- Settles O46: R7 keeps the two local ranges apart, so the pointer is out of the other pool's. -/
theorem pointerOfTheOtherPoolIsBad : Obligations.PointerOfTheOtherPoolIsBad := by
  intro s hw hh
  obtain ⟨-, -, -, -, -, -, -, -, -, -, -, hapart⟩ := hw
  constructor
  · rintro ⟨x, hx, hp⟩
    rw [exec_wrelSas_of_running hh]
    refine congrArg _ (State.releaseSas_of_bad ((releaseSlot_eq_none s.params.wSas_pos).mpr (.inl ?_)))
    rw [State.ptr]
    omega
  · rintro ⟨x, hx, hp⟩
    rw [exec_wrelHp_of_running hh]
    refine congrArg _ (State.releaseHp_of_bad ((releaseSlot_eq_none s.params.wHp_pos).mpr (.inl ?_)))
    rw [State.ptr]
    omega

namespace Sys2Proof.Machine

variable {s t : State} {i x : Nat} {a : Access}

/-! ## What a window maps (R186) -/

/-- A live HP slot's window gives its tag back, and its base where the register image holds the base whole. -/
theorem WindowInv.mappedHp_of_live (h : WindowInv s) (hi : i < s.params.nHp) (hr : (s.hpSlot i).ref ≠ 0) :
    s.mappedHp i = some ((s.hpSlot i).tag, (programmedHp (s.hpSlot i).base (s.hpSlot i).tag).base) := by
  obtain ⟨hen, htag⟩ := programmedHp_view (s.hpSlot i).base (s.hpSlot i).tag
  rw [State.mappedHp, (h.hpLive i hi hr).2, if_pos hen, htag]

theorem WindowInv.programmedHp_base_of_live (h : WindowInv s) (hi : i < s.params.nHp) (hr : (s.hpSlot i).ref ≠ 0)
    (hw : 2 ^ 26 ≤ s.params.wHp) : (programmedHp (s.hpSlot i).base (s.hpSlot i).tag).base = (s.hpSlot i).base :=
  programmedHp_base (mod_two_pow_of_mod ((Nat.pow_le_pow_iff_right (by decide)).mp hw) (h.hpLive i hi hr).1) _

theorem WindowInv.mappedHp_of_free (h : WindowInv s) (hi : i < s.params.nHp) (hr : (s.hpSlot i).ref = 0) :
    s.mappedHp i = none := by
  rw [State.mappedHp, (h.hpFree i hi hr).2.2]
  rfl

theorem WindowInv.mappedSas_of_live (h : WindowInv s) (hi : i < s.params.nSas) (hr : (s.sasSlot i).ref ≠ 0) :
    s.mappedSas i = some (.mem, (sasWinBase (programmedSas (s.sasSlot i).base)).setWidth 64) := by
  rw [State.mappedSas, (h.sasLive i hi hr).2, if_pos (programmedSas_enabled _)]

theorem WindowInv.programmedSas_base_of_live (h : WindowInv s) (hi : i < s.params.nSas) (hr : (s.sasSlot i).ref ≠ 0)
    (hw : 2 ^ 20 ≤ s.params.wSas) : sasWinBase (programmedSas (s.sasSlot i).base) = (s.sasSlot i).base :=
  programmedSas_base (mod_two_pow_of_mod ((Nat.pow_le_pow_iff_right (by decide)).mp hw) (h.sasLive i hi hr).1)

theorem WindowInv.mappedSas_of_free (h : WindowInv s) (hi : i < s.params.nSas) (hr : (s.sasSlot i).ref = 0) :
    s.mappedSas i = none := by
  rw [State.mappedSas, (h.sasFree i hi hr).2]
  rfl

/-! ## Where an access goes (R186, R257, R258) -/

/-- An access from a pointer `x` bytes into slot `i` is checked against what the slot's window maps. -/
theorem State.translate_hp (hp : a.pool = .hp) (hi : i < s.params.nHp) (hx : x < s.params.wHp)
    (hptr : a.ptr.toNat = s.params.localBaseHp.toNat + i * s.params.wHp + x) :
    s.translate a = checkAccess a s.params.wHp x (s.mappedHp i) := by
  have hoff := offsetInSlot_of_eq i hx hptr
  have hslot := (slotOfPtr_eq_some (n := s.params.nHp) s.params.wHp_pos).mpr ⟨hi, x, hx, hptr, hoff⟩
  simp only [State.translate, hp, hslot, hoff]

theorem State.translate_sas (hp : a.pool = .sas) (hi : i < s.params.nSas) (hx : x < s.params.wSas)
    (hptr : a.ptr.toNat = s.params.localBaseSas.toNat + i * s.params.wSas + x) :
    s.translate a = checkAccess a s.params.wSas x (s.mappedSas i) := by
  have hoff := offsetInSlot_of_eq i hx hptr
  have hslot := (slotOfPtr_eq_some (n := s.params.nSas) s.params.wSas_pos).mpr ⟨hi, x, hx, hptr, hoff⟩
  simp only [State.translate, hp, hslot, hoff]

theorem State.translate_hp_outside (hp : a.pool = .hp)
    (hout : a.ptr.toNat < s.params.localBaseHp.toNat ∨
      s.params.localBaseHp.toNat + s.params.nHp * s.params.wHp ≤ a.ptr.toNat) :
    s.translate a = .error .outsidePool := by
  have hslot := (slotOfPtr_eq_none s.params.wHp_pos).mpr hout
  simp only [State.translate, hp, hslot]

theorem State.translate_sas_outside (hp : a.pool = .sas)
    (hout : a.ptr.toNat < s.params.localBaseSas.toNat ∨
      s.params.localBaseSas.toNat + s.params.nSas * s.params.wSas ≤ a.ptr.toNat) :
    s.translate a = .error .outsidePool := by
  have hslot := (slotOfPtr_eq_none s.params.wSas_pos).mpr hout
  simp only [State.translate, hp, hslot]

theorem checkAccess_crossing {w : Nat} {g : Tag} {b : Word64} (h : w < x + a.len) :
    checkAccess a w x (some (g, b)) = .error .windowCrossing := if_pos h

theorem checkAccess_reprogrammed {w : Nat} {g : Tag} {b : Word64} (h : x + a.len ≤ w)
    (hb : b + BitVec.ofNat 64 x ≠ a.target) : checkAccess a w x (some (g, b)) = .error .reprogrammedWindow :=
  (if_neg (Nat.not_lt.mpr h)).trans (if_pos hb)

theorem checkAccess_ok {w : Nat} {g : Tag} {b : Word64} (h : x + a.len ≤ w)
    (hb : b + BitVec.ofNat 64 x = a.target) : checkAccess a w x (some (g, b)) = .ok ⟨a.pool, g, a.target, a.len⟩ := by
  rw [← hb]
  exact (if_neg (Nat.not_lt.mpr h)).trans (if_neg (not_not.mpr hb))

/-- A step that is a window access, by what its translation gives; the schedule is not read by it. -/
theorem step_windowAccess_fault {rest : List Turn} {f : Fault} (hs : s.schedule = .windowAccess a :: rest)
    (h : s.translate a = .error f) : step s = .fault f := by
  rw [step_of_schedule hs]
  change State.windowAccess _ a = _
  have h' : State.translate { s with schedule := rest } a = .error f := h
  rw [State.windowAccess, h']

theorem step_windowAccess_next {rest : List Turn} {e : ExtAccess} (hs : s.schedule = .windowAccess a :: rest)
    (h : s.translate a = .ok e) : step s = .next { s with schedule := rest, extOut := s.extOut ++ [e] } := by
  rw [step_of_schedule hs]
  change State.windowAccess _ a = _
  have h' : State.translate { s with schedule := rest } a = .ok e := h
  rw [State.windowAccess, h']

/-- Base and offset of an aligned window do not wrap. -/
theorem aligned_add_lt {b w m : Nat} (hb : b % w = 0) (hm : w ∣ m) (hlt : b < m) (hx : x < w) : b + x < m := by
  obtain ⟨k, rfl⟩ := Nat.dvd_of_mod_eq_zero hb
  obtain ⟨l, rfl⟩ := hm
  have hkl : k + 1 ≤ l := Nat.lt_of_mul_lt_mul_left hlt
  have := Nat.mul_le_mul_left w hkl
  rw [Nat.mul_add] at this
  omega

/-- An address as a number, while it does not wrap. -/
theorem add_ofNat_ne {b y : Word64} (hlt : b.toNat + x < 2 ^ 64) (h : b.toNat + x ≠ y.toNat) :
    b + BitVec.ofNat 64 x ≠ y := by
  rintro rfl
  apply h
  rw [BitVec.toNat_add, BitVec.toNat_ofNat, Nat.add_mod_mod, Nat.mod_eq_of_lt hlt]

/-- Base and offset of a SAS address, each widened, make up the widened address. -/
theorem setWidth_alignTo_add_off (w : Nat) (a : Word) :
    (alignTo w a).setWidth 64 + BitVec.ofNat 64 (offIn w a) = a.setWidth 64 := by
  have hle := Nat.mod_le a.toNat w
  have hlt := a.isLt
  apply BitVec.eq_of_toNat_eq
  rw [BitVec.toNat_add, BitVec.toNat_setWidth, BitVec.toNat_setWidth, BitVec.toNat_ofNat, toNat_alignTo, offIn]
  omega

/-- A pool's local range lies in the 32-bit space (R7), and with it every pointer into a slot. -/
theorem slot_ptr_lt {lb n w : Nat} (hfit : lb + n * w ≤ 2 ^ 32) (hi : i < n) (hx : x < w) :
    lb + i * w + x < 2 ^ 32 := by
  have := Nat.mul_le_mul_right w (Nat.succ_le_of_lt hi)
  rw [Nat.succ_mul] at this
  omega

/-- A window is no larger than the 32-bit space it lies in. -/
theorem window_le {lb n w : Nat} (hfit : lb + n * w ≤ 2 ^ 32) (hn : 1 ≤ n) : w ≤ 2 ^ 32 := by
  have := Nat.mul_le_mul_right w hn
  omega

theorem wHp_dvd (hw : s.params.wf) : s.params.wHp ∣ 2 ^ 64 := by
  obtain ⟨-, -, -, -, -, hn, -, -, hfit, -⟩ := hw
  have hle : s.params.wHpLog2 ≤ 32 := (Nat.pow_le_pow_iff_right (by decide)).mp (window_le hfit hn.1)
  exact Nat.pow_dvd_pow 2 (by omega)

/-! ## What an acquire leaves (R171, R175) -/

/-- The slot a successful WACQ.HP names is live, with the base and tag asked for. -/
theorem State.acquireHp_ok (h : WindowInv s) {a : Word64} {g : Tag} (hr : (s.acquireHp a g).rstat = 0x00) :
    ∃ i < s.params.nHp,
      (s.acquireHp a g).result = localPtr s.params.localBaseHp s.params.wHp i (offIn s.params.wHp a) ∧
      ((s.acquireHp a g).hpSlot i).ref ≠ 0 ∧ ((s.acquireHp a g).hpSlot i).base = alignTo s.params.wHp a ∧
      ((s.acquireHp a g).hpSlot i).tag = g := by
  have hslot (u : State) (hu : u.hpSlots.length = s.hpSlots.length) {i : Nat} (hi : i < s.params.nHp) (x : HpSlot) :
      (u.setHpSlot i x).hpSlot i = x :=
    (u.hpSlot_set i i x).trans (if_pos ⟨rfl, by rw [hu, h.hpCount.1]; exact hi⟩)
  rcases s.acquireHp_cases a g rfl with
    ⟨i, hi, ⟨-, hb, ht⟩, -, ⟨-, e⟩ | ⟨hmax, e⟩⟩ | ⟨-, ⟨i, hi, -, -, e⟩ | ⟨-, e⟩⟩ <;> rw [e] at hr ⊢
  · cases hr
  · refine ⟨i, hi, rfl, ?_⟩
    rw [State.finish_hpSlot, hslot s rfl hi]
    exact ⟨ref_add_one_ne_zero hmax, BitVec.eq_of_toNat_eq (hb.trans (toNat_alignTo _ a).symm), ht⟩
  · refine ⟨i, hi, rfl, ?_⟩
    rw [State.finish_hpSlot, hslot _ (by rw [State.writeWins_hpSlots]) hi]
    exact ⟨(by decide : (1 : Word) ≠ 0), rfl, rfl⟩
  · cases hr

/-- The slot a successful WACQ.SAS names is live, with the base asked for. -/
theorem State.acquireSas_ok (h : WindowInv s) {a : Word} (hr : (s.acquireSas a).rstat = 0x00) :
    ∃ i < s.params.nSas,
      (s.acquireSas a).result = localPtr s.params.localBaseSas s.params.wSas i (offIn s.params.wSas a) ∧
      ((s.acquireSas a).sasSlot i).ref ≠ 0 ∧ ((s.acquireSas a).sasSlot i).base = alignTo s.params.wSas a := by
  have hslot (u : State) (hu : u.sasSlots.length = s.sasSlots.length) {i : Nat} (hi : i < s.params.nSas)
      (x : SasSlot) : (u.setSasSlot i x).sasSlot i = x :=
    (u.sasSlot_set i i x).trans (if_pos ⟨rfl, by rw [hu, h.sasCount.1]; exact hi⟩)
  rcases s.acquireSas_cases a rfl with
    ⟨i, hi, ⟨-, hb⟩, -, ⟨-, e⟩ | ⟨hmax, e⟩⟩ | ⟨-, ⟨i, hi, -, -, e⟩ | ⟨-, e⟩⟩ <;> rw [e] at hr ⊢
  · cases hr
  · refine ⟨i, hi, rfl, ?_⟩
    rw [State.finish_sasSlot, hslot s rfl hi]
    exact ⟨ref_add_one_ne_zero hmax, BitVec.eq_of_toNat_eq (hb.trans (toNat_alignTo _ a).symm)⟩
  · refine ⟨i, hi, rfl, ?_⟩
    rw [State.finish_sasSlot, hslot _ (by rw [State.writeWins_sasSlots]) hi]
    exact ⟨(by decide : (1 : Word) ≠ 0), rfl⟩
  · cases hr

/-- A WACQ.HP that finishes with OK has acquired. -/
theorem exec_wacqHp_ok {g : Tag} (h : exec (.wacqHp g) s = .next t) (hr : t.rstat = 0x00) :
    t = s.acquireHp s.hpAddr g := by
  cases exec_cases h with
  | plain c v e _ _ hk =>
    rw [e] at hr
    cases c <;> simp [Status.code, Instr.readOnly] at hr hk
  | wacqHp _ e _ => exact e

theorem exec_wacqSas_ok (h : exec .wacqSas s = .next t) (hr : t.rstat = 0x00) : t = s.acquireSas s.sasAddr := by
  cases exec_cases h with
  | plain c v e _ _ hk =>
    rw [e] at hr
    cases c <;> simp [Status.code, Instr.readOnly] at hr hk
  | wacqSas e _ _ => exact e

end Sys2Proof.Machine

/-- Settles O43: the pointer's slot and its window decide the fault, as the checks of R257 and R258 have it. -/
theorem badWindowAccessesFault : Obligations.BadWindowAccessesFault := by
  intro s a rest x hw hinv hs
  refine ⟨?hp, ?sas⟩
  case hp =>
    rintro hp _ _ rfl rfl
    refine ⟨fun hout => step_windowAccess_fault hs (State.translate_hp_outside hp hout), fun i hi hx hptr => ?_⟩
    have htr := State.translate_hp hp hi hx hptr
    refine ⟨fun h0 => ?_, fun hr hlong => ?_, fun hr hbig hin hne => ?_⟩ <;>
      refine step_windowAccess_fault hs (htr.trans ?_)
    · rw [hinv.mappedHp_of_free hi h0]; rfl
    · rw [hinv.mappedHp_of_live hi hr]; exact checkAccess_crossing hlong
    · rw [hinv.mappedHp_of_live hi hr, hinv.programmedHp_base_of_live hi hr hbig]
      have hlt := aligned_add_lt (hinv.hpLive i hi hr).1 (wHp_dvd hw) (BitVec.isLt _) hx
      exact checkAccess_reprogrammed hin (add_ofNat_ne hlt hne)
  case sas =>
    rintro hp _ _ rfl rfl
    refine ⟨fun hout => step_windowAccess_fault hs (State.translate_sas_outside hp hout), fun i hi hx hptr => ?_⟩
    have htr := State.translate_sas hp hi hx hptr
    refine ⟨fun h0 => ?_, fun hr hlong => ?_, fun hr hbig hin hne => ?_⟩ <;>
      refine step_windowAccess_fault hs (htr.trans ?_)
    · rw [hinv.mappedSas_of_free hi h0]; rfl
    · rw [hinv.mappedSas_of_live hi hr]; exact checkAccess_crossing hlong
    · rw [hinv.mappedSas_of_live hi hr, hinv.programmedSas_base_of_live hi hr hbig]
      obtain ⟨-, -, -, -, -, -, hn, -, -, -, hfit, -⟩ := hw
      have hle := window_le hfit hn.1
      have hb := (s.sasSlot i).base.isLt
      have hwide : ((s.sasSlot i).base.setWidth 64).toNat = (s.sasSlot i).base.toNat :=
        (BitVec.toNat_setWidth ..).trans (Nat.mod_eq_of_lt (by omega))
      exact checkAccess_reprogrammed hin (add_ofNat_ne (by rw [hwide]; omega) (by rw [hwide]; exact hne))

/-- Settles O42: the returned pointer lies at the address's offset in a live slot of its base and tag. -/
theorem acquiredPointerReachesItsTarget : Obligations.AcquiredPointerReachesItsTarget := by
  refine ⟨?hp, ?sas⟩
  case hp =>
    rintro s t g _ len rest hw rfl hbig hinv he hr hin
    obtain ⟨-, hparams, -⟩ := exec_unwritten he
    have hinv' := exec_keeps_windowInv hinv he
    obtain rfl := exec_wacqHp_ok he hr
    obtain ⟨i, hi, hres, hlive, hbase, htag⟩ := State.acquireHp_ok hinv hr
    generalize s.acquireHp s.hpAddr g = t at *
    have hx : offIn s.params.wHp s.hpAddr < s.params.wHp := Nat.mod_lt _ s.params.wHp_pos
    obtain ⟨-, -, -, -, -, -, -, -, hfit, -⟩ := hw
    have hptr : t.result.toNat = s.params.localBaseHp.toNat + i * s.params.wHp + offIn s.params.wHp s.hpAddr := by
      rw [hres, toNat_localPtr (slot_ptr_lt hfit hi hx)]
    rw [← hparams] at hi hx hptr hbig hin
    have hmap := hinv'.mappedHp_of_live hi hlive
    rw [hinv'.programmedHp_base_of_live hi hlive hbig, hbase, htag, ← hparams] at hmap
    let u : State := { t with schedule := .windowAccess ⟨.hp, t.result, len, s.arg1 ++ s.arg0⟩ :: rest }
    refine step_windowAccess_next (s := u) rfl ((State.translate_hp (s := u) rfl hi hx hptr).trans ?_)
    exact (congrArg _ hmap).trans (checkAccess_ok hin (alignTo_add_off _ s.hpAddr))
  case sas =>
    rintro s t _ len rest hw rfl hbig hinv he hr hin
    obtain ⟨-, hparams, -⟩ := exec_unwritten he
    have hinv' := exec_keeps_windowInv hinv he
    obtain rfl := exec_wacqSas_ok he hr
    obtain ⟨i, hi, hres, hlive, hbase⟩ := State.acquireSas_ok hinv hr
    generalize s.acquireSas s.sasAddr = t at *
    have hx : offIn s.params.wSas s.sasAddr < s.params.wSas := Nat.mod_lt _ s.params.wSas_pos
    obtain ⟨-, -, -, -, -, -, -, -, -, -, hfit, -⟩ := hw
    have hptr :
        t.result.toNat = s.params.localBaseSas.toNat + i * s.params.wSas + offIn s.params.wSas s.sasAddr := by
      rw [hres, toNat_localPtr (slot_ptr_lt hfit hi hx)]
    rw [← hparams] at hi hx hptr hbig hin
    have hmap := hinv'.mappedSas_of_live hi hlive
    rw [hinv'.programmedSas_base_of_live hi hlive hbig, hbase, ← hparams] at hmap
    let u : State := { t with schedule := .windowAccess ⟨.sas, t.result, len, s.arg0.setWidth 64⟩ :: rest }
    refine step_windowAccess_next (s := u) rfl ((State.translate_sas (s := u) rfl hi hx hptr).trans ?_)
    exact (congrArg _ hmap).trans (checkAccess_ok hin (setWidth_alignTo_add_off _ s.sasAddr))

end

section
/-! PROOFS. Window sharing (spec/42_window.md R184): two acquires of one base take one slot, which two releases free. -/

namespace Sys2Proof.Machine

variable {s : State} {i : Nat}

/-- Addresses of one window have one base (R11). -/
theorem base_eq_of_div_eq {a a' w : Nat} (h : a' / w = a / w) : a' - a' % w = a - a % w := by
  have h1 := Nat.div_add_mod a w
  have h2 := Nat.div_add_mod a' w
  rw [h] at h2
  omega

theorem set_of_getD_eq {α : Type} {l : List α} {i : Nat} {d x : α} (hi : i < l.length) (h : l.getD i d = x) :
    l.set i x = l := by
  rw [← h, List.getD_eq_getElem _ _ hi, List.set_getElem_self]

/-! ## The HP pool -/

/-- `s` with its HP pool, the operands and what the command port shows replaced. -/
def State.withHpPool (s : State) (lo hi : Word) (slots : List HpSlot) (wins : List HpWin) (result : Word) : State :=
  { s with arg0 := lo, arg1 := hi, hpSlots := slots, hpWin := wins, rstat := 0x00, result := result }

theorem State.hpSlot_withHpPool (h : i < s.hpSlots.length) (j : Nat) (lo hi : Word) (x : HpSlot) (wins : List HpWin)
    (r : Word) :
    (s.withHpPool lo hi (s.hpSlots.set i x) wins r).hpSlot j = if i = j then x else s.hpSlot j := by
  refine (getD_set_eq ..).trans ?_
  simp only [h, and_true]
  rfl

section
variable {g : Tag} {b : Nat} {lo hi : Word} {wins : List HpWin} {res : Word} (hrun : s.halted = false)
  (hin : i < s.params.nHp)
include hrun hin

/-- The lowest free slot is taken for a base and tag that no slot holds (R173). -/
theorem exec_wacqHp_first (hb : b = (hi ++ lo).toNat - (hi ++ lo).toNat % s.params.wHp)
    (hnone : ∀ j < s.params.nHp, ¬ s.holdsHp b g j) (hfree : (s.hpSlot i).ref = 0)
    (hlow : ∀ j < i, (s.hpSlot j).ref ≠ 0) :
    exec (.wacqHp g) { s with arg0 := lo, arg1 := hi } = .next (s.withHpPool lo hi
      (s.hpSlots.set i ⟨BitVec.ofNat 64 b, g, 1⟩) (s.hpWin.set i (programmedHp (BitVec.ofNat 64 b) g))
      (localPtr s.params.localBaseHp s.params.wHp i ((hi ++ lo).toNat % s.params.wHp))) := by
  have hfirst := State.acquireHp_of_free (s := { s with arg0 := lo, arg1 := hi }) (a := hi ++ lo) hb hin hnone hfree
    hlow
  rw [exec_wacqHp_of_running (s := { s with arg0 := lo, arg1 := hi }) hrun]
  refine congrArg _ (hfirst.trans ?_)
  rw [State.takeHp, State.writeWins_programHp, alignTo, hb]
  rfl

/-- A second acquire of the base raises the slot's count (R172). -/
theorem exec_wacqHp_second (hlen : i < s.hpSlots.length)
    (hb : b = (hi ++ lo).toNat - (hi ++ lo).toNat % s.params.wHp) (hnone : ∀ j < i, ¬ s.holdsHp b g j) :
    exec (.wacqHp g) (s.withHpPool lo hi (s.hpSlots.set i ⟨BitVec.ofNat 64 b, g, 1⟩) wins res) =
      .next (s.withHpPool lo hi (s.hpSlots.set i ⟨BitVec.ofNat 64 b, g, 2⟩) wins
        (localPtr s.params.localBaseHp s.params.wHp i ((hi ++ lo).toNat % s.params.wHp))) := by
  have hslot := fun j => State.hpSlot_withHpPool hlen j lo hi ⟨BitVec.ofNat 64 b, g, 1⟩ wins res
  generalize hu : s.withHpPool lo hi (s.hpSlots.set i ⟨BitVec.ofNat 64 b, g, 1⟩) wins res = u at hslot ⊢
  have hb64 : (BitVec.ofNat 64 b).toNat = b := (BitVec.toNat_ofNat ..).trans (Nat.mod_eq_of_lt (by omega))
  have hi1 : u.hpSlot i = ⟨BitVec.ofNat 64 b, g, 1⟩ := (hslot i).trans (if_pos rfl)
  have hold : u.holdsHp b g i := by
    rw [State.holdsHp, hi1]
    exact ⟨(by decide : (1 : Word) ≠ 0), hb64, rfl⟩
  have hlow : ∀ j < i, ¬ u.holdsHp b g j := fun j hj => by
    rw [State.holdsHp, hslot j, if_neg hj.ne']
    exact hnone j hj
  have hmatch : u.acquireHp (hi ++ lo) g = u.takeHp (hi ++ lo) g (.reuse i) :=
    State.acquireHp_of_match (by rw [← hu]; exact hb) (by rw [← hu]; exact hin) hold hlow
  have hne : (u.hpSlot i).ref ≠ maxRef := by rw [hi1]; exact (by decide : (1 : Word) ≠ maxRef)
  have hrunu : u.halted = false := by rw [← hu]; exact hrun
  have haddr : u.hpAddr = hi ++ lo := by rw [← hu]; rfl
  rw [exec_wacqHp_of_running hrunu, haddr, hmatch]
  refine congrArg _ ((if_neg hne).trans ?_)
  rw [hi1, ← hu, State.setHpSlot, State.withHpPool, List.set_set]
  rfl

section
variable {p : Word} {x : Nat} {base : Word64} (hlen : i < s.hpSlots.length) (hx : x < s.params.wHp)
  (hp : p.toNat = s.params.localBaseHp.toNat + i * s.params.wHp + x) (hmode : s.params.releaseAlign = .base → x = 0)
include hlen hx hp hmode

/-- The first of two releases lowers the count (R176). -/
theorem exec_wrelHp_shared :
    exec .wrelHp (s.withHpPool p hi (s.hpSlots.set i ⟨base, g, 2⟩) wins res) =
      .next (s.withHpPool p hi (s.hpSlots.set i ⟨base, g, 1⟩) wins 0) := by
  have hi2 := (State.hpSlot_withHpPool hlen i p hi ⟨base, g, 2⟩ wins res).trans (if_pos rfl)
  have hslot := (releaseSlot_eq_some (n := s.params.nHp) s.params.wHp_pos).mpr ⟨hin, x, hx, hp, hmode⟩
  rw [exec_wrelHp_of_running (s := s.withHpPool p hi _ wins res) hrun]
  have hrel := State.releaseHp_of_shared (s := s.withHpPool p hi (s.hpSlots.set i ⟨base, g, 2⟩) wins res)
    hslot (by rw [hi2]; exact (by decide : 2 ≤ (2 : Word).toNat))
  refine congrArg _ (hrel.trans ?_)
  rw [hi2, State.setHpSlot, State.withHpPool, List.set_set, (by decide : (2 : Word) - 1 = 1)]
  rfl

/-- The second clears the registers and frees the slot (R176, R178). -/
theorem exec_wrelHp_last :
    exec .wrelHp (s.withHpPool p hi (s.hpSlots.set i ⟨base, g, 1⟩) wins res) =
      .next (s.withHpPool p hi (s.hpSlots.set i HpSlot.free) (wins.set i HpWin.cleared) 0) := by
  have hi1 := (State.hpSlot_withHpPool hlen i p hi ⟨base, g, 1⟩ wins res).trans (if_pos rfl)
  have hslot := (releaseSlot_eq_some (n := s.params.nHp) s.params.wHp_pos).mpr ⟨hin, x, hx, hp, hmode⟩
  rw [exec_wrelHp_of_running (s := s.withHpPool p hi _ wins res) hrun]
  have hrel := State.releaseHp_of_last (s := s.withHpPool p hi (s.hpSlots.set i ⟨base, g, 1⟩) wins res)
    hslot (by rw [hi1]; exact (by decide : (1 : Word).toNat = 1))
  refine congrArg _ (hrel.trans ?_)
  rw [State.withHpPool, List.set_set]
  rfl

end

end

/-- Freeing a slot that was free gives the pool back. -/
theorem WindowInv.hpPool_of_free (h : WindowInv s) (hin : i < s.params.nHp) (hr : (s.hpSlot i).ref = 0) :
    s.hpSlots.set i HpSlot.free = s.hpSlots ∧ s.hpWin.set i HpWin.cleared = s.hpWin := by
  obtain ⟨hbase, htag, hreg⟩ := h.hpFree i hin hr
  have hslot : s.hpSlot i = HpSlot.free := by
    rw [HpSlot.free, ← hbase, ← htag, ← hr]
  exact ⟨set_of_getD_eq (h.hpCount.1 ▸ hin) hslot, set_of_getD_eq (h.hpCount.2 ▸ hin) hreg⟩

/-! ## The SAS pool -/

/-- `s` with its SAS pool, the operand and what the command port shows replaced; ARG1 is 0, as WACQ.SAS wants it
(R180). -/
def State.withSasPool (s : State) (a : Word) (slots : List SasSlot) (wins : List Word) (result : Word) : State :=
  { s with arg0 := a, arg1 := 0, sasSlots := slots, sasWin := wins, rstat := 0x00, result := result }

theorem State.sasSlot_withSasPool (h : i < s.sasSlots.length) (j : Nat) (a : Word) (x : SasSlot) (wins : List Word)
    (r : Word) : (s.withSasPool a (s.sasSlots.set i x) wins r).sasSlot j = if i = j then x else s.sasSlot j := by
  refine (getD_set_eq ..).trans ?_
  simp only [h, and_true]
  rfl

/-- With ARG1 = 0 the address is not RANGE (R180). -/
theorem exec_wacqSas_of_narrow (hrun : s.halted = false) (h1 : s.arg1 = 0) :
    exec .wacqSas s = .next (s.acquireSas s.sasAddr) := by
  rw [exec_wacqSas_of_running hrun]
  exact congrArg _ (if_neg (not_not.mpr h1))

section
variable {b : Nat} {a : Word} {wins : List Word} {res : Word} (hrun : s.halted = false) (hin : i < s.params.nSas)
include hrun hin

/-- The lowest free slot is taken for a base that no slot holds (R173). -/
theorem exec_wacqSas_first (hb : b = a.toNat - a.toNat % s.params.wSas)
    (hnone : ∀ j < s.params.nSas, ¬ s.holdsSas b j) (hfree : (s.sasSlot i).ref = 0)
    (hlow : ∀ j < i, (s.sasSlot j).ref ≠ 0) :
    exec .wacqSas { s with arg0 := a, arg1 := 0 } = .next (s.withSasPool a
      (s.sasSlots.set i ⟨BitVec.ofNat 32 b, 1⟩) (s.sasWin.set i (programmedSas (BitVec.ofNat 32 b)))
      (localPtr s.params.localBaseSas s.params.wSas i (a.toNat % s.params.wSas))) := by
  have hfirst := State.acquireSas_of_free (s := { s with arg0 := a, arg1 := 0 }) (a := a) hb hin hnone hfree hlow
  rw [exec_wacqSas_of_narrow (s := { s with arg0 := a, arg1 := 0 }) hrun rfl]
  refine congrArg _ (hfirst.trans ?_)
  rw [State.takeSas, State.writeWins_programSas, alignTo, hb]
  rfl

/-- A second acquire of the base raises the slot's count (R172). -/
theorem exec_wacqSas_second (hlen : i < s.sasSlots.length) (hb : b = a.toNat - a.toNat % s.params.wSas)
    (hnone : ∀ j < i, ¬ s.holdsSas b j) :
    exec .wacqSas (s.withSasPool a (s.sasSlots.set i ⟨BitVec.ofNat 32 b, 1⟩) wins res) =
      .next (s.withSasPool a (s.sasSlots.set i ⟨BitVec.ofNat 32 b, 2⟩) wins
        (localPtr s.params.localBaseSas s.params.wSas i (a.toNat % s.params.wSas))) := by
  have hslot := fun j => State.sasSlot_withSasPool hlen j a ⟨BitVec.ofNat 32 b, 1⟩ wins res
  generalize hu : s.withSasPool a (s.sasSlots.set i ⟨BitVec.ofNat 32 b, 1⟩) wins res = u at hslot ⊢
  have hb32 : (BitVec.ofNat 32 b).toNat = b := (BitVec.toNat_ofNat ..).trans (Nat.mod_eq_of_lt (by omega))
  have hi1 : u.sasSlot i = ⟨BitVec.ofNat 32 b, 1⟩ := (hslot i).trans (if_pos rfl)
  have hold : u.holdsSas b i := by
    rw [State.holdsSas, hi1]
    exact ⟨(by decide : (1 : Word) ≠ 0), hb32⟩
  have hlow : ∀ j < i, ¬ u.holdsSas b j := fun j hj => by
    rw [State.holdsSas, hslot j, if_neg hj.ne']
    exact hnone j hj
  have hmatch : u.acquireSas a = u.takeSas a (.reuse i) :=
    State.acquireSas_of_match (by rw [← hu]; exact hb) (by rw [← hu]; exact hin) hold hlow
  have hne : (u.sasSlot i).ref ≠ maxRef := by rw [hi1]; exact (by decide : (1 : Word) ≠ maxRef)
  have hrunu : u.halted = false := by rw [← hu]; exact hrun
  have haddr : u.sasAddr = a := by rw [← hu]; rfl
  rw [exec_wacqSas_of_narrow hrunu (by rw [← hu]; rfl), haddr, hmatch]
  refine congrArg _ ((if_neg hne).trans ?_)
  rw [hi1, ← hu, State.setSasSlot, State.withSasPool, List.set_set]
  rfl

section
variable {p : Word} {x : Nat} {base : Word} (hlen : i < s.sasSlots.length) (hx : x < s.params.wSas)
  (hp : p.toNat = s.params.localBaseSas.toNat + i * s.params.wSas + x) (hmode : s.params.releaseAlign = .base → x = 0)
include hlen hx hp hmode

/-- The first of two releases lowers the count (R176). -/
theorem exec_wrelSas_shared :
    exec .wrelSas (s.withSasPool p (s.sasSlots.set i ⟨base, 2⟩) wins res) =
      .next (s.withSasPool p (s.sasSlots.set i ⟨base, 1⟩) wins 0) := by
  have hi2 := (State.sasSlot_withSasPool hlen i p ⟨base, 2⟩ wins res).trans (if_pos rfl)
  have hslot := (releaseSlot_eq_some (n := s.params.nSas) s.params.wSas_pos).mpr ⟨hin, x, hx, hp, hmode⟩
  rw [exec_wrelSas_of_running (s := s.withSasPool p _ wins res) hrun]
  have hrel := State.releaseSas_of_shared (s := s.withSasPool p (s.sasSlots.set i ⟨base, 2⟩) wins res)
    hslot (by rw [hi2]; exact (by decide : 2 ≤ (2 : Word).toNat))
  refine congrArg _ (hrel.trans ?_)
  rw [hi2, State.setSasSlot, State.withSasPool, List.set_set, (by decide : (2 : Word) - 1 = 1)]
  rfl

/-- The second clears the register and frees the slot (R176, R178). -/
theorem exec_wrelSas_last :
    exec .wrelSas (s.withSasPool p (s.sasSlots.set i ⟨base, 1⟩) wins res) =
      .next (s.withSasPool p (s.sasSlots.set i SasSlot.free) (wins.set i 0) 0) := by
  have hi1 := (State.sasSlot_withSasPool hlen i p ⟨base, 1⟩ wins res).trans (if_pos rfl)
  have hslot := (releaseSlot_eq_some (n := s.params.nSas) s.params.wSas_pos).mpr ⟨hin, x, hx, hp, hmode⟩
  rw [exec_wrelSas_of_running (s := s.withSasPool p _ wins res) hrun]
  have hrel := State.releaseSas_of_last (s := s.withSasPool p (s.sasSlots.set i ⟨base, 1⟩) wins res)
    hslot (by rw [hi1]; exact (by decide : (1 : Word).toNat = 1))
  refine congrArg _ (hrel.trans ?_)
  rw [State.withSasPool, List.set_set]
  rfl

end

end

/-- Freeing a slot that was free gives the pool back. -/
theorem WindowInv.sasPool_of_free (h : WindowInv s) (hin : i < s.params.nSas) (hr : (s.sasSlot i).ref = 0) :
    s.sasSlots.set i SasSlot.free = s.sasSlots ∧ s.sasWin.set i 0 = s.sasWin := by
  obtain ⟨hbase, hreg⟩ := h.sasFree i hin hr
  have hslot : s.sasSlot i = SasSlot.free := by
    rw [SasSlot.free, ← hbase, ← hr]
  exact ⟨set_of_getD_eq (h.sasCount.1 ▸ hin) hslot, set_of_getD_eq (h.sasCount.2 ▸ hin) hreg⟩

end Sys2Proof.Machine

open Sys2Proof Sys2Proof.Machine

/-- Settles O44: the second acquire finds the slot the first one took, and the two releases count it down to free. -/
theorem acquiringTwiceSharesOneSlot : Obligations.AcquiringTwiceSharesOneSlot := by
  rintro s g i _ b lo lo' hi hw hinv hrun rfl hb hdiv hmode hnone hin hfree hlow
  obtain ⟨-, -, -, -, -, -, -, -, hfit, -⟩ := hw
  have hlen : i < s.hpSlots.length := hinv.hpCount.1 ▸ hin
  have hreg (x : HpWin) : (s.hpWin.set i x).getD i HpWin.cleared = x :=
    (getD_set_eq ..).trans (if_pos ⟨rfl, hinv.hpCount.2 ▸ hin⟩)
  obtain ⟨hslots, hwins⟩ := hinv.hpPool_of_free hin hfree
  have hx (a : Word64) : a.toNat % s.params.wHp < s.params.wHp := Nat.mod_lt _ s.params.wHp_pos
  have ptr (a : Word64) := toNat_localPtr (lb := s.params.localBaseHp) (slot_ptr_lt hfit hin (hx a))
  have h1 := exec_wacqHp_first hrun hin hb hnone hfree hlow
  have h2 := exec_wacqHp_second (lo := lo') (wins := s.hpWin.set i (programmedHp (BitVec.ofNat 64 b) g))
    (res := localPtr s.params.localBaseHp s.params.wHp i ((hi ++ lo).toNat % s.params.wHp)) hrun hin hlen
    (hb.trans (base_eq_of_div_eq hdiv).symm) (fun j hj => hnone j (hj.trans hin))
  have h3 := exec_wrelHp_shared (hi := hi) (g := g) (base := BitVec.ofNat 64 b)
    (wins := s.hpWin.set i (programmedHp (BitVec.ofNat 64 b) g))
    (res := localPtr s.params.localBaseHp s.params.wHp i ((hi ++ lo').toNat % s.params.wHp)) hrun hin hlen
    (hx (hi ++ lo)) (ptr _) (fun h => (hmode h).1)
  have h4 := exec_wrelHp_last (hi := hi) (g := g) (base := BitVec.ofNat 64 b)
    (wins := s.hpWin.set i (programmedHp (BitVec.ofNat 64 b) g)) (res := 0) hrun hin hlen (hx (hi ++ lo')) (ptr _)
    (fun h => (hmode h).2)
  rw [List.set_set, hslots, hwins] at h4
  exact ⟨_, _, _, _, h1, rfl, hreg _, h2, rfl, rfl, rfl, h3, rfl, rfl, rfl, hreg _, h4, rfl, rfl, rfl,
    (hinv.hpFree i hin hfree).2.2⟩

/-- Settles O52: the second acquire finds the slot the first one took, and the two releases count it down to free. -/
theorem acquiringTwiceSharesOneSasSlot : Obligations.AcquiringTwiceSharesOneSasSlot := by
  rintro s i _ b a a' hw hinv hrun rfl hb hdiv hmode hnone hin hfree hlow
  obtain ⟨-, -, -, -, -, -, -, -, -, -, hfit, -⟩ := hw
  have hlen : i < s.sasSlots.length := hinv.sasCount.1 ▸ hin
  have hreg (x : Word) : (s.sasWin.set i x).getD i 0 = x :=
    (getD_set_eq ..).trans (if_pos ⟨rfl, hinv.sasCount.2 ▸ hin⟩)
  obtain ⟨hslots, hwins⟩ := hinv.sasPool_of_free hin hfree
  have hx (a : Word) : a.toNat % s.params.wSas < s.params.wSas := Nat.mod_lt _ s.params.wSas_pos
  have ptr (a : Word) := toNat_localPtr (lb := s.params.localBaseSas) (slot_ptr_lt hfit hin (hx a))
  have h1 := exec_wacqSas_first hrun hin hb hnone hfree hlow
  have h2 := exec_wacqSas_second (a := a') (wins := s.sasWin.set i (programmedSas (BitVec.ofNat 32 b)))
    (res := localPtr s.params.localBaseSas s.params.wSas i (a.toNat % s.params.wSas)) hrun hin hlen
    (hb.trans (base_eq_of_div_eq hdiv).symm) (fun j hj => hnone j (hj.trans hin))
  have h3 := exec_wrelSas_shared (base := BitVec.ofNat 32 b)
    (wins := s.sasWin.set i (programmedSas (BitVec.ofNat 32 b)))
    (res := localPtr s.params.localBaseSas s.params.wSas i (a'.toNat % s.params.wSas)) hrun hin hlen (hx a) (ptr _)
    (fun h => (hmode h).1)
  have h4 := exec_wrelSas_last (base := BitVec.ofNat 32 b)
    (wins := s.sasWin.set i (programmedSas (BitVec.ofNat 32 b))) (res := 0) hrun hin hlen (hx a') (ptr _)
    (fun h => (hmode h).2)
  rw [List.set_set, hslots, hwins] at h4
  exact ⟨_, _, _, _, h1, rfl, hreg _, h2, rfl, rfl, rfl, h3, rfl, rfl, rfl, hreg _, h4, rfl, rfl, rfl,
    (hinv.sasFree i hin hfree).2⟩

end

section
/-! PROOFS. Control and status register access of spec/43_control.md: what CSRRD shows (R40 to R48, R200) and the CSRs
that CSRWR does not write (R203). -/

namespace Sys2Proof.Machine

variable {s : State} {n : BitVec 12} {c : Csr}

/-- The low half of a 64-bit base (R45). -/
theorem extractLsb'_low_eq (b : Word64) : b.extractLsb' 0 32 = BitVec.ofNat 32 (b.toNat % 2 ^ 32) := by
  apply BitVec.eq_of_toNat_eq
  simp [BitVec.extractLsb'_toNat]

theorem Tag.setWidth_bit (t : Tag) : t.bit.setWidth 32 = if t = .reg then 1 else 0 := by
  cases t <;> rfl

theorem exec_csrwr_of_readOnly (h : s.halted = false) (hn : csrOfNumber s.params n = some c)
    (hw : s.csrWrite c s.csrValue = none) : exec (.csrwr n) s = .next (s.finish .readOnly 0) := by
  rw [exec_csrwr_of_running h hn, State.writeCsr, hw]

/-- The writable CSRs are the four of R202. -/
theorem State.csrWrite_eq_none (v : Word) (h : c.number ∉ [0x000, 0x004, 0x005, 0x006]) :
    s.csrWrite c v = none := by
  cases c with
  | ctrl | rxExpect | txSent | beaconCnt => exact absurd (by decide) h
  | _ => rfl

/-- STATUS as the sum of its bits (R42). -/
theorem State.statusWord_eq (s : State) : s.statusWord = BitVec.ofNat 32
    ((match s.rxState with | .header => 0 | .payload => 1 | .footer => 2) +
      (if s.pktReady then 4 else 0) + (if s.halted then 8 else 0)) := by
  rw [State.statusWord]
  cases s.rxState <;> cases s.pktReady <;> cases s.halted <;> rfl

/-- A CSR of one of the banks, read by its number. -/
theorem exec_csrrd_of_number (hw : s.params.wf) (hc : c.Present s.params) (hk : c.number < 2 ^ 12) :
    exec (.csrrd (BitVec.ofNat 12 c.number)) s = .next (s.finish .ok (s.csrRead c)) := by
  obtain ⟨-, -, -, -, -, hhp, hsas, -⟩ := hw
  have hn : (BitVec.ofNat 12 c.number).toNat = c.number := (BitVec.toNat_ofNat ..).trans (Nat.mod_eq_of_lt hk)
  exact exec_csrrd_of_listed ((csrOfNumber_eq_some hhp.2 hsas.2).mpr ⟨hn, hc⟩)

end Sys2Proof.Machine

open Sys2Proof Sys2Proof.Machine

/-- Settles O47: each number names its CSR, and a read shows that CSR's value. -/
theorem csrReadsShowTheState : Obligations.CsrReadsShowTheState := by
  intro s
  refine ⟨exec_csrrd_of_listed (c := .ctrl) rfl, ?status, exec_csrrd_of_listed (c := .rxRemain) rfl,
    exec_csrrd_of_listed (c := .rxPlen) rfl, exec_csrrd_of_listed (c := .rxExpect) rfl,
    exec_csrrd_of_listed (c := .txSent) rfl, exec_csrrd_of_listed (c := .beaconCnt) rfl,
    fun i hi hw => ?hp, fun i hi hw => ?sas⟩
  case status => rw [exec_csrrd_of_listed (c := .status) rfl, State.csrRead, State.statusWord_eq]; rfl
  case hp =>
    have read (c : Csr) := exec_csrrd_of_number (s := s) (c := c) hw
    obtain ⟨-, -, -, -, -, ⟨-, hmax⟩, -⟩ := hw
    refine ⟨?_, ?_, ?_, ?_, ?_, ?_⟩
    · refine (read (.hpSlotBaseLo i) hi (by simp only [Csr.number]; omega)).trans ?_
      rw [State.csrRead, extractLsb'_low_eq]; rfl
    · refine (read (.hpSlotBaseHi i) hi (by simp only [Csr.number]; omega)).trans ?_
      rw [State.csrRead, ← hpHiImage_eq]; rfl
    · refine (read (.hpSlotTag i) hi (by simp only [Csr.number]; omega)).trans ?_
      rw [State.csrRead, Tag.setWidth_bit]; rfl
    · exact read (.hpSlotRef i) hi (by simp only [Csr.number]; omega)
    · exact read (.hpWinLo i) hi (by simp only [Csr.number]; omega)
    · exact read (.hpWinHi i) hi (by simp only [Csr.number]; omega)
  case sas =>
    have read (c : Csr) := exec_csrrd_of_number (s := s) (c := c) hw
    obtain ⟨-, -, -, -, -, -, ⟨-, hmax⟩, -⟩ := hw
    refine ⟨?_, ?_, ?_⟩
    · exact read (.sasSlotBase i) hi (by simp only [Csr.number]; omega)
    · exact read (.sasSlotRef i) hi (by simp only [Csr.number]; omega)
    · exact read (.sasWin i) hi (by simp only [Csr.number]; omega)

/-- Settles O50: a listed number that is none of the four names a CSR that no write changes. -/
theorem readOnlyCsrsRefuseWrites : Obligations.ReadOnlyCsrsRefuseWrites := by
  intro s n hh hlist h0 h4 h5 h6
  obtain ⟨c, hn⟩ := Option.ne_none_iff_exists'.mp (mt csrOfNumber_eq_none.mp (not_not.mpr hlist))
  refine exec_csrwr_of_readOnly hh hn (State.csrWrite_eq_none _ ?_)
  rw [← (csrOfNumber_some hn).1]
  simp only [List.mem_cons, List.not_mem_nil, or_false, not_or]
  exact ⟨fun e => h0 (BitVec.eq_of_toNat_eq e), fun e => h4 (BitVec.eq_of_toNat_eq e),
    fun e => h5 (BitVec.eq_of_toNat_eq e), fun e => h6 (BitVec.eq_of_toNat_eq e)⟩

end
